-- ==== Sys2Proof/Word.lean ====
section
/-! DEFINITION. The bit-vector types of the Huffman codec block (HCB), with the spec's widths (R9, R11). -/

namespace Sys2Proof

/-- One Symbol or memory byte (R9 `SYM_BITS` = 8). -/
abbrev Byte := BitVec 8

/-- One host bus word (R9 `BUS_DW` = 32), also the width of a command word, a register and a bus address. -/
abbrev Word := BitVec 32

/-- A node index (R9 `IDX_W` = 9). -/
abbrev Idx := BitVec 9

/-- The symbol field inside the tree (R9 `SYM_W` = 9): a byte or the sentinel. -/
abbrev TreeSym := BitVec 9

/-- A node frequency (R9 `NFREQ_W` = 40). -/
abbrev NodeFreq := BitVec 40

/-- A stored code: 256 bits, first code bit leftmost (R9 `CODE_STORE_W`, R51). -/
abbrev CodeStore := BitVec 256

/-- A bit sequence of R12, first bit first; `true` is the bit 1. -/
abbrev Bits := List Bool

end Sys2Proof
end

