-- ==== Sys2Proof/Config.lean ====
section
/-! DEFINITION. What an implementation fixes: the fixed parameters of R9, the open parameters of R8 and R68, and
the free values behind the draws of R220. A free value has no body: nothing in Lean can evaluate it. -/

namespace Sys2Proof

/-- `SENT`: the sentinel symbol of the dummy leaf (R9, D6). -/
def Config.sent : TreeSym := 0x100#9

/-- `NIL`: the "no node" index (R9, D9). -/
def Config.nil : Idx := 0x1FF#9

/-- `NODE_SLOTS`: the number of node slots, indices 0 to 510 (R9, R47). -/
abbrev Config.nodeSlots : Nat := 511

/-- `NSYM_MAX`: the number of distinct symbols (R9). -/
abbrev Config.nsymMax : Nat := 256

/-- `PQ_CAP`: the priority queue's capacity (R9, D45). -/
def Config.pqCap : Nat := 256

/-- `MAX_CODE_LEN` (R9). -/
def Config.maxCodeLen : Nat := 255

/-- `IN_BASE`: host address of `IN_MEM` byte 0 (R9, R68). -/
def Config.inBase : Nat := 0x100000

/-- `OUT_BASE`: host address of `OUT_MEM` byte 0 (R9, R68). -/
def Config.outBase : Nat := 0x200000

/-- Largest memory size of R8. -/
def Config.maxMemBytes : Nat := 1048576

/-- Open parameter behind `IN_MEM_BYTES` (R8, P1): one less than its number of 32-bit words. DESIGN CHOICE, log 1, safe. -/
opaque Config.inWordsPred : Fin 262144

/-- Open parameter behind `OUT_MEM_BYTES` (R8, P2): one less than its number of 32-bit words. DESIGN CHOICE, log 1, safe. -/
opaque Config.outWordsPred : Fin 262144

/-- `IN_MEM_BYTES`: any multiple of 4 from 4 to 2^20 (R8). -/
def Config.inMemBytes : Nat := 4 * (Config.inWordsPred.val + 1)

/-- `OUT_MEM_BYTES`: any multiple of 4 from 4 to 2^20 (R8). -/
def Config.outMemBytes : Nat := 4 * (Config.outWordsPred.val + 1)

/-- `HCB_BASE` (R68, P3): the system address of the target space. No rule reads it, and no definition of the model does. Log 20. -/
opaque Config.hcbBase : Nat

/-- Draw of R71: what the Core reads, in the completion step with this draw number, at an address of `IN_MEM` that
nothing has written since reset. Free value, log 5, safe. -/
opaque Config.coreRead : Nat → Nat → Byte

/-- Draw of R58: what a host read of a result, a window or a memory returns while `BUSY = 1`, by draw number.
Free value, log 6, safe. -/
opaque Config.busyRead : Nat → Word

/-- Unspecified contents of `IN_MEM` (R207): the byte that the memory holds at an address nothing has written, by epoch (one
epoch per reset). Free value, log 7, safe. -/
opaque Config.heldIn : Nat → Nat → Byte

/-- Unspecified contents of `OUT_MEM` (R207 after reset, R100 after a data error): the byte held at an address nothing has
written since, by epoch (a new one at every reset and every data error). Free value, logs 7 and 8, safe. -/
opaque Config.heldOut : Nat → Nat → Byte

end Sys2Proof
end

