-- ==== Sys2Proof/Syntax.lean ====
section
/-! DEFINITION. The command set "HCB command set 1" (R2, R81): one constructor per row of the opcode table.
Every operand of a command is implicit (R83, R84), so no constructor has an argument. -/

namespace Sys2Proof

/-- The seven legal commands of R81. An illegal word is no command: it has no constructor (R85, R103). -/
inductive Instr where
  /-- `NOP`, R104. -/
  | nop
  /-- `FREQ_COUNT`, R111. -/
  | freqCount
  /-- `BUILD_TREE`, R127. -/
  | buildTree
  /-- `GEN_CODES`, R141. -/
  | genCodes
  /-- `ENCODE`, R150. -/
  | encode
  /-- `DECODE`, R166. -/
  | decode
  /-- `CLEAR`, R105. -/
  | clear
  deriving DecidableEq, Repr

end Sys2Proof
end

