-- ==== Sys2Proof/WellFormed.lean ====
section
/-! DEFINITION. Which commands, command words and parameters are well formed. A command has no operand (R84), so every
constructor of Instr is well formed; the checks with content are those on raw words (R81) and on the open parameters (R8). -/

namespace Sys2Proof

/-- Every command is well formed: it has no field that could be out of range (R84). -/
def Instr.wf : Instr → Bool
  | .nop => true
  | .freqCount => true
  | .buildTree => true
  | .genCodes => true
  | .encode => true
  | .decode => true
  | .clear => true

/-- R81: a command word is legal iff `RSVD` (bits 31:4) is 0 and `OP` (bits 3:0) is 0 to 6. -/
def legalWord (w : Word) : Bool :=
  w.extractLsb' 4 28 == 0#28 && decide ((w.extractLsb' 0 4).toNat < 7)

/-- R8: a memory size is a multiple of 4 from 4 to 2^20. -/
def legalMemBytes (n : Nat) : Bool :=
  n % 4 == 0 && decide (4 ≤ n) && decide (n ≤ Config.maxMemBytes)

end Sys2Proof
end

