-- ==== Sys2Proof/Decode.lean ====
section
/-! DEFINITION. Decoding and encoding of command words (R80 to R82). The decoder is total on 32-bit words and rejects by
name. A command is the data word of one bus write (R77), so no byte order takes part in its decoding. -/

namespace Sys2Proof

/-- Why a word is illegal (R85). -/
inductive IllegalWord where
  /-- `RSVD` (bits 31:4) is not 0. -/
  | reservedBitsSet
  /-- `RSVD = 0` and `OP` is 0x7 to 0xF. -/
  | reservedOpcode
  deriving DecidableEq, Repr

/-- The `OP` field, bits 3:0 (R80). -/
def opField (w : Word) : BitVec 4 := w.extractLsb' 0 4

/-- The `RSVD` field, bits 31:4 (R80). -/
def rsvdField (w : Word) : BitVec 28 := w.extractLsb' 4 28

/-- The opcode map of R81, read from the `OP` field. -/
def decodeOp (op : BitVec 4) : Option Instr :=
  match op.toNat with
  | 0 => some .nop
  | 1 => some .freqCount
  | 2 => some .buildTree
  | 3 => some .genCodes
  | 4 => some .encode
  | 5 => some .decode
  | 6 => some .clear
  | _ => none

/-- R82: every 32-bit word is exactly one legal command or illegal. -/
def decodeWord (w : Word) : Except IllegalWord Instr :=
  if rsvdField w ≠ 0#28 then .error .reservedBitsSet
  else
    match decodeOp (opField w) with
    | some i => .ok i
    | none => .error .reservedOpcode

/-- The opcode of a command (R81). -/
def opcode : Instr → BitVec 4
  | .nop => 0x0#4
  | .freqCount => 0x1#4
  | .buildTree => 0x2#4
  | .genCodes => 0x3#4
  | .encode => 0x4#4
  | .decode => 0x5#4
  | .clear => 0x6#4

/-- The full word of a command (R80, R81): `RSVD = 0` above its opcode. -/
def encodeWord (i : Instr) : Word := 0#28 ++ opcode i

/-- What the decoder reads from an instruction of `nbits` bits whose bits are `w`, every bit above them 0. -/
def decodeTableWord (nbits w : Nat) : Option Instr :=
  match decodeWord (BitVec.ofNat 32 (w % 2 ^ nbits)) with
  | .ok i => some i
  | .error _ => none

end Sys2Proof
end

