-- ==== Sys2Proof/Machine/State.lean ====
section
/-! DEFINITION. The state of the HCB (R20), as plain data, and the state right after `rst` (R57). STATUS is stored field by
field; its word is a view (Machine/Flags.lean). -/

namespace Sys2Proof.Machine

/-- Why a run is faulted. The HCB itself has no trap (R185): only the host's run is faulted. -/
inductive Fault where
  /-- Raised by a host transaction whose response is `ERROR` (misaligned or unmapped address, R62, R63): "a model records an
  ERROR response as a host access fault" (R65). Safe (log 4). -/
  | busError (addr : Word)
  deriving DecidableEq, Repr

/-- Why an instruction has no meaning in the model. -/
inductive Refusal where
  /-- Raised only by an arm of exec whose instruction has no meaning yet; no arm does. Safe. -/
  | notModelled (mnemonic : String)
  deriving DecidableEq, Repr

/-- The error taxonomy of R186. -/
inductive HcbError where
  | emptyStructure
  | malformedHeader
  | corruptStream
  | invalidPadding
  | illegalCommand
  | sequenceError
  | lengthError
  | outputOverflow
  | symbolNotInTable
  deriving DecidableEq, Repr

/-- What `raise E(info)` carries (R15). -/
structure Raise where
  err : HcbError
  info : Word
  deriving DecidableEq, Repr

/-- The sequencer state `SEQ` (R22). -/
inductive SeqState where
  /-- A post-reset initialisation is pending. -/
  | init
  /-- No command is running. -/
  | idle
  /-- The command word `w` has been accepted and has not completed. -/
  | busy (w : Word)
  deriving DecidableEq, Repr

/-- The `KIND` bit of a node slot (R47). -/
inductive NodeKind where
  /-- `KIND = 0`. -/
  | leaf
  /-- `KIND = 1`. -/
  | internal
  deriving DecidableEq, Repr

/-- One slot of the node memory (R47). -/
structure Node where
  kind : NodeKind
  freq : NodeFreq
  sym : TreeSym
  left : Idx
  right : Idx
  deriving DecidableEq, Repr

/-- A cleared slot: it reads 0 in all four words (R48). -/
def Node.cleared : Node := ⟨.leaf, 0#40, 0#9, 0#9, 0#9⟩

/-- A priority-queue entry: the index of a node with its key's frequency (R16, R120). Log 12. -/
structure PqKey where
  freq : NodeFreq
  idx : Idx
  deriving DecidableEq, Repr

/-- The decoder walk state (R56, R167). -/
structure Walk where
  pos : Idx
  k : Nat
  o : Nat
  deriving DecidableEq, Repr

/-- A byte memory: the bytes written since its contents were last unspecified, as (address, byte) pairs with strictly
rising addresses. An unlisted address is a byte that nothing has written (R71, R207). -/
abbrev Memory := List Host.Cell

/-- The two agents (R19). -/
inductive Agent where
  | host
  | core
  deriving DecidableEq, Repr

/-- What the outside still has to do to the block: the host program's statements (R87, R89) and the reset input (R205). -/
inductive HostOp where
  /-- `wr OFF, DATA`: one `BusWrite` (R87). -/
  | wr (addr data : Word)
  /-- `rd OFF`: one `BusRead` (R87). -/
  | rd (addr : Word)
  /-- `wait`: `rd STATUS` repeated while `BUSY = 1` (R89). -/
  | wait
  /-- The reset input is asserted and released (R205). -/
  | rst
  deriving DecidableEq, Repr

/-- The state of the HCB (R20) with the model's own fields after `walk`. -/
structure State where
  /-- `SEQ` (R22). -/
  seq : SeqState
  /-- `STATUS.DONE` (R27). -/
  done : Bool
  /-- `STATUS.ERR` (R28). -/
  err : Bool
  /-- `STATUS.DROP` (R29). -/
  drop : Bool
  /-- `STATUS.TREE_VALID` (R30). -/
  treeValid : Bool
  /-- `STATUS.CODES_VALID` (R31). -/
  codesValid : Bool
  /-- `STATUS.FATAL` (R32). -/
  fatal : Bool
  /-- `STATUS.ERR_CODE` (R33). -/
  errCode : BitVec 4
  /-- `STATUS.LAST_OP` (R34). -/
  lastOp : BitVec 4
  /-- `IN_LEN` (R36). -/
  inLen : Word
  /-- `OUT_LEN` (R38). -/
  outLen : Word
  /-- `TOTAL_BITS` (R39). -/
  totalBits : Word
  /-- `PAD[2:0]` (R40). -/
  pad : BitVec 3
  /-- `NSYM[8:0]` (R41). -/
  nsym : BitVec 9
  /-- `ROOT[8:0]` (R42). -/
  root : Idx
  /-- `NNODES[9:0]` (R43). -/
  nnodes : BitVec 10
  /-- `IRQ_EN[1:0]`: bit 0 `DONE_IE`, bit 1 `ERR_IE` (R44). -/
  irqEn : BitVec 2
  /-- `ERR_INFO` (R45). -/
  errInfo : Word
  /-- `CAP_IN`: the constant `IN_MEM_BYTES` (R46, R8). No step writes it. Log 1. -/
  capIn : Nat
  /-- `CAP_OUT`: the constant `OUT_MEM_BYTES` (R46, R8). No step writes it. Log 1. -/
  capOut : Nat
  /-- `FREQ[0..255]` (R37). -/
  freq : Vector Word 256
  /-- `CODE_LEN[0..255]` (R50). -/
  codeLen : Vector (BitVec 9) 256
  /-- `CODE_BITS[0..255]` (R51): bit 255 is bit 31 of word 0. -/
  codeBits : Vector CodeStore 256
  /-- `NODE[0..510]` (R47). -/
  nodes : Vector Node 511
  /-- `IN_MEM` (R53). -/
  inMem : Memory
  /-- `OUT_MEM` (R54). -/
  outMem : Memory
  /-- `PQ` (R55), least key first. -/
  pq : List PqKey
  /-- The decoder walk state (R56): none outside a `DECODE` completion. -/
  walk : Option Walk
  /-- Model field: which unspecified contents an unlisted byte of `IN_MEM` stands for. Log 7. -/
  inEpoch : Nat
  /-- Model field: which unspecified contents an unlisted byte of `OUT_MEM` stands for. Logs 7, 8. -/
  outEpoch : Nat
  /-- Model field: how many draws have been taken (R220). Logs 5, 6, 19. -/
  draws : Nat
  /-- Model field: what the outside still has to do, first operation first. Logs 2, 11. -/
  script : List HostOp
  /-- Model field: who moves in the next steps (R218); when it is empty an enabled Core step comes first. Log 2. -/
  turns : List Agent
  /-- Model field: address and data of every word a host read has returned, newest first (R60, R87). Log 18. -/
  reads : List (Word × Word)
  deriving DecidableEq, Repr

/-- The state right after `rst` (R57, R205): `SEQ = INIT`, so `STATUS` reads `0x0000_0001`. The tables' contents are
unspecified there and no read shows them (R58); they stand at 0 (DESIGN CHOICE, log 9). The memories list nothing. -/
def State.reset : State where
  seq := .init
  done := false
  err := false
  drop := false
  treeValid := false
  codesValid := false
  fatal := false
  errCode := 0#4
  lastOp := 0#4
  inLen := 0#32
  outLen := 0#32
  totalBits := 0#32
  pad := 0#3
  nsym := 0#9
  root := Config.nil
  nnodes := 0#10
  irqEn := 0#2
  errInfo := 0#32
  capIn := Config.inMemBytes
  capOut := Config.outMemBytes
  freq := Vector.replicate 256 0#32
  codeLen := Vector.replicate 256 0#9
  codeBits := Vector.replicate 256 0#256
  nodes := Vector.replicate 511 Node.cleared
  inMem := []
  outMem := []
  pq := []
  walk := none
  inEpoch := 0
  outEpoch := 0
  draws := 0
  script := []
  turns := []
  reads := []

end Sys2Proof.Machine
end

