-- ==== Sys2Proof/Machine/Flags.lean ====
section
/-! DEFINITION. The STATUS word (R25), its write-1-to-clear rule (R35), the error codes (R186) and the interrupt output (R192). -/

namespace Sys2Proof.Machine

/-- The number of an error in `STATUS.ERR_CODE` (R186). -/
def HcbError.code : HcbError → BitVec 4
  | .emptyStructure => 1#4
  | .malformedHeader => 2#4
  | .corruptStream => 3#4
  | .invalidPadding => 4#4
  | .illegalCommand => 5#4
  | .sequenceError => 6#4
  | .lengthError => 7#4
  | .outputOverflow => 8#4
  | .symbolNotInTable => 9#4

/-- The data errors (R100); the others are check errors or fatal (R186). -/
def HcbError.isData : HcbError → Bool
  | .emptyStructure => false
  | .malformedHeader => true
  | .corruptStream => true
  | .invalidPadding => true
  | .illegalCommand => false
  | .sequenceError => false
  | .lengthError => false
  | .outputOverflow => true
  | .symbolNotInTable => true

/-- `STATUS.BUSY` (R26): 1 iff `SEQ` is not `IDLE`. -/
def State.busy (s : State) : Bool := decide (s.seq ≠ .idle)

/-- The word a read of `STATUS` returns (R25), bit 31 first; bits 31:16 and bit 4 read 0. -/
def State.statusWord (s : State) : Word :=
  0#16 ++ s.lastOp ++ s.errCode ++ BitVec.ofBool s.fatal ++ BitVec.ofBool s.codesValid ++ BitVec.ofBool s.treeValid
    ++ 0#1 ++ BitVec.ofBool s.drop ++ BitVec.ofBool s.err ++ BitVec.ofBool s.done ++ BitVec.ofBool s.busy

/-- A host write of `v` to `STATUS` (R35): it clears `DONE`, `ERR`, `DROP` where bit 1, 2, 3 of `v` is 1. -/
def State.ackStatus (v : Word) (s : State) : State :=
  { s with
    done := s.done && !v.getLsbD 1
    err := s.err && !v.getLsbD 2
    drop := s.drop && !v.getLsbD 3 }

/-- The level output `irq` (R192). -/
def State.irq (s : State) : Bool :=
  (s.done && s.irqEn.getLsbD 0) || (s.err && s.irqEn.getLsbD 1)

end Sys2Proof.Machine
end

