-- ==== Sys2Proof/Machine/Ops.lean ====
section
/-! DEFINITION. The named operations over memories, tables and state: the life of a command (acceptance R96, the checks
R101, success R98, error completion R99 with the data-error effects R100), the initialisation step (R206) and reset (R205).
The error completion is this hardware's only exception entry (R185, R195); there is no return (R196): a host
acknowledges with a STATUS write (State.ackStatus) or with the next command. -/

namespace Sys2Proof.Machine

/-! ### Byte memories -/

/-- What an unlisted address reads as: no value, since nothing has written it. The readers turn that into a draw or into what
the memory holds (Operands.lean; logs 5, 7, 8). -/
def Memory.unlisted : Option Byte := none

/-- The byte written at `a`, if any write has reached it. -/
def Memory.get? : Memory → Nat → Option Byte
  | [], _ => Memory.unlisted
  | (b, v) :: m, a => if a = b then some v else Memory.get? m a

/-- A write of one byte. It keeps the addresses strictly rising. -/
def Memory.set : Memory → Nat → Byte → Memory
  | [], a, v => [(a, v)]
  | (b, w) :: m, a, v =>
    if a < b then (a, v) :: (b, w) :: m
    else if a = b then (a, v) :: m
    else (b, w) :: Memory.set m a v

/-- Writes of consecutive bytes from `a` up. -/
def Memory.writeBytes : Memory → Nat → List Byte → Memory
  | m, _, [] => m
  | m, a, b :: bs => Memory.writeBytes (Memory.set m a b) (a + 1) bs

/-- The canonical form: strictly rising addresses. An unlisted byte reads as no value, which no entry can hold. -/
abbrev Memory.wf (m : Memory) : Prop := (m.map Prod.fst).Pairwise (· < ·)

/-- Every listed address is below the memory's size. -/
abbrev Memory.below (m : Memory) (size : Nat) : Prop := ∀ c ∈ m, c.1 < size

/-! ### Tables of 256 entries, one per Symbol -/

/-- Entry `s` of a table (R13: `FREQ[s]`, `CODE_LEN[s]`, `CODE_BITS[s]`). -/
def tableGet {α : Type} (t : Vector α 256) (s : Byte) : α := t[s.toNat]'s.isLt

/-- A table with entry `s` replaced. -/
def tableSet {α : Type} (t : Vector α 256) (s : Byte) (v : α) : Vector α 256 := t.set s.toNat v s.isLt

/-- Slot `n` of the node memory. Index 511 is `NIL`, no slot: it reads as a cleared slot (R48). -/
def nodeAt (nodes : Vector Node 511) (n : Idx) : Node :=
  if h : n.toNat < 511 then nodes[n.toNat] else Node.cleared

/-- The node memory whose first slots are `ns` and whose other slots are cleared. -/
def nodeMemory (ns : List Node) : Vector Node 511 := Vector.ofFn fun i => ns.getD i.val Node.cleared

/-! ### The life of a command -/

/-- Acceptance of command word `w` (R96). -/
def State.accept (w : Word) (s : State) : State :=
  { s with seq := .busy w, done := false, err := false, lastOp := opField w }

/-- A guarded write met a busy HCB: it is dropped (R29, R214). -/
def State.dropWrite (s : State) : State := { s with drop := true }

/-- Success completion (R98). The completion step takes one draw number (log 5). -/
def State.succeed (s : State) : State :=
  { s with seq := .idle, done := true, errCode := 0#4, errInfo := 0#32, draws := s.draws + 1 }

/-- Error completion (R99) without the data-error effects. The completion step takes one draw number (log 5). -/
def State.raiseError (r : Raise) (s : State) : State :=
  { s with
    seq := .idle
    err := true
    errCode := r.err.code
    errInfo := r.info
    fatal := s.fatal || decide (r.err = .emptyStructure)
    draws := s.draws + 1 }

/-- Data-error effects (R100): every byte of `OUT_MEM` becomes unspecified (log 8). -/
def State.discardOutput (s : State) : State :=
  { s with outLen := 0#32, totalBits := 0#32, pad := 0#3, outMem := [], outEpoch := s.outEpoch + 1 }

/-- The commands to which R100 applies. -/
def isCodecCommand : Instr → Bool
  | .nop => false
  | .freqCount => false
  | .buildTree => false
  | .genCodes => false
  | .encode => true
  | .decode => true
  | .clear => false

/-- `raise E(info)` (R15, R99) in command `i`: the error completion, with R100 where it applies. -/
def State.failCommand (i : Instr) (r : Raise) (s : State) : State :=
  if isCodecCommand i && r.err.isData then (s.raiseError r).discardOutput else s.raiseError r

/-- Completion of an illegal word (R103): `IllegalCommand(w)`, no other state change. -/
def State.failIllegal (w : Word) (s : State) : State := s.raiseError ⟨.illegalCommand, w⟩

/-- Check 3 of R101: the structure the command needs is valid. -/
def sequenceOk : Instr → State → Bool
  | .nop, _ => true
  | .freqCount, _ => true
  | .buildTree, _ => true
  | .genCodes, s => s.treeValid
  | .encode, s => s.codesValid
  | .decode, s => s.treeValid
  | .clear, _ => true

/-- The commands that read `IN_MEM[0 .. IN_LEN-1]` (R83, R101 check 4). -/
def readsInputCommand : Instr → Bool
  | .nop => false
  | .freqCount => true
  | .buildTree => false
  | .genCodes => false
  | .encode => true
  | .decode => true
  | .clear => false

/-- Checks 2 to 4 of R101, the first that fails; check 1 is the decoding of the word. -/
def checkCommand (i : Instr) (s : State) : Option Raise :=
  if s.fatal then some ⟨.emptyStructure, 0#32⟩
  else if !sequenceOk i s then some ⟨.sequenceError, (opcode i).setWidth 32⟩
  else if readsInputCommand i && decide (s.capIn < s.inLen.toNat) then some ⟨.lengthError, s.inLen⟩
  else none

/-- The completion step of a legal command (R97): the checks, the pseudocode, then R98 or R99. The pseudocode writes nothing
before a raise (R99), so an error completion starts from the state at acceptance. -/
def State.runCommand (i : Instr) (body : State → Except Raise State) (s : State) : State :=
  match checkCommand i s with
  | some r => s.failCommand i r
  | none =>
    match body s with
    | .ok t => t.succeed
    | .error r => s.failCommand i r

/-! ### Initialisation and reset -/

/-- All tables zero and all node slots cleared (R105, R206). -/
def State.clearTables (s : State) : State :=
  { s with
    freq := Vector.replicate 256 0#32
    codeLen := Vector.replicate 256 0#9
    codeBits := Vector.replicate 256 0#256
    nodes := Vector.replicate 511 Node.cleared }

/-- The initialisation step (R206). -/
def State.initialise (s : State) : State := { s.clearTables with seq := .idle }

/-- The reset input (R205): every piece of HCB state takes its value right after `rst` (R57). The parameters and the outside
(script, turns, reads) stay; both memories get new unspecified contents (R207, log 7, log 10). -/
def State.afterRst (s : State) : State :=
  { State.reset with
    capIn := s.capIn
    capOut := s.capOut
    inEpoch := s.inEpoch + 1
    outEpoch := s.outEpoch + 1
    draws := s.draws
    script := s.script
    turns := s.turns
    reads := s.reads }

/-! ### The effects of the commands and of host writes, field by field -/

/-- The writes of `FREQ_COUNT` (R111). -/
def State.installCounts (f : Vector Word 256) (s : State) : State :=
  { s with freq := f, treeValid := false, codesValid := false }

/-- A host write to `FREQ[x]` while idle (R37). -/
def State.setFreq (x : Byte) (v : Word) (s : State) : State :=
  { s with freq := tableSet s.freq x v, treeValid := false, codesValid := false }

/-- The writes of `BUILD_TREE` (R127); `PQ` is empty when it ends (R55). -/
def State.installTree (nodes : Vector Node 511) (nsym : BitVec 9) (root : Idx) (nnodes : BitVec 10) (s : State) : State :=
  { s with
    nodes := nodes, nsym := nsym, root := root, nnodes := nnodes
    pq := [], treeValid := true, codesValid := false }

/-- The writes of `GEN_CODES` (R141). -/
def State.installCodes (len : Vector (BitVec 9) 256) (bits : Vector CodeStore 256) (s : State) : State :=
  { s with codeLen := len, codeBits := bits, codesValid := true }

/-- The writes of a successful `ENCODE` or `DECODE` (R150, R166): `out` goes to `OUT_MEM[0 ..]`, the bytes above it keep
their values (R158, R178), and no walk state is left (R56). -/
def State.installOutput (out : List Byte) (bits : Nat) (pad : BitVec 3) (s : State) : State :=
  { s with
    outMem := Memory.writeBytes s.outMem 0 out
    outLen := BitVec.ofNat 32 out.length
    totalBits := BitVec.ofNat 32 bits
    pad := pad
    walk := none }

/-- The writes of `CLEAR` (R105). -/
def State.clearAll (s : State) : State :=
  { s.clearTables with
    nsym := 0#9, root := Config.nil, nnodes := 0#10
    outLen := 0#32, totalBits := 0#32, pad := 0#3
    treeValid := false, codesValid := false }

/-- A host write to `IN_LEN` while idle (R36). -/
def State.setInLen (v : Word) (s : State) : State := { s with inLen := v }

/-- A host write to `IRQ_EN` (R44): bits 31:2 are ignored. -/
def State.setIrqEn (v : Word) (s : State) : State := { s with irqEn := v.setWidth 2 }

/-- Host writes of consecutive bytes to `IN_MEM` (R61). -/
def State.storeIn (a : Nat) (bs : List Byte) (s : State) : State := { s with inMem := Memory.writeBytes s.inMem a bs }

/-- Host writes of consecutive bytes to `OUT_MEM` (R54, R61). -/
def State.storeOut (a : Nat) (bs : List Byte) (s : State) : State := { s with outMem := Memory.writeBytes s.outMem a bs }

/-! ### The model's own bookkeeping -/

/-- A host read took a draw (R58). -/
def State.tookDraw (s : State) : State := { s with draws := s.draws + 1 }

/-- The turn of the agent that moves now is used up (log 2). -/
def State.takeTurn (s : State) : State := { s with turns := s.turns.tail }

/-- The first host operation is done. -/
def State.popScript (s : State) : State := { s with script := s.script.tail }

/-- A host read of `addr` returned `v` (R60). -/
def State.logRead (addr v : Word) (s : State) : State := { s with reads := (addr, v) :: s.reads }

end Sys2Proof.Machine
end

