-- ==== Sys2Proof/Machine/Operands.lean ====
section
/-! DEFINITION. Operands: the implicit operands of the commands (R83), byte order and bit order (R61, R152, R168), and
the address map of the bus port with the words its windows show (R23, R48, R51, R63). -/

namespace Sys2Proof.Machine

/-! ### What a byte of a memory is -/

/-- What the Core reads at `a` of `IN_MEM` (R71): the byte written there, or a draw (log 5). -/
def State.coreByte (s : State) (a : Nat) : Byte :=
  match Memory.get? s.inMem a with
  | some b => b
  | none => Config.coreRead s.draws a

/-- What `IN_MEM` holds at `a`, as a host read shows it (R207, log 7). -/
def State.inByte (s : State) (a : Nat) : Byte :=
  match Memory.get? s.inMem a with
  | some b => b
  | none => Config.heldIn s.inEpoch a

/-- What `OUT_MEM` holds at `a`, as a host read shows it (R207, R100, logs 7 and 8). -/
def State.outByte (s : State) (a : Nat) : Byte :=
  match Memory.get? s.outMem a with
  | some b => b
  | none => Config.heldOut s.outEpoch a

/-- The input of a command: `IN_MEM[0 .. IN_LEN-1]`, each byte read exactly once (R36, R150, R166). -/
def State.inputBytes (s : State) : List Byte := (List.range s.inLen.toNat).map s.coreByte

/-- The output of a codec command: `OUT_MEM[0 .. OUT_LEN-1]` (R38), the EncodedBuffer after a `COMPRESS` (R91). -/
def State.outputBytes (s : State) : List Byte := (List.range s.outLen.toNat).map s.outByte

/-! ### Byte order of host words and bit order of the stream -/

/-- Byte `m` of a host word: data bits `[8m+7 : 8m]` (R61, little-endian). -/
def wordByte (d : Word) (m : Nat) : Byte := d.extractLsb' (8 * m) 8

/-- The four bytes of a host word, lowest address first (R61). -/
def wordBytes (d : Word) : List Byte := [wordByte d 0, wordByte d 1, wordByte d 2, wordByte d 3]

/-- The host word over four bytes, lowest address first (R61). -/
def bytesWord (b0 b1 b2 b3 : Byte) : Word := b3 ++ b2 ++ b1 ++ b0

/-- The bits of a stream byte, most significant first (R152, R168). -/
def byteBits (b : Byte) : Bits :=
  [b.getMsbD 0, b.getMsbD 1, b.getMsbD 2, b.getMsbD 3, b.getMsbD 4, b.getMsbD 5, b.getMsbD 6, b.getMsbD 7]

/-- The bits of a stream of bytes, in order (R12, R168). -/
def unpackBits (bs : List Byte) : Bits := bs.flatMap byteBits

/-- The number a bit sequence writes, first bit most significant. -/
def bitsValue : Bits → Nat
  | [] => 0
  | b :: bs => b.toNat * 2 ^ bs.length + bitsValue bs

/-- A bit sequence packed into bytes, most significant bit first (R152). Callers pass a multiple of 8 bits. -/
def packBits : Bits → List Byte
  | b7 :: b6 :: b5 :: b4 :: b3 :: b2 :: b1 :: b0 :: bs =>
    BitVec.ofNat 8 (bitsValue [b7, b6, b5, b4, b3, b2, b1, b0]) :: packBits bs
  | _ => []

/-- A code stored left-aligned (R51): its first bit is bit 255 of the 256, which is bit 31 of word 0. -/
def leftAligned (p : Bits) : CodeStore := BitVec.ofNat 256 (bitsValue p * 2 ^ (256 - p.length))

/-- The first `len` bits of a stored code (R150). -/
def storedCode (len : BitVec 9) (bits : CodeStore) : Bits := (List.range len.toNat).map fun i => bits.getMsbD i

/-- The code of symbol `x` in the code table (R150). -/
def State.code (s : State) (x : Byte) : Bits := storedCode (tableGet s.codeLen x) (tableGet s.codeBits x)

/-! ### The address map -/

/-- What a bus address that gets `OKAY` reaches (R23, R63). -/
inductive Target where
  | cmd
  | status
  | inLen
  | outLen
  | totalBits
  | pad
  | nsym
  | root
  | nnodes
  | irqEn
  | errInfo
  | capIn
  | capOut
  | freq (s : Byte)
  | codeLen (s : Byte)
  | codeBits (s : Byte) (k : BitVec 3)
  | node (n : Idx) (w : BitVec 2)
  /-- The word over `IN_MEM` bytes `a .. a+3`. -/
  | inMem (a : Nat)
  /-- The word over `OUT_MEM` bytes `a .. a+3`. -/
  | outMem (a : Nat)
  deriving DecidableEq, Repr

/-- The control register at word offset `n` (R23): offsets `0x000` to `0x030`. -/
def registerAt : Nat → Option Target
  | 0 => some .cmd
  | 1 => some .status
  | 2 => some .inLen
  | 3 => some .outLen
  | 4 => some .totalBits
  | 5 => some .pad
  | 6 => some .nsym
  | 7 => some .root
  | 8 => some .nnodes
  | 9 => some .irqEn
  | 10 => some .errInfo
  | 11 => some .capIn
  | 12 => some .capOut
  | _ => none

/-- The decode of addresses (R62, R63): none is the response `ERROR`. -/
def decodeAddr (capIn capOut : Nat) (addr : Word) : Option Target :=
  let a := addr.toNat
  if a % 4 ≠ 0 then none
  else if a < 0x400 then registerAt (a / 4)
  else if a < 0x800 then some (.freq (BitVec.ofNat 8 ((a - 0x400) / 4)))
  else if a < 0xC00 then some (.codeLen (BitVec.ofNat 8 ((a - 0x800) / 4)))
  else if a < 0x2000 then none
  else if a < 0x4000 then some (.codeBits (BitVec.ofNat 8 ((a - 0x2000) / 32)) (BitVec.ofNat 3 ((a - 0x2000) / 4)))
  else if a < 0x6000 then some (.node (BitVec.ofNat 9 ((a - 0x4000) / 16)) (BitVec.ofNat 2 ((a - 0x4000) / 4)))
  else if Config.inBase ≤ a ∧ a < Config.inBase + capIn then some (.inMem (a - Config.inBase))
  else if Config.outBase ≤ a ∧ a < Config.outBase + capOut then some (.outMem (a - Config.outBase))
  else none

/-- The `KIND` bit: 0 = Leaf, 1 = Internal (R47). -/
def NodeKind.bit : NodeKind → BitVec 1
  | .leaf => 0#1
  | .internal => 1#1

/-- Word `w` of a node slot (R48). -/
def nodeWord (n : Node) (w : BitVec 2) : Word :=
  match w.toNat with
  | 0 => n.freq.extractLsb' 0 32
  | 1 => (n.freq.extractLsb' 32 8).setWidth 32
  | 2 => n.kind.bit ++ 0#22 ++ n.sym
  | _ => 0#7 ++ n.right ++ 0#7 ++ n.left

/-- Word `k` of a stored code (R51): word 0 holds its first 32 bits. -/
def codeWord (bits : CodeStore) (k : BitVec 3) : Word := bits.extractLsb' (224 - 32 * k.toNat) 32

/-- The word over `IN_MEM` bytes `a .. a+3` (R61). -/
def State.inWord (s : State) (a : Nat) : Word :=
  bytesWord (s.inByte a) (s.inByte (a + 1)) (s.inByte (a + 2)) (s.inByte (a + 3))

/-- The word over `OUT_MEM` bytes `a .. a+3` (R61). -/
def State.outWord (s : State) (a : Nat) : Word :=
  bytesWord (s.outByte a) (s.outByte (a + 1)) (s.outByte (a + 2)) (s.outByte (a + 3))

end Sys2Proof.Machine
end

