-- ==== Sys2Proof/Machine/CodeTable.lean ====
section
/-! DEFINITION. The code table generator: GEN_CODES (R140 to R143). The codes are those of the tree walk (C1). -/

namespace Sys2Proof.Machine

/-- `visit(x, p)` of R141: the leaves below node `x` with their bit paths, depth first, left edge 0 and right edge 1 (R143).
A tree path visits at most 256 nodes, so fuel 511 is enough (log 13). -/
def leafPaths (nodes : Vector Node 511) : Nat → Idx → Bits → List (TreeSym × Bits)
  | 0, _, _ => []
  | fuel + 1, x, p =>
    match (nodeAt nodes x).kind with
    | .leaf => [((nodeAt nodes x).sym, p)]
    | .internal =>
      leafPaths nodes fuel (nodeAt nodes x).left (p ++ [false]) ++ leafPaths nodes fuel (nodeAt nodes x).right (p ++ [true])

/-- `CODE_LEN` and `CODE_BITS` together. -/
structure CodeTab where
  len : Vector (BitVec 9) 256
  bits : Vector CodeStore 256
  deriving DecidableEq, Repr

/-- The table with no code (R141, D33). -/
def CodeTab.empty : CodeTab := ⟨Vector.replicate 256 0#9, Vector.replicate 256 0#256⟩

/-- The code of one leaf is recorded, unless the leaf is the sentinel (R141). -/
def recordCode (t : CodeTab) (leaf : TreeSym × Bits) : CodeTab :=
  if leaf.1.toNat < 256 then
    ⟨tableSet t.len (leaf.1.setWidth 8) (BitVec.ofNat 9 leaf.2.length), tableSet t.bits (leaf.1.setWidth 8) (leftAligned leaf.2)⟩
  else t

/-- The code table of a tree (R141, R142). -/
def codesOf (nodes : Vector Node 511) (root : Idx) : CodeTab :=
  if root = Config.nil then CodeTab.empty
  else (leafPaths nodes Config.nodeSlots root []).foldl recordCode CodeTab.empty

/-- The pseudocode of GEN_CODES (R141). -/
def genCodesBody (s : State) : Except Raise State :=
  let t := codesOf s.nodes s.root
  .ok (s.installCodes t.len t.bits)

/-- `GEN_CODES` (R141). -/
def execGenCodes (s : State) : Host.Outcome State Fault Refusal :=
  .next (s.runCommand .genCodes genCodesBody)

end Sys2Proof.Machine
end

