-- ==== Sys2Proof/Machine/Control.lean ====
section
/-! DEFINITION. The control commands: NOP (R104) and CLEAR (R105). The illegal word (R103) is State.failIllegal. -/

namespace Sys2Proof.Machine

/-- `NOP` (R104): it only completes. -/
def execNop (s : State) : Host.Outcome State Fault Refusal :=
  .next (s.runCommand .nop fun s => .ok s)

/-- `CLEAR` (R105). -/
def execClear (s : State) : Host.Outcome State Fault Refusal :=
  .next (s.runCommand .clear fun s => .ok s.clearAll)

end Sys2Proof.Machine
end

