-- ==== Sys2Proof/Machine/Decoder.lean ====
section
/-! DEFINITION. The bit-unpacking decoder: DECODE and its state machine (R165 to R178). -/

namespace Sys2Proof.Machine

/-- The child of `pos` for a bit (R166): bit 0 moves to LEFT, bit 1 to RIGHT. -/
def childOf (nodes : Vector Node 511) (pos : Idx) (bit : Bool) : Idx :=
  if bit then (nodeAt nodes pos).right else (nodeAt nodes pos).left

/-- One step of state `D_WALK` on a bit (R169), with the byte it emits, if any. -/
def walkBit (nodes : Vector Node 511) (root : Idx) (capOut : Nat) (bit : Bool) (w : Walk) :
    Except Raise (Walk × Option Byte) :=
  if root = Config.nil then .error ⟨.corruptStream, BitVec.ofNat 32 w.k⟩
  else
    let child := childOf nodes w.pos bit
    match (nodeAt nodes child).kind with
    | .internal => .ok (⟨child, w.k + 1, w.o⟩, none)
    | .leaf =>
      if (nodeAt nodes child).sym = Config.sent then .error ⟨.corruptStream, BitVec.ofNat 32 w.k⟩
      else if w.o = capOut then .error ⟨.outputOverflow, BitVec.ofNat 32 w.k⟩
      else .ok (⟨root, w.k + 1, w.o + 1⟩, some ((nodeAt nodes child).sym.setWidth 8))

/-- State `D_WALK` over the trimmed bits (R169): the last walk state and the bytes emitted, in order. -/
def walkBits (nodes : Vector Node 511) (root : Idx) (capOut : Nat) : Bits → Walk → Except Raise (Walk × List Byte)
  | [], w => .ok (w, [])
  | bit :: bits, w =>
    match walkBit nodes root capOut bit w with
    | .error r => .error r
    | .ok (w', emitted) =>
      match walkBits nodes root capOut bits w' with
      | .error r => .error r
      | .ok (w'', out) => .ok (w'', emitted.toList ++ out)

/-- States `D_WALK` and `D_END` (R169): the bytes that `bits` decode to. -/
def decodeBits (nodes : Vector Node 511) (root : Idx) (capOut : Nat) (bits : Bits) : Except Raise (List Byte) :=
  match walkBits nodes root capOut bits ⟨root, 0, 0⟩ with
  | .error r => .error r
  | .ok (w, out) => if w.pos ≠ root then .error ⟨.corruptStream, BitVec.ofNat 32 bits.length⟩ else .ok out

/-- The trimmed payload (R168): all bits of the payload but the last `p`. -/
def trimmedBits (payload : List Byte) (p : Nat) : Bits := (unpackBits payload).take (8 * payload.length - p)

/-- The pseudocode of DECODE (R166): states `D_HDR`, `D_PAD` (R170), then the walk. -/
def decodeBody (s : State) : Except Raise State :=
  match s.inputBytes with
  | [] => .error ⟨.malformedHeader, 0#32⟩
  | p :: payload =>
    if 7 < p.toNat ∨ 8 * payload.length < p.toNat then .error ⟨.invalidPadding, p.setWidth 32⟩
    else
      match decodeBits s.nodes s.root s.capOut (trimmedBits payload p.toNat) with
      | .error r => .error r
      | .ok out => .ok (s.installOutput out (8 * payload.length - p.toNat) (p.setWidth 3))

/-- `DECODE` (R166). -/
def execDecode (s : State) : Host.Outcome State Fault Refusal :=
  .next (s.runCommand .decode decodeBody)

end Sys2Proof.Machine
end

