-- ==== Sys2Proof/Machine/Encoder.lean ====
section
/-! DEFINITION. The bit-packing encoder: ENCODE (R150 to R158). -/

namespace Sys2Proof.Machine

/-- The lowest index, counted from `i`, of an input byte with no code (R155). -/
def firstUncoded (codeLen : Vector (BitVec 9) 256) : List Byte → Nat → Option Nat
  | [], _ => none
  | x :: xs, i => if tableGet codeLen x = 0#9 then some i else firstUncoded codeLen xs (i + 1)

/-- `T`: the number of code bits of an input (R150). -/
def codeBitCount (codeLen : Vector (BitVec 9) 256) (input : List Byte) : Nat :=
  (input.map fun x => (tableGet codeLen x).toNat).sum

/-- The padding count of `T` code bits (R153). -/
def paddingOf (t : Nat) : Nat := (8 - t % 8) % 8

/-- The size in bytes of the EncodedBuffer of `T` code bits (R151). -/
def encodedSize (t : Nat) : Nat := 1 + (t + paddingOf t) / 8

/-- `B` of R150: the codes of the input in order, then the padding bits. -/
def codeStream (s : State) (input : List Byte) (pad : Nat) : Bits := input.flatMap s.code ++ List.replicate pad false

/-- The EncodedBuffer (R150): the header byte (R154), then the packed stream (R152). -/
def encodedBuffer (s : State) (input : List Byte) : List Byte :=
  let pad := paddingOf (codeBitCount s.codeLen input)
  BitVec.ofNat 8 pad :: packBits (codeStream s input pad)

/-- The pseudocode of ENCODE (R150): the whole input is checked before the size, the size before any write (R151, R155). -/
def encodeBody (s : State) : Except Raise State :=
  let input := s.inputBytes
  let t := codeBitCount s.codeLen input
  match firstUncoded s.codeLen input 0 with
  | some i => .error ⟨.symbolNotInTable, BitVec.ofNat 32 i⟩
  | none =>
    if s.capOut < encodedSize t then .error ⟨.outputOverflow, BitVec.ofNat 32 (encodedSize t)⟩
    else .ok (s.installOutput (encodedBuffer s input) t (BitVec.ofNat 3 (paddingOf t)))

/-- `ENCODE` (R150). -/
def execEncode (s : State) : Host.Outcome State Fault Refusal :=
  .next (s.runCommand .encode encodeBody)

end Sys2Proof.Machine
end

