-- ==== Sys2Proof/Machine/Frequency.lean ====
section
/-! DEFINITION. FrequencySource: FREQ_COUNT (R110 to R112). -/

namespace Sys2Proof.Machine

/-- The FrequencyMap of an input (R111): counter `s` is the number of occurrences of byte `s`. A count is at most `IN_LEN`,
so 32 bits hold it (R10). -/
def countsOf (input : List Byte) : Vector Word 256 :=
  Vector.ofFn fun s => BitVec.ofNat 32 (input.count (BitVec.ofNat 8 s.val))

/-- `FREQ_COUNT` (R111). -/
def execFreqCount (s : State) : Host.Outcome State Fault Refusal :=
  .next (s.runCommand .freqCount fun s => .ok (s.installCounts (countsOf s.inputBytes)))

end Sys2Proof.Machine
end

