-- ==== Sys2Proof/Machine/Tree.lean ====
section
/-! DEFINITION. MinPriorityStructure and TreeBuilder: BUILD_TREE (R120 to R132). -/

namespace Sys2Proof.Machine

/-- The order of keys (R16): by frequency, then by index. -/
def pqLt (x y : PqKey) : Bool := decide (x.freq < y.freq) || (decide (x.freq = y.freq) && decide (x.idx < y.idx))

/-- `PQ.insert` (R121). The queue is kept with its least key first (R123, log 12). -/
def pqInsert (x : PqKey) : List PqKey → List PqKey
  | [] => [x]
  | y :: q => if pqLt x y then x :: y :: q else y :: pqInsert x q

/-- `PQ.extract_min` (R122): the least key, or `EmptyStructure(0)` on the empty queue (R187). -/
def extractMin : List PqKey → Except Raise (PqKey × List PqKey)
  | [] => .error ⟨.emptyStructure, 0#32⟩
  | x :: q => .ok (x, q)

/-- What BUILD_TREE works on: the slots filled so far, in index order (so `next` is their number), and `PQ`. -/
structure Builder where
  nodes : List Node
  pq : List PqKey
  deriving DecidableEq, Repr

/-- `PQ.insert(newnode(...))` (R125): the node's index is its creation number. -/
def addNode (n : Node) (b : Builder) : Builder :=
  ⟨b.nodes ++ [n], pqInsert ⟨n.freq, BitVec.ofNat 9 b.nodes.length⟩ b.pq⟩

/-- A real leaf (R127). -/
def leafNode (sym : Nat) (f : Word) : Node := ⟨.leaf, f.setWidth 40, BitVec.ofNat 9 sym, Config.nil, Config.nil⟩

/-- The dummy leaf (R129). -/
def sentinelNode : Node := ⟨.leaf, 0#40, Config.sent, Config.nil, Config.nil⟩

/-- Real leaves in ascending symbol order, one for each non-zero counter (R126); `sym` is the symbol of the first counter. -/
def addLeaves : List Word → Nat → Builder → Builder
  | [], _, b => b
  | f :: fs, sym, b => addLeaves fs (sym + 1) (if f = 0#32 then b else addNode (leafNode sym f) b)

/-- The leaves of a FrequencyMap (R126). -/
def leavesOf (freq : Vector Word 256) : Builder := addLeaves freq.toList 0 ⟨[], []⟩

/-- The dummy leaf is added when there is exactly one real leaf (R129). -/
def addSentinel (b : Builder) : Builder := if b.nodes.length = 1 then addNode sentinelNode b else b

/-- One merge (R130): the first node extracted is LEFT, the second RIGHT. -/
def mergeOnce (b : Builder) : Except Raise Builder :=
  match extractMin b.pq with
  | .error r => .error r
  | .ok (x, q) =>
    match extractMin q with
    | .error r => .error r
    | .ok (y, q') => .ok (addNode ⟨.internal, x.freq + y.freq, 0#9, x.idx, y.idx⟩ ⟨b.nodes, q'⟩)

/-- The merge loop, `while |PQ| >= 2` (R127, R131). Each merge shortens the queue by one, so fuel `|PQ|` is enough (log 13). -/
def mergeLoop : Nat → Builder → Except Raise Builder
  | 0, b => .ok b
  | fuel + 1, b =>
    if b.pq.length < 2 then .ok b
    else
      match mergeOnce b with
      | .error r => .error r
      | .ok b' => mergeLoop fuel b'

/-- The single element left in the queue (R131). -/
def lastIndex : List PqKey → Idx
  | [] => Config.nil
  | x :: _ => x.idx

/-- What BUILD_TREE leaves: `NODE`, `NSYM`, `ROOT`, `NNODES`. -/
structure Tree where
  nodes : Vector Node 511
  nsym : BitVec 9
  root : Idx
  nnodes : BitVec 10
  deriving DecidableEq, Repr

/-- The empty tree (R128). -/
def emptyTree : Tree := ⟨nodeMemory [], 0#9, Config.nil, 0#10⟩

/-- The tree of a FrequencyMap (R127, R132): a function of `FREQ[0..255]` alone. -/
def treeOf (freq : Vector Word 256) : Except Raise Tree :=
  let leaves := leavesOf freq
  if leaves.nodes.length = 0 then .ok emptyTree
  else
    let start := addSentinel leaves
    match mergeLoop start.pq.length start with
    | .error r => .error r
    | .ok b =>
      .ok ⟨nodeMemory b.nodes, BitVec.ofNat 9 leaves.nodes.length, lastIndex b.pq, BitVec.ofNat 10 b.nodes.length⟩

/-- The pseudocode of BUILD_TREE (R127). -/
def buildTreeBody (s : State) : Except Raise State :=
  match treeOf s.freq with
  | .error r => .error r
  | .ok t => .ok (s.installTree t.nodes t.nsym t.root t.nnodes)

/-- `BUILD_TREE` (R127). -/
def execBuildTree (s : State) : Host.Outcome State Fault Refusal :=
  .next (s.runCommand .buildTree buildTreeBody)

end Sys2Proof.Machine
end

