-- ==== Sys2Proof/Machine/Bus.lean ====
section
/-! DEFINITION. The host bus port (R60 to R65): BusRead and BusWrite. `none` is the response `ERROR`, which changes no state. -/

namespace Sys2Proof.Machine

/-- The defined value of a word (R23 to R54), as a read returns it while `BUSY = 0`. -/
def State.targetWord (s : State) : Target → Word
  | .cmd => 0#32
  | .status => s.statusWord
  | .inLen => s.inLen
  | .outLen => s.outLen
  | .totalBits => s.totalBits
  | .pad => s.pad.setWidth 32
  | .nsym => s.nsym.setWidth 32
  | .root => s.root.setWidth 32
  | .nnodes => s.nnodes.setWidth 32
  | .irqEn => s.irqEn.setWidth 32
  | .errInfo => s.errInfo
  | .capIn => BitVec.ofNat 32 s.capIn
  | .capOut => BitVec.ofNat 32 s.capOut
  | .freq x => tableGet s.freq x
  | .codeLen x => (tableGet s.codeLen x).setWidth 32
  | .codeBits x k => codeWord (tableGet s.codeBits x) k
  | .node n w => nodeWord (nodeAt s.nodes n) w
  | .inMem a => s.inWord a
  | .outMem a => s.outWord a

/-- The words whose reads are draws while `BUSY = 1` (R58). -/
def Target.drawnWhileBusy : Target → Bool
  | .cmd | .status | .inLen | .irqEn | .capIn | .capOut => false
  | .outLen | .totalBits | .pad | .nsym | .root | .nnodes | .errInfo => true
  | .freq _ | .codeLen _ | .codeBits _ _ | .node _ _ | .inMem _ | .outMem _ => true

/-- The words whose writes are dropped while `BUSY = 1` (R214). -/
def Target.guarded : Target → Bool
  | .cmd | .inLen | .freq _ | .inMem _ | .outMem _ => true
  | .status | .irqEn => false
  | .outLen | .totalBits | .pad | .nsym | .root | .nnodes | .errInfo | .capIn | .capOut => false
  | .codeLen _ | .codeBits _ _ | .node _ _ => false

/-- The words of read-only registers and windows: a write is ignored (R64). -/
def Target.readOnly : Target → Bool
  | .outLen | .totalBits | .pad | .nsym | .root | .nnodes | .errInfo | .capIn | .capOut => true
  | .codeLen _ | .codeBits _ _ | .node _ _ => true
  | .cmd | .status | .inLen | .irqEn => false
  | .freq _ | .inMem _ | .outMem _ => false

/-- A read that gets `OKAY`: its word and the state after it, which differs only in the draw a busy read takes (R58, R67). -/
def State.readTarget (t : Target) (s : State) : Word × State :=
  if s.busy && t.drawnWhileBusy then (Config.busyRead s.draws, s.tookDraw) else (s.targetWord t, s)

/-- A write of `d` that gets `OKAY` while it is not dropped. -/
def State.writeTarget (t : Target) (d : Word) (s : State) : State :=
  match t with
  | .cmd => s.accept d
  | .status => s.ackStatus d
  | .inLen => s.setInLen d
  | .irqEn => s.setIrqEn d
  | .freq x => s.setFreq x d
  | .inMem a => s.storeIn a (wordBytes d)
  | .outMem a => s.storeOut a (wordBytes d)
  | .outLen | .totalBits | .pad | .nsym | .root | .nnodes | .errInfo | .capIn | .capOut => s
  | .codeLen _ | .codeBits _ _ | .node _ _ => s

/-- `BusRead(addr)` (R60). -/
def busRead (addr : Word) (s : State) : Option (Word × State) :=
  match decodeAddr s.capIn s.capOut addr with
  | none => none
  | some t => some (s.readTarget t)

/-- `BusWrite(addr, d)` (R60): a guarded write that meets a busy HCB is dropped (R214). -/
def busWrite (addr d : Word) (s : State) : Option State :=
  match decodeAddr s.capIn s.capOut addr with
  | none => none
  | some t => some (if s.busy && t.guarded then s.dropWrite else s.writeTarget t d)

end Sys2Proof.Machine
end

