-- ==== Sys2Proof/Machine/Program.lean ====
section
/-! DEFINITION. Host program notation (R87 to R94): the pseudo-instructions, as host operations, and a program's encoding. -/

namespace Sys2Proof.Machine

/-- Offset of `CMD` (R23). -/
def offCmd : Word := 0x000#32

/-- Offset of `STATUS` (R23). -/
def offStatus : Word := 0x004#32

/-- Offset of `IN_LEN` (R23). -/
def offInLen : Word := 0x008#32

/-- Offset of `FREQ[s]` (R37). -/
def offFreq (s : Nat) : Word := BitVec.ofNat 32 (0x400 + 4 * s)

/-- Offset of the word over `IN_MEM` bytes `4j .. 4j+3` (R61). -/
def offInMem (j : Nat) : Word := BitVec.ofNat 32 (Config.inBase + 4 * j)

/-- `cmd NAME` (R88). -/
def cmdOp (i : Instr) : HostOp := .wr offCmd (encodeWord i)

/-- The word writes of `load_in` from word `j` on; bytes past the end are given as 0 (R90). -/
def loadWords : Nat → List Byte → List HostOp
  | _, [] => []
  | j, b0 :: b1 :: b2 :: b3 :: bs => .wr (offInMem j) (bytesWord b0 b1 b2 b3) :: loadWords (j + 1) bs
  | j, [b0, b1, b2] => [.wr (offInMem j) (bytesWord b0 b1 b2 0#8)]
  | j, [b0, b1] => [.wr (offInMem j) (bytesWord b0 b1 0#8 0#8)]
  | j, [b0] => [.wr (offInMem j) (bytesWord b0 0#8 0#8 0#8)]

/-- `load_in b0 b1 ... b(L-1)` (R90). -/
def loadIn (bytes : List Byte) : List HostOp := loadWords 0 bytes ++ [.wr offInLen (BitVec.ofNat 32 bytes.length)]

/-- The requirement of `load_in` (R90): `L <= IN_MEM_BYTES`. -/
def loadInOk (capIn : Nat) (bytes : List Byte) : Bool := decide (bytes.length ≤ capIn)

/-- `COMPRESS` (R91). That each of its `wait`s ends with `DONE = 1` is `State.compressed` of Safety.lean (log 17). -/
def compressOps : List HostOp :=
  [cmdOp .freqCount, .wait, cmdOp .buildTree, .wait, cmdOp .genCodes, .wait, cmdOp .encode, .wait]

/-- `DECOMPRESS` (R92). -/
def decompressOps : List HostOp := [cmdOp .decode, .wait]

/-- `wr FREQ[s], f[s]` for every counter of `f`, from symbol `s` on (R93). -/
def installFreqOps : Nat → List Word → List HostOp
  | _, [] => []
  | s, f :: fs => .wr (offFreq s) f :: installFreqOps (s + 1) fs

/-- `DECOMPRESS_FROM_FREQ f[0..255]` (R93). -/
def decompressFromFreqOps (f : Vector Word 256) : List HostOp :=
  installFreqOps 0 f.toList ++ [cmdOp .buildTree, .wait, cmdOp .decode, .wait]

/-- One transaction of a program's encoding (R94). -/
inductive Txn where
  /-- `(W, offset, data)`. -/
  | write (addr data : Word)
  /-- `(R, offset, -)`. -/
  | read (addr : Word)
  deriving DecidableEq, Repr

/-- The encoding of one operation (R94); a `wait` is `polls + 1` reads of `STATUS`. The reset input is no transaction. -/
def HostOp.txns (polls : Nat) : HostOp → List Txn
  | .wr a d => [.write a d]
  | .rd a => [.read a]
  | .wait => List.replicate (polls + 1) (.read offStatus)
  | .rst => []

/-- The number of `wait`s of a program. -/
def waitCount : List HostOp → Nat
  | [] => 0
  | .wait :: ops => waitCount ops + 1
  | .wr _ _ :: ops => waitCount ops
  | .rd _ :: ops => waitCount ops
  | .rst :: ops => waitCount ops

/-- The transactions of a program, in order (R94). `polls` gives each `wait` in turn its own number of reads that come before
its last one; a `wait` past the end of `polls` reads once. -/
def programTxns : List Nat → List HostOp → List Txn
  | _, [] => []
  | polls, .wait :: ops => HostOp.txns (polls.headD 0) .wait ++ programTxns polls.tail ops
  | polls, .wr a d :: ops => HostOp.txns 0 (.wr a d) ++ programTxns polls ops
  | polls, .rd a :: ops => HostOp.txns 0 (.rd a) ++ programTxns polls ops
  | polls, .rst :: ops => HostOp.txns 0 .rst ++ programTxns polls ops

/-- `txns` is an encoding of the host program `ops` (R94): its transactions in order, with some free number of reads for each
`wait`. A host program has no reset input among its statements (R87). -/
def IsEncoding (ops : List HostOp) (txns : List Txn) : Prop :=
  HostOp.rst ∉ ops ∧ ∃ polls : List Nat, polls.length = waitCount ops ∧ txns = programTxns polls ops

end Sys2Proof.Machine
end

