-- ==== Sys2Proof/Machine/Agents.lean ====
section
/-! DEFINITION. The two agents (R19) and who moves next (R218): the Core's initialisation and completion steps (R97, R206)
and the Host's transactions, `wait` polls and reset input (R60, R89, R205). -/

namespace Sys2Proof.Machine

/-- Who moves: the agent named first in `turns`; when no turn is named, the Core if it has an enabled step, else the Host
(R218, R219, log 2). -/
def State.nextAgent (s : State) : Agent :=
  match s.turns with
  | a :: _ => a
  | [] => if s.busy then .core else .host

/-- The Core's step (R97, R206). With `SEQ = IDLE` it has none, and the state stays as it is (log 3). -/
def coreStep (s : State) : Host.Outcome State Fault Refusal :=
  match s.seq with
  | .idle => .next s
  | .init => .next s.initialise
  | .busy w =>
    match decodeWord w with
    | .ok i => exec i s
    | .error _ => .next (s.failIllegal w)

/-- One host operation that is a `BusRead`, with what follows its word and the state after it. An `ERROR` response faults the
run (R65). -/
def hostRead (addr : Word) (s : State) (k : Word → State → Host.Outcome State Fault Refusal) :
    Host.Outcome State Fault Refusal :=
  match busRead addr s with
  | none => .fault (.busError addr)
  | some (v, t) => k v (t.logRead addr v)

/-- One poll of a `wait` (R89) that read `v`: while `BUSY = 1` the operation stays first, else it is done. -/
def waitPoll (v : Word) (s : State) : State := if v.getLsbD 0 then s else s.popScript

/-- The outside's step: the first operation of `script`. With no operation left the state stays as it is (log 3). -/
def hostStep (s : State) : Host.Outcome State Fault Refusal :=
  match s.script with
  | [] => .next s
  | .wr addr d :: _ =>
    match busWrite addr d s with
    | none => .fault (.busError addr)
    | some t => .next t.popScript
  | .rd addr :: _ => hostRead addr s fun _ t => .next t.popScript
  | .wait :: _ => hostRead offStatus s fun v t => .next (waitPoll v t)
  | .rst :: _ => .next s.popScript.afterRst

/-- The step of agent `a`. -/
def agentStep (a : Agent) (s : State) : Host.Outcome State Fault Refusal :=
  match a with
  | .core => coreStep s
  | .host => hostStep s

/-- Command word `w` placed where the next step takes it: accepted (R96), with no turn before the Core's (log 11). -/
def State.placeCommand (w : Word) (s : State) : State := { s.accept w with turns := [] }

end Sys2Proof.Machine
end

