-- ==== Sys2Proof/Machine/Step.lean ====
section
/-! DEFINITION. One step of the machine: one Host operation or one Core step, in the one total order of R72. -/

namespace Sys2Proof.Machine

/-- The agent whose turn it is takes one step, and its turn is used up (R72, R218). -/
def step (s : State) : Host.Outcome State Fault Refusal := agentStep s.nextAgent s.takeTurn

/-- `s` with the command word whose bits are `w` accepted (R96), so that the next step is its completion (R97, log 11). -/
def State.withFetchWord (s : State) (nbits w : Nat) : State := s.placeCommand (BitVec.ofNat 32 (w % 2 ^ nbits))

end Sys2Proof.Machine
end

