-- ==== Sys2Proof/Safety.lean ====
section
/-! DEFINITION. What counts as the end of a run (R221) and as a successful COMPRESS (R91), and the invariants that claims use as
premises: the legal parameters (R8), the memories' canonical form, the status flags (R28, R31), the hidden state (R55, R56), and
that the tree and the code table are those of the current FREQ (R30, R31). -/

namespace Sys2Proof.Machine

/-- A final state (R221): every operation of the program has completed and `SEQ = IDLE`. -/
def State.final (s : State) : Prop := s.script = [] ∧ s.seq = .idle

/-- A state that steps lead to from `s`. -/
inductive Reaches (s : State) : State → Prop where
  | refl : Reaches s s
  | step {t u : State} : Reaches s t → step t = .next u → Reaches s u

/-- What host reads have returned from `s` on, newest first; `t` is a state that steps lead to from `s`. -/
def readsSince (s t : State) : List (Word × Word) := t.reads.take (t.reads.length - s.reads.length)

/-- The operations `block` of a program have run from `s` to `t`, and `ops` are still to do. -/
def State.ran (s : State) (block ops : List HostOp) (t : State) : Prop :=
  s.script = block ++ ops ∧ Reaches s t ∧ t.script = ops

/-- A read that ends a `wait` (R89), one of `STATUS` with `BUSY = 0`, had `DONE = 1`. -/
def endsDone (e : Word × Word) : Prop := e.1 = offStatus → e.2.getLsbD 0 = false → e.2.getLsbD 1 = true

/-- A `COMPRESS` has run from `s` to `t` as R91 requires: each of its own `wait`s ended with `DONE = 1`. Reads from before it,
such as those of the boot's `wait` (R209), do not count. Then its EncodedBuffer is `t.outputBytes`. -/
def State.compressed (s : State) (ops : List HostOp) (t : State) : Prop :=
  s.ran compressOps ops t ∧ ∀ e ∈ readsSince s t, endsDone e

/-- The parameters are legal (R8). -/
def State.capsOk (s : State) : Prop := legalMemBytes s.capIn = true ∧ legalMemBytes s.capOut = true

/-- Both memories are canonical and hold no byte beyond their size (R53, R54). -/
def State.memoriesOk (s : State) : Prop :=
  Memory.wf s.inMem ∧ Memory.below s.inMem s.capIn ∧ Memory.wf s.outMem ∧ Memory.below s.outMem s.capOut

/-- `DONE` and `ERR` are never set together (R28), neither is set while `BUSY = 1` (R215), and `CODES_VALID = 1` implies
`TREE_VALID = 1` (R31). -/
def State.flagsOk (s : State) : Prop :=
  ¬(s.done = true ∧ s.err = true) ∧
    (s.seq ≠ .idle → s.done = false ∧ s.err = false) ∧
    (s.codesValid = true → s.treeValid = true)

/-- No hidden state crosses a step: `PQ` is empty (R55) and there is no walk state (R56, R109). -/
def State.hiddenOk (s : State) : Prop := s.pq = [] ∧ s.walk = none

/-- `TREE_VALID = 1` means that `NODE`, `ROOT`, `NNODES`, `NSYM` hold the tree of the current `FREQ` (R25, R30, R132). -/
def State.treeCurrent (s : State) : Prop :=
  s.treeValid = true → treeOf s.freq = .ok ⟨s.nodes, s.nsym, s.root, s.nnodes⟩

/-- `CODES_VALID = 1` means that `CODE_LEN` and `CODE_BITS` hold the codes of the current tree (R25, R31, R142). -/
def State.codesCurrent (s : State) : Prop :=
  s.codesValid = true → codesOf s.nodes s.root = ⟨s.codeLen, s.codeBits⟩

/-- No valid flag is set while a post-reset initialisation is pending (R57, R205). -/
def State.initOk (s : State) : Prop := s.seq = .init → s.treeValid = false ∧ s.codesValid = false

/-- The tree and the code table are those of the current `FREQ`, and no flag says so while they are not (R30, R31, R57). -/
def State.structuresOk (s : State) : Prop :=
  s.initOk ∧ s.treeCurrent ∧ s.codesCurrent ∧ (s.codesValid = true → s.treeValid = true)

/-! ### Words that claims about the bus use -/

/-- The word-aligned addresses that R63 lists. -/
def mappedAddr (capIn capOut a : Nat) : Prop :=
  a % 4 = 0 ∧
    (a ≤ 0x30 ∨ (0x400 ≤ a ∧ a ≤ 0x7FC) ∨ (0x800 ≤ a ∧ a ≤ 0xBFC) ∨ (0x2000 ≤ a ∧ a ≤ 0x3FFC) ∨ (0x4000 ≤ a ∧ a ≤ 0x5FFC) ∨
      (Config.inBase ≤ a ∧ a < Config.inBase + capIn) ∨ (Config.outBase ≤ a ∧ a < Config.outBase + capOut))

/-- The addresses of read-only registers and windows (R64). -/
def readOnlyAddr (a : Nat) : Prop :=
  a % 4 = 0 ∧
    ((0x00C ≤ a ∧ a ≤ 0x020) ∨ (0x028 ≤ a ∧ a ≤ 0x030) ∨ (0x800 ≤ a ∧ a ≤ 0xBFC) ∨ (0x2000 ≤ a ∧ a ≤ 0x3FFC) ∨
      (0x4000 ≤ a ∧ a ≤ 0x5FFC))

/-- The addresses whose writes are dropped while `BUSY = 1` (R214): CMD, IN_LEN, the FREQ window, both memories. -/
def guardedAddr (capIn capOut a : Nat) : Prop :=
  a % 4 = 0 ∧
    (a = 0x000 ∨ a = 0x008 ∨ (0x400 ≤ a ∧ a ≤ 0x7FC) ∨ (Config.inBase ≤ a ∧ a < Config.inBase + capIn) ∨
      (Config.outBase ≤ a ∧ a < Config.outBase + capOut))

/-- The addresses whose reads are draws while `BUSY = 1` (R58). -/
def drawnAddr (capIn capOut a : Nat) : Prop :=
  a % 4 = 0 ∧
    ((0x00C ≤ a ∧ a ≤ 0x020) ∨ a = 0x028 ∨ (0x400 ≤ a ∧ a ≤ 0x7FC) ∨ (0x800 ≤ a ∧ a ≤ 0xBFC) ∨ (0x2000 ≤ a ∧ a ≤ 0x3FFC) ∨
      (0x4000 ≤ a ∧ a ≤ 0x5FFC) ∨ (Config.inBase ≤ a ∧ a < Config.inBase + capIn) ∨
        (Config.outBase ≤ a ∧ a < Config.outBase + capOut))

/-! ### Words that frames use -/

/-- Every byte of both memories reads as before. -/
def sameMemories (s t : State) : Prop := ∀ a, t.inByte a = s.inByte a ∧ t.outByte a = s.outByte a

/-- The registers that no command writes: `IN_LEN`, `IRQ_EN`, `DROP`, `LAST_OP`, `FATAL` (it is set only together with an
unreachable error, R32), the parameters and the outside. -/
def sameHostSide (s t : State) : Prop :=
  t.inLen = s.inLen ∧ t.irqEn = s.irqEn ∧ t.drop = s.drop ∧ t.lastOp = s.lastOp ∧ t.fatal = s.fatal ∧
    t.capIn = s.capIn ∧ t.capOut = s.capOut ∧ t.script = s.script ∧ t.turns = s.turns ∧ t.reads = s.reads

/-- `NODE`, `NSYM`, `ROOT`, `NNODES` are unchanged. -/
def sameTree (s t : State) : Prop := t.nodes = s.nodes ∧ t.nsym = s.nsym ∧ t.root = s.root ∧ t.nnodes = s.nnodes

/-- `CODE_LEN` and `CODE_BITS` are unchanged. -/
def sameCodes (s t : State) : Prop := t.codeLen = s.codeLen ∧ t.codeBits = s.codeBits

/-- `OUT_LEN`, `TOTAL_BITS`, `PAD` are unchanged. -/
def sameResults (s t : State) : Prop := t.outLen = s.outLen ∧ t.totalBits = s.totalBits ∧ t.pad = s.pad

/-- Both valid flags are unchanged. -/
def sameValid (s t : State) : Prop := t.treeValid = s.treeValid ∧ t.codesValid = s.codesValid

/-! ### Words that claims about trees and codes use -/

/-- The sum of `f` over all 256 symbols. -/
def sumOverSymbols (f : Byte → Nat) : Nat := ((List.range 256).map fun x => f (BitVec.ofNat 8 x)).sum

/-- The number of symbols `s` with `FREQ[s] != 0` (R41). -/
def distinctSymbols (freq : Vector Word 256) : Nat := sumOverSymbols fun x => if tableGet freq x = 0#32 then 0 else 1

/-- Slot number `n` of the node memory. -/
def slot (nodes : Vector Node 511) (n : Nat) : Node := nodeAt nodes (BitVec.ofNat 9 n)

/-- Slot `n` is a child of slot `p`, an Internal node. -/
def childSlot (nodes : Vector Node 511) (p n : Nat) : Prop :=
  (slot nodes p).kind = .internal ∧ ((slot nodes p).left.toNat = n ∨ (slot nodes p).right.toNat = n)

/-- The first slot after the leaves, the sentinel leaf of a one-symbol tree among them (R131). -/
def firstInternal (s : State) : Nat := if s.nsym = 1#9 then 2 else s.nsym.toNat

/-- The key of slot `m` is less than the key of slot `n` (R16). -/
def slotKeyLt (nodes : Vector Node 511) (m n : Nat) : Prop :=
  (slot nodes m).freq.toNat < (slot nodes n).freq.toNat ∨ ((slot nodes m).freq.toNat = (slot nodes n).freq.toNat ∧ m < n)

/-- The node that the bits of a path lead to from node `n` (R142): every bit leaves an Internal node by its edge. -/
def follow (nodes : Vector Node 511) : Idx → Bits → Option Idx
  | n, [] => some n
  | n, b :: p => if (nodeAt nodes n).kind = .internal then follow nodes (childOf nodes n b) p else none

/-- `p` is a path from `root` to the real leaf of symbol `x`. -/
def leafPath (nodes : Vector Node 511) (root : Idx) (p : Bits) (x : Byte) : Prop :=
  p ≠ [] ∧ ∃ n, follow nodes root p = some n ∧ (nodeAt nodes n).kind = .leaf ∧ (nodeAt nodes n).sym = x.setWidth 9

end Sys2Proof.Machine
end

