-- ==== Sys2Proof/Certificates/Slice0/Obligations.lean ====
section
/-! DEFINITION. The statements for the provers: what the spec's rules say the HCB does, over every state. A completion is
written as the whole next state, so that it states the result and the frame at once; a free value (a draw) stands for every value. -/

open Sys2Proof Sys2Proof.Machine

/-! ## Encoding -/

/-- R81, R85: the words of the opcode map, and words on both sides of it. -/
def Obligations.SpecWordsDecodeAsTheOpcodeMapSays : Prop :=
  decodeWord 0x00000000#32 = .ok .nop ∧ decodeWord 0x00000001#32 = .ok .freqCount ∧
    decodeWord 0x00000002#32 = .ok .buildTree ∧ decodeWord 0x00000003#32 = .ok .genCodes ∧
      decodeWord 0x00000004#32 = .ok .encode ∧ decodeWord 0x00000005#32 = .ok .decode ∧
        decodeWord 0x00000006#32 = .ok .clear ∧ decodeWord 0x00000007#32 = .error .reservedOpcode ∧
          decodeWord 0x0000000F#32 = .error .reservedOpcode ∧ decodeWord 0x00000010#32 = .error .reservedBitsSet ∧
            decodeWord 0x80000003#32 = .error .reservedBitsSet

/-- R82: every 32-bit word is either exactly one legal command or illegal; decode and encode agree on every command. -/
def Obligations.EveryWordIsOneCommandOrIllegal : Prop :=
  ∀ w : Word,
    (∀ i, decodeWord w = .ok i ↔ w = encodeWord i) ∧
      ((∃ e, decodeWord w = .error e) ↔ (w.extractLsb' 4 28 ≠ 0#28 ∨ 7 ≤ (w.extractLsb' 0 4).toNat))

/-! ## Steps and the life of a command -/

/-- R97: with an accepted word that decodes to a command and the Core's turn, a step is that command's completion; the turn (the
model's, log 2) is used up. -/
def Obligations.StepRunsTheDecodedCommand : Prop :=
  ∀ (s : State) (w : Word) (i : Instr), s.seq = .busy w → decodeWord w = .ok i → s.nextAgent = .core →
    step s = exec i { s with turns := s.turns.tail }

/-- R103: an accepted illegal word completes with IllegalCommand, `ERR_INFO = w` and no other state change. -/
def Obligations.IllegalWordCompletesWithIllegalCommand : Prop :=
  ∀ (s : State) (w : Word) (e : IllegalWord), s.seq = .busy w → decodeWord w = .error e → s.nextAgent = .core →
    step s = .next { s with
      seq := .idle, err := true, errCode := 5#4, errInfo := w, draws := s.draws + 1, turns := s.turns.tail }

/-- R96: acceptance of a command word, or its drop when the HCB is not idle. -/
def Obligations.CommandWriteIsAcceptedOrDropped : Prop :=
  ∀ (s : State) (w : Word),
    busWrite 0x000#32 w s =
      some (if s.seq = .idle then { s with seq := .busy w, done := false, err := false, lastOp := w.extractLsb' 0 4 }
        else { s with drop := true })

/-- R97, R106, R206: the Core's step never faults and leaves `SEQ = IDLE`, with the script, the turns and the log of reads (the
model's fields, logs 2 and 18) unchanged. With `SEQ = IDLE` the spec gives the Core no step: that it answers there is the model's
stutter (log 3, DESIGN CHOICE). -/
def Obligations.CoreStepAlwaysCompletes : Prop :=
  ∀ s : State, ∃ t, coreStep s = .next t ∧ t.seq = .idle ∧ t.script = s.script ∧ t.turns = s.turns ∧ t.reads = s.reads

/-- R108: while `FATAL = 1` every legal command completes with EmptyStructure and changes nothing else. -/
def Obligations.FatalLocksEveryCommand : Prop :=
  ∀ (i : Instr) (s : State), s.fatal = true →
    exec i s = .next { s with
      seq := .idle, err := true, errCode := 1#4, errInfo := 0#32, draws := s.draws + 1 }

/-- R101 check 3: a command whose structure is not valid completes with SequenceError, `ERR_INFO = OP`, and changes nothing else. -/
def Obligations.StaleStructureGivesSequenceError : Prop :=
  ∀ s : State, s.fatal = false →
    (s.treeValid = false →
      exec .genCodes s = .next { s with
        seq := .idle, err := true, errCode := 6#4, errInfo := 3#32, draws := s.draws + 1 } ∧
      exec .decode s = .next { s with
        seq := .idle, err := true, errCode := 6#4, errInfo := 5#32, draws := s.draws + 1 }) ∧
    (s.codesValid = false →
      exec .encode s = .next { s with
        seq := .idle, err := true, errCode := 6#4, errInfo := 4#32, draws := s.draws + 1 })

/-- R101 check 4: an input longer than `IN_MEM` completes with LengthError, `ERR_INFO = IN_LEN`, and changes nothing else. -/
def Obligations.OverlongInputGivesLengthError : Prop :=
  ∀ s : State, s.fatal = false → s.capIn < s.inLen.toNat →
    exec .freqCount s = .next { s with
      seq := .idle, err := true, errCode := 7#4, errInfo := s.inLen, draws := s.draws + 1 } ∧
    (s.codesValid = true → exec .encode s = .next { s with
      seq := .idle, err := true, errCode := 7#4, errInfo := s.inLen, draws := s.draws + 1 }) ∧
    (s.treeValid = true → exec .decode s = .next { s with
      seq := .idle, err := true, errCode := 7#4, errInfo := s.inLen, draws := s.draws + 1 })

/-! ## NOP and CLEAR -/

/-- R104: NOP only completes. -/
def Obligations.NopOnlyCompletes : Prop :=
  ∀ s : State, s.fatal = false →
    exec .nop s = .next { s with
      seq := .idle, done := true, errCode := 0#4, errInfo := 0#32, draws := s.draws + 1 }

/-- R105: CLEAR zeroes the tables, the tree registers, the result registers and the valid flags, and keeps everything else. -/
def Obligations.ClearZeroesTablesAndResults : Prop :=
  ∀ s : State, s.fatal = false →
    exec .clear s = .next { s with
      freq := Vector.replicate 256 0#32
      codeLen := Vector.replicate 256 0#9
      codeBits := Vector.replicate 256 0#256
      nodes := Vector.replicate 511 Node.cleared
      nsym := 0#9, root := 0x1FF#9, nnodes := 0#10
      outLen := 0#32, totalBits := 0#32, pad := 0#3
      treeValid := false, codesValid := false
      seq := .idle, done := true, errCode := 0#4, errInfo := 0#32, draws := s.draws + 1 }

/-! ## FREQ_COUNT -/

/-- R111: FREQ_COUNT replaces the whole table by the counts of the input and clears both valid flags. -/
def Obligations.FreqCountInstallsTheCounts : Prop :=
  ∀ s : State, s.fatal = false → s.inLen.toNat ≤ s.capIn →
    ∃ f : Vector Word 256,
      (∀ x : Byte, tableGet f x = BitVec.ofNat 32 (s.inputBytes.count x)) ∧
        exec .freqCount s = .next { s with
          freq := f, treeValid := false, codesValid := false
          seq := .idle, done := true, errCode := 0#4, errInfo := 0#32, draws := s.draws + 1 }

/-- R112: the counters of a successful FREQ_COUNT sum to `IN_LEN`, and a counter is at least 1 iff its symbol occurs. -/
def Obligations.FreqCountSumsToTheInputLength : Prop :=
  ∀ s : State, s.capsOk → s.fatal = false → s.inLen.toNat ≤ s.capIn →
    ∃ t, exec .freqCount s = .next t ∧
      sumOverSymbols (fun x => (tableGet t.freq x).toNat) = t.inLen.toNat ∧
        ∀ x : Byte, 1 ≤ (tableGet t.freq x).toNat ↔ ∃ a < s.inLen.toNat, s.coreByte a = x

/-! ## BUILD_TREE -/

/-- R127, R124: BUILD_TREE always completes, and it installs the tree of `FREQ`. -/
def Obligations.BuildTreeInstallsTheTreeOfFreq : Prop :=
  ∀ s : State, s.fatal = false →
    ∃ tr, treeOf s.freq = .ok tr ∧
      exec .buildTree s = .next { s with
        nodes := tr.nodes, nsym := tr.nsym, root := tr.root, nnodes := tr.nnodes
        pq := [], treeValid := true, codesValid := false
        seq := .idle, done := true, errCode := 0#4, errInfo := 0#32, draws := s.draws + 1 }

/-- R128: with every counter zero, BUILD_TREE leaves the empty tree. -/
def Obligations.NoSymbolGivesTheEmptyTree : Prop :=
  ∀ s : State, s.fatal = false → (∀ x, tableGet s.freq x = 0#32) →
    exec .buildTree s = .next { s with
      nodes := Vector.replicate 511 Node.cleared, nsym := 0#9, root := 0x1FF#9, nnodes := 0#10
      pq := [], treeValid := true, codesValid := false
      seq := .idle, done := true, errCode := 0#4, errInfo := 0#32, draws := s.draws + 1 }

/-- R129: with one symbol, the dummy leaf is the left child and the real leaf the right child of root index 2. -/
def Obligations.OneSymbolGivesTheSentinelTree : Prop :=
  ∀ (s : State) (x : Byte), s.fatal = false → tableGet s.freq x ≠ 0#32 → (∀ y, y ≠ x → tableGet s.freq y = 0#32) →
    ∃ t, exec .buildTree s = .next t ∧ t.treeValid = true ∧ t.nsym = 1#9 ∧ t.root = 2#9 ∧ t.nnodes = 3#10 ∧
      slot t.nodes 0 = ⟨.leaf, (tableGet s.freq x).setWidth 40, x.setWidth 9, 0x1FF#9, 0x1FF#9⟩ ∧
        slot t.nodes 1 = ⟨.leaf, 0#40, 0x100#9, 0x1FF#9, 0x1FF#9⟩ ∧
          slot t.nodes 2 = ⟨.internal, (tableGet s.freq x).setWidth 40, 0#9, 1#9, 0#9⟩ ∧
            ∀ n, 3 ≤ n → n ≤ 510 → slot t.nodes n = Node.cleared

/-- R41, R42, R43, R131: NSYM, NNODES and ROOT of a valid tree, by its number of distinct symbols. -/
def Obligations.TreeRegistersFollowTheSymbolCount : Prop :=
  ∀ s : State, s.treeCurrent → s.treeValid = true →
    s.nsym.toNat = distinctSymbols s.freq ∧
      (distinctSymbols s.freq = 0 → s.root = 0x1FF#9 ∧ s.nnodes = 0#10) ∧
        (distinctSymbols s.freq = 1 → s.root = 2#9 ∧ s.nnodes = 3#10) ∧
          (2 ≤ distinctSymbols s.freq →
            s.nnodes.toNat = 2 * distinctSymbols s.freq - 1 ∧ s.root.toNat = s.nnodes.toNat - 1)

/-- R49 (a), (b), R126: the leaves of a valid tree, in ascending symbol order, one per non-zero counter. -/
def Obligations.LeavesAreTheCountedSymbolsInOrder : Prop :=
  ∀ s : State, s.treeCurrent → s.treeValid = true →
    (∀ k < s.nsym.toNat, ∃ x : Byte, tableGet s.freq x ≠ 0#32 ∧
      slot s.nodes k = ⟨.leaf, (tableGet s.freq x).setWidth 40, x.setWidth 9, 0x1FF#9, 0x1FF#9⟩) ∧
    (∀ k k', k < k' → k' < s.nsym.toNat → (slot s.nodes k).sym < (slot s.nodes k').sym) ∧
    (∀ x : Byte, tableGet s.freq x ≠ 0#32 → ∃ k < s.nsym.toNat, (slot s.nodes k).sym = x.setWidth 9) ∧
    (s.nsym = 1#9 → slot s.nodes 1 = ⟨.leaf, 0#40, 0x100#9, 0x1FF#9, 0x1FF#9⟩)

/-- R49 (c), (e), (f), R10: the internal nodes of a valid tree sum their children without overflow, the root is one of them, and
the other slots are cleared. -/
def Obligations.InternalNodesSumTheirChildren : Prop :=
  ∀ s : State, s.treeCurrent → s.treeValid = true →
    (∀ n, firstInternal s ≤ n → n < s.nnodes.toNat →
      (slot s.nodes n).kind = .internal ∧ (slot s.nodes n).sym = 0#9 ∧
        (slot s.nodes n).left.toNat < n ∧ (slot s.nodes n).right.toNat < n ∧
          (slot s.nodes n).freq.toNat =
            (slot s.nodes (slot s.nodes n).left.toNat).freq.toNat + (slot s.nodes (slot s.nodes n).right.toNat).freq.toNat) ∧
    (s.root ≠ 0x1FF#9 → (nodeAt s.nodes s.root).kind = .internal) ∧
    (∀ n, s.nnodes.toNat ≤ n → n ≤ 510 → slot s.nodes n = Node.cleared)

/-- R49 (d), R133: every slot but the root is the child of exactly one internal slot, on one side, and the root of none. -/
def Obligations.TreeIsAStrictBinaryHierarchy : Prop :=
  ∀ s : State, s.treeCurrent → s.treeValid = true → s.root ≠ 0x1FF#9 →
    (∀ n < s.nnodes.toNat, n ≠ s.root.toNat →
      ∃ p < s.nnodes.toNat, childSlot s.nodes p n ∧ ∀ q < s.nnodes.toNat, childSlot s.nodes q n → q = p) ∧
    (∀ p < s.nnodes.toNat, (slot s.nodes p).kind = .internal → (slot s.nodes p).left ≠ (slot s.nodes p).right) ∧
    (∀ p < s.nnodes.toNat, ¬ childSlot s.nodes p s.root.toNat)

/-- R122, R130, R16: every merge took the two least keys among the nodes not yet merged, the least as LEFT. -/
def Obligations.MergesTakeTheTwoLeastKeys : Prop :=
  ∀ s : State, s.treeCurrent → s.treeValid = true →
    ∀ n, firstInternal s ≤ n → n < s.nnodes.toNat →
      slotKeyLt s.nodes (slot s.nodes n).left.toNat (slot s.nodes n).right.toNat ∧
        ∀ c < n, c ≠ (slot s.nodes n).left.toNat → c ≠ (slot s.nodes n).right.toNat →
          (∀ q, firstInternal s ≤ q → q < n → ¬ childSlot s.nodes q c) →
            slotKeyLt s.nodes (slot s.nodes n).right.toNat c

/-! ## GEN_CODES -/

/-- R141: GEN_CODES completes on a valid tree: it replaces the whole code table and sets CODES_VALID. -/
def Obligations.GenCodesInstallsTheCodesOfTheTree : Prop :=
  ∀ s : State, s.fatal = false → s.treeValid = true →
    exec .genCodes s = .next { s with
      codeLen := (codesOf s.nodes s.root).len, codeBits := (codesOf s.nodes s.root).bits, codesValid := true
      seq := .idle, done := true, errCode := 0#4, errInfo := 0#32, draws := s.draws + 1 }

/-- R142, R143: a symbol's code is the bit path from the root to its leaf, 0 to the left and 1 to the right, and a symbol
without a leaf has no code. -/
def Obligations.CodesAreThePathsToTheLeaves : Prop :=
  ∀ s : State, s.treeCurrent → s.codesCurrent → s.treeValid = true → s.codesValid = true →
    ∀ (x : Byte) (p : Bits), p ≠ [] → (s.code x = p ↔ leafPath s.nodes s.root p x)

/-- R144 (a), (e): a symbol has a code iff it is counted, and no code is longer than 255 bits. -/
def Obligations.CountedSymbolsHaveShortCodes : Prop :=
  ∀ s : State, s.treeCurrent → s.codesCurrent → s.treeValid = true → s.codesValid = true →
    ∀ x : Byte, (tableGet s.codeLen x ≠ 0#9 ↔ tableGet s.freq x ≠ 0#32) ∧ (tableGet s.codeLen x).toNat ≤ 255

/-- R144 (c), (d): no symbol's code is a prefix of another symbol's code. -/
def Obligations.CodesArePrefixFree : Prop :=
  ∀ s : State, s.treeCurrent → s.codesCurrent → s.treeValid = true → s.codesValid = true →
    ∀ x y : Byte, x ≠ y → tableGet s.codeLen x ≠ 0#9 → tableGet s.codeLen y ≠ 0#9 → ¬ (s.code x <+: s.code y)

/-- R145: the Kraft sum, scaled by 2^255: exactly 1 with two symbols or more, 1/2 with one, 0 with none. -/
def Obligations.KraftSumOfTheCodeTable : Prop :=
  ∀ s : State, s.treeCurrent → s.codesCurrent → s.treeValid = true → s.codesValid = true →
    sumOverSymbols (fun x => if tableGet s.codeLen x = 0#9 then 0 else 2 ^ (255 - (tableGet s.codeLen x).toNat)) =
      if s.nsym = 0#9 then 0 else if s.nsym = 1#9 then 2 ^ 254 else 2 ^ 255

/-- R51: a stored code of at most 256 bits is left-aligned: bit `31 - j` of word `k` is code bit `32k + j + 1`, or 0. So the
CODE_BITS window of an idle HCB with a valid code table shows bit `32k + j + 1` of each symbol's code there, or 0 past its end. -/
def Obligations.StoredCodesAreLeftAligned : Prop :=
  (∀ (p : Bits) (k : BitVec 3) (j : Nat), p.length ≤ 256 → j ≤ 31 →
    (codeWord (leftAligned p) k).getLsbD (31 - j) =
      if 32 * k.toNat + j + 1 ≤ p.length then p.getD (32 * k.toNat + j) false else false) ∧
  ∀ s : State, s.seq = .idle → s.treeCurrent → s.codesCurrent → s.treeValid = true → s.codesValid = true →
    ∀ (x : Byte) (k : BitVec 3), ∃ w : Word,
      busRead (BitVec.ofNat 32 (0x2000 + 32 * x.toNat + 4 * k.toNat)) s = some (w, s) ∧
        ∀ j ≤ 31, w.getLsbD (31 - j) =
          if 32 * k.toNat + j + 1 ≤ (tableGet s.codeLen x).toNat then (s.code x).getD (32 * k.toNat + j) false else false

/-! ## ENCODE -/

/-- R150 to R154, R158: ENCODE completes when every input byte has a code and the buffer fits: the header byte is the padding
count, the payload holds the codes in order and then the padding bits, most significant bit first, and no other byte of OUT_MEM
changes. -/
def Obligations.EncodeWritesThePackedCodes : Prop :=
  ∀ s : State, s.fatal = false → s.codesValid = true → s.inLen.toNat ≤ s.capIn →
    (∀ x ∈ s.inputBytes, tableGet s.codeLen x ≠ 0#9) →
      encodedSize (codeBitCount s.codeLen s.inputBytes) ≤ s.capOut →
        ∃ t, exec .encode s = .next t ∧ t.seq = .idle ∧ t.done = true ∧ t.errCode = 0#4 ∧ t.errInfo = 0#32 ∧
          t.outLen = BitVec.ofNat 32 (encodedSize (codeBitCount s.codeLen s.inputBytes)) ∧
          t.totalBits = BitVec.ofNat 32 (codeBitCount s.codeLen s.inputBytes) ∧
          t.pad = BitVec.ofNat 3 (paddingOf (codeBitCount s.codeLen s.inputBytes)) ∧
          t.outByte 0 = BitVec.ofNat 8 (paddingOf (codeBitCount s.codeLen s.inputBytes)) ∧
          unpackBits ((List.range (encodedSize (codeBitCount s.codeLen s.inputBytes) - 1)).map fun j => t.outByte (1 + j)) =
            s.inputBytes.flatMap s.code ++
              List.replicate (paddingOf (codeBitCount s.codeLen s.inputBytes)) false ∧
          ∀ a, encodedSize (codeBitCount s.codeLen s.inputBytes) ≤ a → t.outByte a = s.outByte a

/-- R150, R155, R99, R100: the lowest uncoded byte gives SymbolNotInTable; with every byte coded, a buffer that does not fit gives
OutputOverflow. Both leave OUT_MEM unspecified, zero the result registers and change nothing else. -/
def Obligations.EncodeReportsUncodedBytesThenOverflow : Prop :=
  ∀ s : State, s.fatal = false → s.codesValid = true → s.inLen.toNat ≤ s.capIn →
    (∀ i < s.inLen.toNat, tableGet s.codeLen (s.coreByte i) = 0#9 →
      (∀ j < i, tableGet s.codeLen (s.coreByte j) ≠ 0#9) →
        exec .encode s = .next { s with
          outLen := 0#32, totalBits := 0#32, pad := 0#3, outMem := [], outEpoch := s.outEpoch + 1
          seq := .idle, err := true, errCode := 9#4, errInfo := BitVec.ofNat 32 i, draws := s.draws + 1 }) ∧
    ((∀ j < s.inLen.toNat, tableGet s.codeLen (s.coreByte j) ≠ 0#9) →
      s.capOut < encodedSize (codeBitCount s.codeLen s.inputBytes) →
        exec .encode s = .next { s with
          outLen := 0#32, totalBits := 0#32, pad := 0#3, outMem := [], outEpoch := s.outEpoch + 1
          seq := .idle, err := true, errCode := 8#4
          errInfo := BitVec.ofNat 32 (encodedSize (codeBitCount s.codeLen s.inputBytes)), draws := s.draws + 1 })

/-- R156: after a successful ENCODE, `8 * (OUT_LEN - 1) - PAD = TOTAL_BITS`, and TOTAL_BITS is the sum over the symbols of
occurrences times code length. -/
def Obligations.EncodedSizeMatchesTheCodeLengths : Prop :=
  ∀ s : State, s.capsOk → s.fatal = false → s.codesValid = true → s.inLen.toNat ≤ s.capIn →
    (∀ x ∈ s.inputBytes, tableGet s.codeLen x ≠ 0#9) →
      encodedSize (codeBitCount s.codeLen s.inputBytes) ≤ s.capOut →
        ∃ t, exec .encode s = .next t ∧
          8 * (t.outLen.toNat - 1) - t.pad.toNat = t.totalBits.toNat ∧
            t.totalBits.toNat = sumOverSymbols fun x => s.inputBytes.count x * (tableGet s.codeLen x).toNat

/-! ## DECODE -/

/-- R170: the header checks of DECODE: an empty buffer gives MalformedHeader, a header above 7 or above the payload's bit count
gives InvalidPadding with `ERR_INFO = p`. -/
def Obligations.DecodeChecksTheHeader : Prop :=
  ∀ s : State, s.fatal = false → s.treeValid = true → s.inLen.toNat ≤ s.capIn →
    (s.inLen = 0#32 →
      exec .decode s = .next { s with
        outLen := 0#32, totalBits := 0#32, pad := 0#3, outMem := [], outEpoch := s.outEpoch + 1
        seq := .idle, err := true, errCode := 2#4, errInfo := 0#32, draws := s.draws + 1 }) ∧
    (s.inLen ≠ 0#32 → (7 < (s.coreByte 0).toNat ∨ 8 * (s.inLen.toNat - 1) < (s.coreByte 0).toNat) →
      exec .decode s = .next { s with
        outLen := 0#32, totalBits := 0#32, pad := 0#3, outMem := [], outEpoch := s.outEpoch + 1
        seq := .idle, err := true, errCode := 4#4, errInfo := (s.coreByte 0).setWidth 32, draws := s.draws + 1 })

/-- R166 to R168, R175, R178: DECODE completes when the trimmed payload is a sequence of paths to real leaves that fit OUT_MEM: it
emits their symbols in order, and no other byte of OUT_MEM changes. -/
def Obligations.DecodeEmitsTheSymbolsOfThePaths : Prop :=
  ∀ (s : State) (p : Byte) (payload : List Byte) (parts : List (Bits × Byte)),
    s.fatal = false → s.treeValid = true → s.inLen.toNat ≤ s.capIn → s.inputBytes = p :: payload →
      p.toNat ≤ 7 → p.toNat ≤ 8 * payload.length →
        (unpackBits payload).take (8 * payload.length - p.toNat) = parts.flatMap Prod.fst →
          (∀ c ∈ parts, leafPath s.nodes s.root c.1 c.2) → parts.length ≤ s.capOut →
            ∃ t, exec .decode s = .next t ∧ t.seq = .idle ∧ t.done = true ∧ t.errCode = 0#4 ∧ t.errInfo = 0#32 ∧
              t.outLen = BitVec.ofNat 32 parts.length ∧
              t.totalBits = BitVec.ofNat 32 (8 * payload.length - p.toNat) ∧ t.pad = p.setWidth 3 ∧
              (∀ i, ∀ h : i < parts.length, t.outByte i = parts[i].2) ∧
              ∀ a, parts.length ≤ a → t.outByte a = s.outByte a

/-- R172 to R174: after paths to real leaves, DECODE gives CorruptStream with the bit cursor when the walk reaches the sentinel,
with `nbits` when the bits run out mid-tree, and with 0 on any bit of the empty tree. -/
def Obligations.DecodeReportsCorruptStreams : Prop :=
  ∀ (s : State) (p : Byte) (payload : List Byte) (parts : List (Bits × Byte)) (q rest : Bits) (n : Idx) (k : Nat),
    s.fatal = false → s.treeValid = true → s.inLen.toNat ≤ s.capIn → s.inputBytes = p :: payload →
      p.toNat ≤ 7 → p.toNat ≤ 8 * payload.length →
        (unpackBits payload).take (8 * payload.length - p.toNat) = parts.flatMap Prod.fst ++ q ++ rest →
          (∀ c ∈ parts, leafPath s.nodes s.root c.1 c.2) → parts.length ≤ s.capOut → q ≠ [] →
            ((s.root ≠ 0x1FF#9 ∧ follow s.nodes s.root q = some n ∧ (nodeAt s.nodes n).kind = .leaf ∧
                (nodeAt s.nodes n).sym = 0x100#9 ∧ k + 1 = (parts.flatMap Prod.fst ++ q).length) ∨
              (s.root ≠ 0x1FF#9 ∧ follow s.nodes s.root q = some n ∧ (nodeAt s.nodes n).kind = .internal ∧ n ≠ s.root ∧
                rest = [] ∧ k = 8 * payload.length - p.toNat) ∨
              (s.root = 0x1FF#9 ∧ k = 0)) →
                exec .decode s = .next { s with
                  outLen := 0#32, totalBits := 0#32, pad := 0#3, outMem := [], outEpoch := s.outEpoch + 1
                  seq := .idle, err := true, errCode := 3#4, errInfo := BitVec.ofNat 32 k, draws := s.draws + 1 }

/-- R171: a path to a real leaf after OUT_MEM is full gives OutputOverflow with the cursor of its last bit, whatever follows. -/
def Obligations.DecodeReportsOutputOverflow : Prop :=
  ∀ (s : State) (p : Byte) (payload : List Byte) (parts : List (Bits × Byte)) (q rest : Bits) (x : Byte) (k : Nat),
    s.fatal = false → s.treeValid = true → s.inLen.toNat ≤ s.capIn → s.inputBytes = p :: payload →
      p.toNat ≤ 7 → p.toNat ≤ 8 * payload.length →
        (unpackBits payload).take (8 * payload.length - p.toNat) = parts.flatMap Prod.fst ++ q ++ rest →
          (∀ c ∈ parts, leafPath s.nodes s.root c.1 c.2) → parts.length = s.capOut →
            leafPath s.nodes s.root q x → k + 1 = (parts.flatMap Prod.fst ++ q).length →
              exec .decode s = .next { s with
                outLen := 0#32, totalBits := 0#32, pad := 0#3, outMem := [], outEpoch := s.outEpoch + 1
                seq := .idle, err := true, errCode := 8#4, errInfo := BitVec.ofNat 32 k, draws := s.draws + 1 }

/-- R176: decoding an EncodedBuffer with the tree it was encoded with gives back the input. `s` is the state that encodes,
`u` any state that decodes with the same tree and holds the EncodedBuffer as its input. -/
def Obligations.DecodingAnEncodedBufferGivesTheInput : Prop :=
  ∀ s : State, s.capsOk → s.structuresOk → s.fatal = false → s.codesValid = true → s.inLen.toNat ≤ s.capIn →
    (∀ x ∈ s.inputBytes, tableGet s.freq x ≠ 0#32) →
      encodedSize (codeBitCount s.codeLen s.inputBytes) ≤ s.capOut →
        ∃ t, exec .encode s = .next t ∧ t.errCode = 0#4 ∧
          ∀ u : State, u.fatal = false → u.treeValid = true → u.nodes = s.nodes → u.root = s.root →
            u.inLen = t.outLen → u.inLen.toNat ≤ u.capIn → (∀ a < u.inLen.toNat, u.coreByte a = t.outByte a) →
              s.inLen.toNat ≤ u.capOut →
                ∃ v, exec .decode u = .next v ∧ v.done = true ∧ v.errCode = 0#4 ∧ v.outLen = s.inLen ∧
                  ∀ a < s.inLen.toNat, v.outByte a = s.coreByte a

/-! ## Frames -/

/-- R104, R105: what NOP and CLEAR leave unchanged, whether they succeed or fail. -/
def Obligations.ControlCommandsFrame : Prop :=
  ∀ s t : State,
    (exec .nop s = .next t → sameMemories s t ∧ sameHostSide s t ∧ sameTree s t ∧ sameCodes s t ∧ sameResults s t ∧
      sameValid s t ∧ t.freq = s.freq ∧ t.pq = s.pq ∧ t.walk = s.walk) ∧
    (exec .clear s = .next t → sameMemories s t ∧ sameHostSide s t ∧ t.pq = s.pq ∧ t.walk = s.walk)

/-- R111, R127, R141, R47, R50: what the three commands that build a structure leave unchanged, whether they succeed or fail.
None of them stores to a memory. -/
def Obligations.StructureCommandsFrame : Prop :=
  ∀ s t : State,
    (exec .freqCount s = .next t → sameMemories s t ∧ sameHostSide s t ∧ sameTree s t ∧ sameCodes s t ∧ sameResults s t ∧
      t.pq = s.pq ∧ t.walk = s.walk) ∧
    (exec .buildTree s = .next t → sameMemories s t ∧ sameHostSide s t ∧ sameCodes s t ∧ sameResults s t ∧
      t.freq = s.freq ∧ t.walk = s.walk) ∧
    (exec .genCodes s = .next t → sameMemories s t ∧ sameHostSide s t ∧ sameTree s t ∧ sameResults s t ∧
      t.freq = s.freq ∧ t.treeValid = s.treeValid ∧ t.pq = s.pq ∧ t.walk = s.walk)

/-- R99, R100, R157, R158, R178: what ENCODE and DECODE leave unchanged. On success the stored bytes are OUT_MEM[0 .. N-1]; after a
check error every byte and result register is as before; after a data error OUT_MEM is unspecified. -/
def Obligations.CodecCommandsFrame : Prop :=
  ∀ (i : Instr) (s t : State), (i = .encode ∨ i = .decode) → exec i s = .next t →
    (∀ a, t.inByte a = s.inByte a) ∧ sameHostSide s t ∧ sameTree s t ∧ sameCodes s t ∧ sameValid s t ∧
      t.freq = s.freq ∧ t.pq = s.pq ∧
      (t.errCode = 1#4 ∨ t.errCode = 6#4 ∨ t.errCode = 7#4 → sameMemories s t ∧ sameResults s t) ∧
      (i = .encode → t.errCode = 0#4 →
        ∀ a, encodedSize (codeBitCount s.codeLen s.inputBytes) ≤ a → t.outByte a = s.outByte a) ∧
      (i = .decode → t.errCode = 0#4 → ∀ p payload out, s.inputBytes = p :: payload →
        decodeBits s.nodes s.root s.capOut (trimmedBits payload p.toNat) = .ok out →
          ∀ a, out.length ≤ a → t.outByte a = s.outByte a)

/-! ## Invariants that every step keeps -/

/-- R28, R31, R215: every step keeps the status flags' invariant. -/
def Obligations.StepKeepsTheStatusFlags : Prop :=
  ∀ s t : State, s.flagsOk → step s = .next t → t.flagsOk

/-- R53, R54, R70: every step keeps both memories canonical and inside their sizes. -/
def Obligations.StepKeepsTheMemoriesCanonical : Prop :=
  ∀ s t : State, s.capsOk → s.memoriesOk → step s = .next t → t.capsOk ∧ t.memoriesOk

/-- R55, R56, R109: no step leaves hidden state behind. -/
def Obligations.StepLeavesNoHiddenState : Prop :=
  ∀ s t : State, s.hiddenOk → step s = .next t → t.hiddenOk

/-- R30, R31, R132: every step keeps the tree and the code table those of the current FREQ while their valid flags say so. -/
def Obligations.StepKeepsTreeAndCodesCurrent : Prop :=
  ∀ s t : State, s.structuresOk → step s = .next t → t.structuresOk

/-- R57: the state right after `rst` meets every invariant. -/
def Obligations.ResetMeetsTheInvariants : Prop :=
  State.reset.capsOk ∧ State.reset.memoriesOk ∧ State.reset.flagsOk ∧ State.reset.hiddenOk ∧ State.reset.structuresOk

/-! ## Reset and initialisation -/

/-- R57, R205: the values the spec gives right after `rst`. -/
def Obligations.ResetValuesAreTheSpecs : Prop :=
  State.reset.seq = .init ∧ State.reset.statusWord = 0x00000001#32 ∧ State.reset.inLen = 0#32 ∧ State.reset.outLen = 0#32 ∧
    State.reset.totalBits = 0#32 ∧ State.reset.pad = 0#3 ∧ State.reset.nsym = 0#9 ∧ State.reset.root = 0x1FF#9 ∧
      State.reset.nnodes = 0#10 ∧ State.reset.errInfo = 0#32 ∧ State.reset.irqEn = 0#2 ∧ State.reset.pq = [] ∧
        State.reset.irq = false

/-- R206: the initialisation step zeroes the tables, leaves `SEQ = IDLE` and changes nothing else. -/
def Obligations.InitialisationStepClearsTheTables : Prop :=
  ∀ s : State, s.seq = .init → s.nextAgent = .core →
    step s = .next { s with
      freq := Vector.replicate 256 0#32
      codeLen := Vector.replicate 256 0#9
      codeBits := Vector.replicate 256 0#256
      nodes := Vector.replicate 511 Node.cleared
      seq := .idle, turns := s.turns.tail }

/-- R205, R32: the reset input abandons any command and gives every register its reset value, in every state; that the parameters
and the script stay is the model's choice (log 10). -/
def Obligations.ResetInputRestoresEveryRegister : Prop :=
  ∀ (s : State) (ops : List HostOp), s.script = .rst :: ops →
    ∃ t, hostStep s = .next t ∧ t.seq = .init ∧ t.statusWord = 0x00000001#32 ∧ t.inLen = 0#32 ∧ t.outLen = 0#32 ∧
      t.totalBits = 0#32 ∧ t.pad = 0#3 ∧ t.nsym = 0#9 ∧ t.root = 0x1FF#9 ∧ t.nnodes = 0#10 ∧ t.errInfo = 0#32 ∧
        t.irqEn = 0#2 ∧ t.irq = false ∧ t.capIn = s.capIn ∧ t.capOut = s.capOut ∧ t.script = ops

/-! ## Status, interrupt and the bus -/

/-- R35: a host write to STATUS clears DONE, ERR and DROP where bit 1, 2, 3 is 1, in every state, and changes nothing else. -/
def Obligations.StatusWriteClearsTheNamedFlags : Prop :=
  ∀ (s : State) (v : Word),
    busWrite 0x004#32 v s = some { s with
      done := if v.getLsbD 1 = true then false else s.done
      err := if v.getLsbD 2 = true then false else s.err
      drop := if v.getLsbD 3 = true then false else s.drop }

/-- R25, R26: the fields of the STATUS word, which a read returns in every state. -/
def Obligations.StatusWordHoldsTheFields : Prop :=
  ∀ s : State, ∃ v : Word, busRead 0x004#32 s = some (v, s) ∧
    (v.getLsbD 0 = true ↔ s.seq ≠ .idle) ∧ v.getLsbD 1 = s.done ∧ v.getLsbD 2 = s.err ∧ v.getLsbD 3 = s.drop ∧
      v.getLsbD 4 = false ∧ v.getLsbD 5 = s.treeValid ∧ v.getLsbD 6 = s.codesValid ∧ v.getLsbD 7 = s.fatal ∧
        v.extractLsb' 8 4 = s.errCode ∧ v.extractLsb' 12 4 = s.lastOp ∧ v.extractLsb' 16 16 = 0#16

/-- R192, R193: `irq` is the level of the enabled sources, and an accepted command drops it. -/
def Obligations.IrqIsTheEnabledLevel : Prop :=
  ∀ s : State,
    (s.irq = true ↔ (s.done = true ∧ s.irqEn.getLsbD 0 = true) ∨ (s.err = true ∧ s.irqEn.getLsbD 1 = true)) ∧
      ∀ w t, s.seq = .idle → busWrite 0x000#32 w s = some t → t.irq = false

/-- R62, R63: a transaction gets OKAY iff its address is word-aligned and in a listed range. -/
def Obligations.OnlyMappedAddressesGetOkay : Prop :=
  ∀ (s : State) (addr d : Word),
    ((∃ r, busRead addr s = some r) ↔ mappedAddr s.capIn s.capOut addr.toNat) ∧
      ((∃ t, busWrite addr d s = some t) ↔ mappedAddr s.capIn s.capOut addr.toNat)

/-- R65: an ERROR response faults the run. -/
def Obligations.ErrorResponseFaultsTheRun : Prop :=
  ∀ (s : State) (addr d : Word) (ops : List HostOp), ¬ mappedAddr s.capIn s.capOut addr.toNat →
    (s.script = .rd addr :: ops → hostStep s = .fault (.busError addr)) ∧
      (s.script = .wr addr d :: ops → hostStep s = .fault (.busError addr))

/-- R64: a write to a read-only register or window gets OKAY and changes no state. -/
def Obligations.ReadOnlyWritesAreIgnored : Prop :=
  ∀ (s : State) (addr d : Word), readOnlyAddr addr.toNat → busWrite addr d s = some s

/-- R214: while `SEQ != IDLE` a guarded write changes no state except DROP. -/
def Obligations.GuardedWritesAreDroppedWhileBusy : Prop :=
  ∀ (s : State) (addr d : Word), s.seq ≠ .idle → guardedAddr s.capIn s.capOut addr.toNat →
    busWrite addr d s = some { s with drop := true }

/-- R58, R67: while busy a read of a result, a window or a memory is a draw, and the next draw is another; every other OKAY
read, and every OKAY read of an idle HCB, changes no state. R23, R24, R36 to R46, R50, R51: CMD, IN_LEN, IRQ_EN, CAP_IN and CAP_OUT
read their values in every state, the other registers, FREQ and the code windows in every idle state. (STATUS is
StatusWordHoldsTheFields, the NODE window NodeWindowShowsTheSlots, the memories MemoryWordsAreLittleEndian.) -/
def Obligations.BusyReadsAreDraws : Prop :=
  (∀ (s : State) (addr : Word), mappedAddr s.capIn s.capOut addr.toNat →
    (s.seq ≠ .idle ∧ drawnAddr s.capIn s.capOut addr.toNat →
      busRead addr s = some (Config.busyRead s.draws, { s with draws := s.draws + 1 })) ∧
    (¬(s.seq ≠ .idle ∧ drawnAddr s.capIn s.capOut addr.toNat) → ∃ v, busRead addr s = some (v, s))) ∧
  (∀ s : State,
    busRead 0x000#32 s = some (0#32, s) ∧ busRead 0x008#32 s = some (s.inLen, s) ∧
      busRead 0x024#32 s = some (0#30 ++ s.irqEn, s) ∧ busRead 0x02C#32 s = some (BitVec.ofNat 32 s.capIn, s) ∧
        busRead 0x030#32 s = some (BitVec.ofNat 32 s.capOut, s)) ∧
  ∀ s : State, s.seq = .idle →
    busRead 0x00C#32 s = some (s.outLen, s) ∧ busRead 0x010#32 s = some (s.totalBits, s) ∧
      busRead 0x014#32 s = some (0#29 ++ s.pad, s) ∧ busRead 0x018#32 s = some (0#23 ++ s.nsym, s) ∧
        busRead 0x01C#32 s = some (0#23 ++ s.root, s) ∧ busRead 0x020#32 s = some (0#22 ++ s.nnodes, s) ∧
          busRead 0x028#32 s = some (s.errInfo, s) ∧
    ∀ x : Byte,
      busRead (BitVec.ofNat 32 (0x400 + 4 * x.toNat)) s = some (tableGet s.freq x, s) ∧
        busRead (BitVec.ofNat 32 (0x800 + 4 * x.toNat)) s = some (0#23 ++ tableGet s.codeLen x, s) ∧
          ∀ k : BitVec 3, ∃ w : Word,
            busRead (BitVec.ofNat 32 (0x2000 + 32 * x.toNat + 4 * k.toNat)) s = some (w, s) ∧
              ∀ j ≤ 31, w.getLsbD (31 - j) = (tableGet s.codeBits x).getMsbD (32 * k.toNat + j)

/-- R36, R37, R44, R214: an IRQ_EN write takes effect in every state, busy or not, and is never dropped; an idle HCB takes writes
to IN_LEN and FREQ, and a FREQ write clears both valid flags. -/
def Obligations.IdleHostWritesTakeEffect : Prop :=
  ∀ (s : State) (v : Word),
    busWrite 0x024#32 v s = some { s with irqEn := v.extractLsb' 0 2 } ∧
    (s.seq = .idle →
      busWrite 0x008#32 v s = some { s with inLen := v } ∧
        ∀ x : Byte, ∃ t, busWrite (BitVec.ofNat 32 (0x400 + 4 * x.toNat)) v s = some t ∧
          t.treeValid = false ∧ t.codesValid = false ∧ tableGet t.freq x = v ∧
            (∀ y, y ≠ x → tableGet t.freq y = tableGet s.freq y) ∧
              t = { s with freq := t.freq, treeValid := false, codesValid := false } ∧
                busRead (BitVec.ofNat 32 (0x400 + 4 * x.toNat)) t = some (v, t))

/-- R61: words over IN_MEM and OUT_MEM are little-endian, read and written while idle. -/
def Obligations.MemoryWordsAreLittleEndian : Prop :=
  ∀ (s : State) (j : Nat) (d : Word), s.capsOk → s.seq = .idle →
    (4 * j < s.capIn →
      busRead (BitVec.ofNat 32 (0x100000 + 4 * j)) s =
        some (s.inByte (4 * j + 3) ++ s.inByte (4 * j + 2) ++ s.inByte (4 * j + 1) ++ s.inByte (4 * j), s) ∧
      ∃ t, busWrite (BitVec.ofNat 32 (0x100000 + 4 * j)) d s = some t ∧ t = { s with inMem := t.inMem } ∧
        (∀ m < 4, t.inByte (4 * j + m) = d.extractLsb' (8 * m) 8) ∧
          ∀ a, (a < 4 * j ∨ 4 * j + 4 ≤ a) → t.inByte a = s.inByte a) ∧
    (4 * j < s.capOut →
      busRead (BitVec.ofNat 32 (0x200000 + 4 * j)) s =
        some (s.outByte (4 * j + 3) ++ s.outByte (4 * j + 2) ++ s.outByte (4 * j + 1) ++ s.outByte (4 * j), s) ∧
      ∃ t, busWrite (BitVec.ofNat 32 (0x200000 + 4 * j)) d s = some t ∧ t = { s with outMem := t.outMem } ∧
        (∀ m < 4, t.outByte (4 * j + m) = d.extractLsb' (8 * m) 8) ∧
          ∀ a, (a < 4 * j ∨ 4 * j + 4 ≤ a) → t.outByte a = s.outByte a)

/-- R48: the four words of a node slot in the NODE window; index 511 reads 0. -/
def Obligations.NodeWindowShowsTheSlots : Prop :=
  ∀ (s : State) (n : Nat), s.seq = .idle → n ≤ 511 →
    ∃ w0 w1 w2 w3 : Word,
      busRead (BitVec.ofNat 32 (0x4000 + 16 * n)) s = some (w0, s) ∧
      busRead (BitVec.ofNat 32 (0x4000 + 16 * n + 4)) s = some (w1, s) ∧
      busRead (BitVec.ofNat 32 (0x4000 + 16 * n + 8)) s = some (w2, s) ∧
      busRead (BitVec.ofNat 32 (0x4000 + 16 * n + 12)) s = some (w3, s) ∧
      w0 = (slot s.nodes n).freq.extractLsb' 0 32 ∧
      w1.extractLsb' 0 8 = (slot s.nodes n).freq.extractLsb' 32 8 ∧ w1.extractLsb' 8 24 = 0#24 ∧
      (w2.getLsbD 31 = true ↔ (slot s.nodes n).kind = .internal) ∧ w2.extractLsb' 0 9 = (slot s.nodes n).sym ∧
        w2.extractLsb' 9 22 = 0#22 ∧
      w3.extractLsb' 0 9 = (slot s.nodes n).left ∧ w3.extractLsb' 16 9 = (slot s.nodes n).right ∧
        w3.extractLsb' 9 7 = 0#7 ∧ w3.extractLsb' 25 7 = 0#7 ∧
      (n = 511 → w0 = 0#32 ∧ w1 = 0#32 ∧ w2 = 0#32 ∧ w3 = 0#32)

/-- R73, R214: while a command is pending, no host operation but the reset input changes what the command reads or writes. -/
def Obligations.PendingCommandKeepsItsInputs : Prop :=
  ∀ s t : State, s.seq ≠ .idle → (∀ ops, s.script ≠ .rst :: ops) → hostStep s = .next t →
    t.seq = s.seq ∧ t.lastOp = s.lastOp ∧ t.errCode = s.errCode ∧ t.errInfo = s.errInfo ∧ t.fatal = s.fatal ∧
      t.inLen = s.inLen ∧ t.inMem = s.inMem ∧ t.outMem = s.outMem ∧ t.freq = s.freq ∧ sameTree s t ∧ sameCodes s t ∧
        sameResults s t ∧ sameValid s t ∧ sameMemories s t

/-! ## Runs -/

/-- R89, R219: a `wait` ends after finitely many steps, at most two more than the turns named, and its last read had `BUSY = 0`.
That a finite list of turns comes first and then the Core before the Host is the model's form of fairness (log 2). -/
def Obligations.WaitTerminates : Prop :=
  ∀ (s : State) (ops : List HostOp), s.script = .wait :: ops →
    ∃ n t v, n ≤ s.turns.length + 2 ∧ Host.Core.run Sys2Proof.core n s = .next t ∧ t.script = ops ∧
      t.reads.head? = some (0x004#32, v) ∧ v.getLsbD 0 = false

/-- R90: `load_in` leaves its bytes as the input of the next command. That no turn is named is the model's order (log 2). -/
def Obligations.LoadInPlacesTheInput : Prop :=
  ∀ (s : State) (bytes : List Byte) (ops : List HostOp), s.capsOk → s.seq = .idle → s.turns = [] →
    bytes.length ≤ s.capIn → s.script = loadIn bytes ++ ops →
      ∃ n t, Host.Core.run Sys2Proof.core n s = .next t ∧ t.script = ops ∧ t.seq = .idle ∧
        t.inLen = BitVec.ofNat 32 bytes.length ∧ t.inputBytes = bytes ∧ sameTree s t ∧ sameCodes s t ∧ sameValid s t ∧
          t.freq = s.freq ∧ ∀ a, t.outByte a = s.outByte a
end

