-- ==== Sys2Proof/Laws/Bits.lean ====
section
/-! SUPPORT. Laws of the bit and byte order operations: packing and unpacking a stream (R152, R168), stored codes (R51), host words (R61). -/

namespace Sys2Proof.Machine

@[simp] theorem byteBits_length (b : Byte) : (byteBits b).length = 8 := rfl

@[simp] theorem unpackBits_nil : unpackBits [] = [] := rfl

@[simp] theorem unpackBits_cons (b : Byte) (bs : List Byte) : unpackBits (b :: bs) = byteBits b ++ unpackBits bs := rfl

@[simp] theorem unpackBits_length (bs : List Byte) : (unpackBits bs).length = 8 * bs.length := by
  induction bs with
  | nil => rfl
  | cons b bs ih => rw [unpackBits_cons, List.length_append, ih, byteBits_length, List.length_cons]; omega

/-- One byte packed and unpacked. -/
theorem byteBits_pack (b7 b6 b5 b4 b3 b2 b1 b0 : Bool) :
    byteBits (BitVec.ofNat 8 (bitsValue [b7, b6, b5, b4, b3, b2, b1, b0])) = [b7, b6, b5, b4, b3, b2, b1, b0] := by
  revert b7 b6 b5 b4 b3 b2 b1 b0
  decide

/-- Packing loses no bit of a stream of whole bytes (R152, R168). -/
theorem unpackBits_packBits (bs : Bits) (h : bs.length % 8 = 0) : unpackBits (packBits bs) = bs := by
  induction bs using packBits.induct with
  | case1 b7 b6 b5 b4 b3 b2 b1 b0 bs ih =>
    have h' : bs.length % 8 = 0 := by simp only [List.length_cons] at h; omega
    rw [packBits, unpackBits_cons, byteBits_pack, ih h']
    rfl
  | case2 bs hbs =>
    match bs, hbs, h with
    | [], _, _ => rfl
    | [_], _, h => simp at h
    | [_, _], _, h => simp at h
    | [_, _, _], _, h => simp at h
    | [_, _, _, _], _, h => simp at h
    | [_, _, _, _, _], _, h => simp at h
    | [_, _, _, _, _, _], _, h => simp at h
    | [_, _, _, _, _, _, _], _, h => simp at h
    | b7 :: b6 :: b5 :: b4 :: b3 :: b2 :: b1 :: b0 :: bs, hbs, _ => exact absurd rfl (hbs b7 b6 b5 b4 b3 b2 b1 b0 bs)

/-- How many bytes a packed stream has. -/
theorem packBits_length (bs : Bits) : (packBits bs).length = bs.length / 8 := by
  induction bs using packBits.induct with
  | case1 b7 b6 b5 b4 b3 b2 b1 b0 bs ih => rw [packBits]; simp only [List.length_cons, ih]; omega
  | case2 bs hbs =>
    have hlt : bs.length < 8 := by
      match bs, hbs with
      | [], _ | [_], _ | [_, _], _ | [_, _, _], _ | [_, _, _, _], _ | [_, _, _, _, _], _ | [_, _, _, _, _, _], _
      | [_, _, _, _, _, _, _], _ => simp
      | b7 :: b6 :: b5 :: b4 :: b3 :: b2 :: b1 :: b0 :: bs, hbs => exact absurd rfl (hbs b7 b6 b5 b4 b3 b2 b1 b0 bs)
    have e : packBits bs = [] := by
      unfold packBits
      split
      · exact absurd rfl (hbs _ _ _ _ _ _ _ _ _)
      · rfl
    rw [e, Nat.div_eq_of_lt hlt]
    rfl

theorem bitsValue_lt (p : Bits) : bitsValue p < 2 ^ p.length := by
  induction p with
  | nil => simp [bitsValue]
  | cons b p ih =>
    have hb : b.toNat ≤ 1 := Bool.toNat_le b
    have := Nat.mul_le_mul_right (2 ^ p.length) hb
    simp only [bitsValue, List.length_cons, Nat.pow_succ]
    omega

/-- Bit `i` of a sequence, read from the number it writes. -/
theorem testBit_bitsValue (p : Bits) (i : Nat) (h : i < p.length) :
    (bitsValue p).testBit (p.length - 1 - i) = p[i] := by
  induction p generalizing i with
  | nil => simp at h
  | cons b p ih =>
    have hlt := bitsValue_lt p
    have e : bitsValue (b :: p) = 2 ^ p.length * b.toNat + bitsValue p := by simp [bitsValue, Nat.mul_comm]
    rw [e, Nat.testBit_two_pow_mul_add _ hlt]
    cases i with
    | zero => cases b <;> simp
    | succ i =>
      have hi : i < p.length := by simpa using h
      have e2 : (b :: p).length - 1 - (i + 1) = p.length - 1 - i := by simp only [List.length_cons]; omega
      rw [e2, if_pos (by omega), ih i hi]
      simp

/-- Bit `i` of a left-aligned code, counted from the left (R51). -/
theorem getMsbD_leftAligned (p : Bits) (hp : p.length ≤ 256) (i : Nat) (hi : i < 256) :
    (leftAligned p).getMsbD i = p.getD i false := by
  have key : (bitsValue p * 2 ^ (256 - p.length)).testBit (255 - i) = p.getD i false := by
    rw [Nat.testBit_mul_two_pow]
    by_cases h : i < p.length
    · have hle : 256 - p.length ≤ 255 - i := by omega
      have e : 255 - i - (256 - p.length) = p.length - 1 - i := by omega
      rw [e, testBit_bitsValue p i h]
      simp [hle, List.getD_eq_getElem?_getD, List.getElem?_eq_getElem h]
    · have hle : ¬ 256 - p.length ≤ 255 - i := by omega
      simp [hle, List.getD_eq_getElem?_getD, List.getElem?_eq_none (Nat.le_of_not_lt h)]
  simp [leftAligned, BitVec.getMsbD_eq_getLsbD, BitVec.getLsbD_ofNat, hi, key]
  omega

/-- The first bits of a stored code are the code (R51, R150). -/
theorem storedCode_leftAligned (p : Bits) (hp : p.length ≤ 256) :
    storedCode (BitVec.ofNat 9 p.length) (leftAligned p) = p := by
  have e : (BitVec.ofNat 9 p.length).toNat = p.length := by simp; omega
  apply List.ext_getElem
  · simp [storedCode, e]
  · intro i h1 h2
    simp only [storedCode, List.getElem_map, List.getElem_range]
    rw [getMsbD_leftAligned p hp i (by omega), List.getD_eq_getElem?_getD, List.getElem?_eq_getElem h2]
    rfl

theorem storedCode_length (len : BitVec 9) (bits : CodeStore) : (storedCode len bits).length = len.toNat := by
  simp [storedCode]

/-- Byte `m` of the word over four bytes is byte `m` (R61). -/
theorem wordBytes_bytesWord (b0 b1 b2 b3 : Byte) : wordBytes (bytesWord b0 b1 b2 b3) = [b0, b1, b2, b3] := by
  have h0 : wordByte (bytesWord b0 b1 b2 b3) 0 = b0 := by
    apply BitVec.eq_of_getLsbD_eq
    intro i hi
    simp only [wordByte, bytesWord, BitVec.getLsbD_extractLsb', BitVec.getLsbD_append]
    simp [hi]
  have h1 : wordByte (bytesWord b0 b1 b2 b3) 1 = b1 := by
    apply BitVec.eq_of_getLsbD_eq
    intro i hi
    simp only [wordByte, bytesWord, BitVec.getLsbD_extractLsb', BitVec.getLsbD_append]
    simp [hi]
  have h2 : wordByte (bytesWord b0 b1 b2 b3) 2 = b2 := by
    apply BitVec.eq_of_getLsbD_eq
    intro i hi
    simp only [wordByte, bytesWord, BitVec.getLsbD_extractLsb', BitVec.getLsbD_append]
    have e : ¬ 8 * 2 + i < 8 := by omega
    have e' : ¬ 8 * 2 + i - 8 < 8 := by omega
    have e'' : 8 * 2 + i - 8 - 8 = i := by omega
    simp only [hi, e, e', e'', if_false, if_true, decide_true, Bool.true_and]
  have h3 : wordByte (bytesWord b0 b1 b2 b3) 3 = b3 := by
    apply BitVec.eq_of_getLsbD_eq
    intro i hi
    simp only [wordByte, bytesWord, BitVec.getLsbD_extractLsb', BitVec.getLsbD_append]
    have e : ¬ 8 * 3 + i < 8 := by omega
    have e' : ¬ 8 * 3 + i - 8 < 8 := by omega
    have e'' : ¬ 8 * 3 + i - 8 - 8 < 8 := by omega
    have e3 : 8 * 3 + i - 8 - 8 - 8 = i := by omega
    simp only [hi, e, e', e'', e3, if_false, decide_true, Bool.true_and]
  rw [wordBytes, h0, h1, h2, h3]

/-- The word over the four bytes of a word is the word (R61). -/
theorem bytesWord_wordByte (d : Word) : bytesWord (wordByte d 0) (wordByte d 1) (wordByte d 2) (wordByte d 3) = d := by
  apply BitVec.eq_of_getLsbD_eq
  intro i hi
  simp only [bytesWord, wordByte, BitVec.getLsbD_append, BitVec.getLsbD_extractLsb']
  split
  · simp [*]
  · split
    · have e : 8 * 1 + (i - 8) = i := by omega
      simp [*]
    · split
      · have e : 8 * 2 + (i - 8 - 8) = i := by omega
        simp [*]
      · have e : 8 * 3 + (i - 8 - 8 - 8) = i := by omega
        have e' : i - 8 - 8 - 8 < 8 := by omega
        simp [*]

end Sys2Proof.Machine
end

