-- ==== Sys2Proof/Laws/Codec.lean ====
section
/-! SUPPORT. Laws of the encoder and the decoder: when a byte has no code, sizes and padding, and the walk over a concatenation. -/

namespace Sys2Proof.Machine

/-! ### Encoder -/

theorem firstUncoded_eq_none {codeLen : Vector (BitVec 9) 256} {xs : List Byte} {i : Nat} :
    firstUncoded codeLen xs i = none ↔ ∀ x ∈ xs, tableGet codeLen x ≠ 0#9 := by
  induction xs generalizing i with
  | nil => simp [firstUncoded]
  | cons x xs ih =>
    by_cases h : tableGet codeLen x = 0#9
    · simp [firstUncoded, h]
    · simp [firstUncoded, h, ih]

/-- The index reported is the lowest one whose byte has no code (R155). -/
theorem firstUncoded_eq_some {codeLen : Vector (BitVec 9) 256} {xs : List Byte} {i k : Nat} :
    firstUncoded codeLen xs i = some k ↔
      ∃ j, ∃ h : j < xs.length, k = i + j ∧ tableGet codeLen xs[j] = 0#9 ∧
        ∀ m, ∀ hm : m < j, tableGet codeLen (xs[m]'(by omega)) ≠ 0#9 := by
  induction xs generalizing i with
  | nil => simp [firstUncoded]
  | cons x xs ih =>
    by_cases h : tableGet codeLen x = 0#9
    · simp only [firstUncoded, h, if_true, Option.some.injEq]
      constructor
      · rintro rfl
        exact ⟨0, by simp, rfl, by simpa using h, by intro m hm; omega⟩
      · rintro ⟨j, hj, rfl, _, hm⟩
        cases j with
        | zero => rfl
        | succ j => exact absurd h (by simpa using hm 0 (by omega))
    · simp only [firstUncoded, h, if_false, ih]
      constructor
      · rintro ⟨j, hj, rfl, hz, hm⟩
        refine ⟨j + 1, by simpa using hj, by omega, by simpa using hz, ?_⟩
        intro m hm'
        cases m with
        | zero => simpa using h
        | succ m => simpa using hm m (by omega)
      · rintro ⟨j, hj, rfl, hz, hm⟩
        cases j with
        | zero => exact absurd (by simpa using hz) h
        | succ j =>
          refine ⟨j, by simpa using hj, by omega, by simpa using hz, ?_⟩
          intro m hm'
          simpa using hm (m + 1) (by omega)

theorem paddingOf_lt (t : Nat) : paddingOf t < 8 := Nat.mod_lt _ (by omega)

theorem add_paddingOf_mod (t : Nat) : (t + paddingOf t) % 8 = 0 := by unfold paddingOf; omega

theorem code_length (s : State) (x : Byte) : (s.code x).length = (tableGet s.codeLen x).toNat := storedCode_length _ _

theorem codes_length (s : State) (xs : List Byte) : (xs.flatMap s.code).length = codeBitCount s.codeLen xs := by
  simp [codeBitCount, List.length_flatMap, code_length]

theorem codeStream_length (s : State) (xs : List Byte) (pad : Nat) :
    (codeStream s xs pad).length = codeBitCount s.codeLen xs + pad := by
  rw [codeStream, List.length_append, codes_length, List.length_replicate]

/-- The EncodedBuffer has the size that ENCODE checks (R151). -/
theorem encodedBuffer_length (s : State) (xs : List Byte) :
    (encodedBuffer s xs).length = encodedSize (codeBitCount s.codeLen xs) := by
  simp [encodedBuffer, packBits_length, codeStream_length, encodedSize]
  omega

/-! ### Decoder -/

/-- The walk over a concatenation is the walk over its parts, one after the other. -/
theorem walkBits_append (nodes : Vector Node 511) (root : Idx) (capOut : Nat) (p q : Bits) (w : Walk) :
    walkBits nodes root capOut (p ++ q) w =
      (match walkBits nodes root capOut p w with
        | .error r => .error r
        | .ok (w', out) =>
          match walkBits nodes root capOut q w' with
          | .error r => .error r
          | .ok (w'', out') => .ok (w'', out ++ out')) := by
  induction p generalizing w with
  | nil =>
    simp only [List.nil_append, walkBits]
    cases walkBits nodes root capOut q w with
    | error r => rfl
    | ok r => rfl
  | cons b p ih =>
    simp only [List.cons_append, walkBits]
    cases walkBit nodes root capOut b w with
    | error r => rfl
    | ok r =>
      obtain ⟨w', e⟩ := r
      simp only [ih]
      cases walkBits nodes root capOut p w' with
      | error r => rfl
      | ok r =>
        obtain ⟨w1, out1⟩ := r
        simp only
        cases walkBits nodes root capOut q w1 with
        | error r => rfl
        | ok r => simp [List.append_assoc]

/-- One bit of the walk: everything it can do (R169). -/
theorem walkBit_eq_ok {nodes : Vector Node 511} {root : Idx} {capOut : Nat} {bit : Bool} {w w' : Walk} {e : Option Byte}
    (h : walkBit nodes root capOut bit w = .ok (w', e)) :
    root ≠ Config.nil ∧
      (((nodeAt nodes (childOf nodes w.pos bit)).kind = .internal ∧ e = none ∧
          w' = ⟨childOf nodes w.pos bit, w.k + 1, w.o⟩) ∨
        ((nodeAt nodes (childOf nodes w.pos bit)).kind = .leaf ∧
          (nodeAt nodes (childOf nodes w.pos bit)).sym ≠ Config.sent ∧ w.o ≠ capOut ∧
            e = some ((nodeAt nodes (childOf nodes w.pos bit)).sym.setWidth 8) ∧ w' = ⟨root, w.k + 1, w.o + 1⟩)) := by
  unfold walkBit at h
  split at h
  · simp at h
  · rename_i hroot
    refine ⟨hroot, ?_⟩
    simp only at h
    cases hk : (nodeAt nodes (childOf nodes w.pos bit)).kind with
    | internal =>
      simp only [hk, Except.ok.injEq, Prod.mk.injEq] at h
      exact .inl ⟨rfl, h.2.symm, h.1.symm⟩
    | leaf =>
      simp only [hk] at h
      split at h
      · simp at h
      · rename_i hs
        split at h
        · simp at h
        · rename_i ho
          simp only [Except.ok.injEq, Prod.mk.injEq] at h
          exact .inr ⟨rfl, hs, ho, h.2.symm, h.1.symm⟩

/-- The walk counts what it emits, and never past the output memory (R171). -/
theorem walkBits_count {nodes : Vector Node 511} {root : Idx} {capOut : Nat} {bits : Bits} {w w' : Walk} {out : List Byte}
    (h : walkBits nodes root capOut bits w = .ok (w', out)) (ho : w.o ≤ capOut) :
    w'.o = w.o + out.length ∧ w'.o ≤ capOut ∧ w'.k = w.k + bits.length := by
  induction bits generalizing w out with
  | nil =>
    simp only [walkBits, Except.ok.injEq, Prod.mk.injEq] at h
    obtain ⟨rfl, rfl⟩ := h
    exact ⟨rfl, ho, rfl⟩
  | cons b bits ih =>
    simp only [walkBits] at h
    cases hb : walkBit nodes root capOut b w with
    | error r => simp [hb] at h
    | ok r =>
      obtain ⟨w1, e⟩ := r
      simp only [hb] at h
      cases hr : walkBits nodes root capOut bits w1 with
      | error r => simp [hr] at h
      | ok r =>
        obtain ⟨w2, out2⟩ := r
        simp only [hr, Except.ok.injEq, Prod.mk.injEq] at h
        obtain ⟨rfl, rfl⟩ := h
        rcases (walkBit_eq_ok hb).2 with ⟨_, rfl, rfl⟩ | ⟨_, _, hne, rfl, rfl⟩
        · have := ih hr ho
          simp only [Option.toList_none, List.nil_append, List.length_cons] at this ⊢
          omega
        · have := ih hr (show w.o + 1 ≤ capOut by omega)
          simp only [Option.toList_some, List.length_append, List.length_cons, List.length_nil] at this ⊢
          omega

/-- A decoded buffer fits the output memory (R70, R171). -/
theorem decodeBits_length {nodes : Vector Node 511} {root : Idx} {capOut : Nat} {bits : Bits} {out : List Byte}
    (h : decodeBits nodes root capOut bits = .ok out) : out.length ≤ capOut := by
  unfold decodeBits at h
  cases hw : walkBits nodes root capOut bits ⟨root, 0, 0⟩ with
  | error r => simp [hw] at h
  | ok r =>
    obtain ⟨w, o⟩ := r
    simp only [hw] at h
    split at h
    · simp at h
    · cases h
      have := walkBits_count hw (Nat.zero_le _)
      simp only [Nat.zero_add] at this
      omega

end Sys2Proof.Machine
end

