-- ==== Sys2Proof/Laws/Memory.lean ====
section
/-! SUPPORT. Laws of the byte memories and of the tables: a read after a write, the canonical form, the size. -/

namespace Sys2Proof.Machine

/-! ### One byte -/

theorem memory_get?_set_same (m : Memory) (a : Nat) (v : Byte) : Memory.get? (Memory.set m a v) a = some v := by
  induction m with
  | nil => simp [Memory.set, Memory.get?]
  | cons c m ih =>
    obtain ⟨b, w⟩ := c
    by_cases h1 : a < b
    · simp [Memory.set, Memory.get?, h1]
    · by_cases h2 : a = b
      · simp [Memory.set, Memory.get?, h2]
      · simp [Memory.set, Memory.get?, h1, h2, ih]

theorem memory_get?_set_other (m : Memory) {a a' : Nat} (v : Byte) (h : a' ≠ a) :
    Memory.get? (Memory.set m a v) a' = Memory.get? m a' := by
  induction m with
  | nil => simp [Memory.set, Memory.get?, h]
  | cons c m ih =>
    obtain ⟨b, w⟩ := c
    by_cases h1 : a < b
    · simp [Memory.set, Memory.get?, h1, h]
    · by_cases h2 : a = b
      · subst h2
        simp [Memory.set, Memory.get?, h]
      · simp [Memory.set, Memory.get?, h1, h2, ih]

theorem memory_mem_set {m : Memory} {a : Nat} {v : Byte} {c : Host.Cell} (h : c ∈ Memory.set m a v) :
    c.1 = a ∨ c ∈ m := by
  induction m with
  | nil => simp [Memory.set] at h; simp [h]
  | cons d m ih =>
    obtain ⟨b, w⟩ := d
    by_cases h1 : a < b
    · simp only [Memory.set, h1, if_true, List.mem_cons] at h
      rcases h with rfl | h
      · exact .inl rfl
      · exact .inr (List.mem_cons.2 h)
    · by_cases h2 : a = b
      · subst h2
        simp only [Memory.set, lt_irrefl, if_false, if_true, List.mem_cons] at h
        rcases h with rfl | h
        · exact .inl rfl
        · simp [h]
      · simp only [Memory.set, h1, h2, if_false, List.mem_cons] at h
        rcases h with rfl | h
        · simp
        · rcases ih h with h | h
          · exact .inl h
          · simp [h]

theorem memory_set_wf {m : Memory} (h : Memory.wf m) (a : Nat) (v : Byte) : Memory.wf (Memory.set m a v) := by
  induction m with
  | nil => simp [Memory.set, Memory.wf]
  | cons d m ih =>
    obtain ⟨b, w⟩ := d
    simp only [Memory.wf, List.map_cons, List.pairwise_cons] at h
    obtain ⟨hb, hm⟩ := h
    by_cases h1 : a < b
    · simp only [Memory.set, h1, if_true, Memory.wf, List.map_cons, List.pairwise_cons]
      refine ⟨?_, hb, hm⟩
      intro x hx
      rcases List.mem_cons.1 hx with rfl | hx
      · exact h1
      · exact h1.trans (hb x hx)
    · by_cases h2 : a = b
      · simp only [Memory.set, h2, lt_irrefl, if_false, if_true, Memory.wf, List.map_cons, List.pairwise_cons]
        exact ⟨hb, hm⟩
      · simp only [Memory.set, h1, h2, if_false, Memory.wf, List.map_cons, List.pairwise_cons]
        refine ⟨?_, ih hm⟩
        intro x hx
        obtain ⟨c, hc, rfl⟩ := List.mem_map.1 hx
        rcases memory_mem_set hc with hc | hc
        · omega
        · exact hb _ (List.mem_map.2 ⟨c, hc, rfl⟩)

theorem memory_set_below {m : Memory} {size a : Nat} (h : Memory.below m size) (ha : a < size) (v : Byte) :
    Memory.below (Memory.set m a v) size := by
  intro c hc
  rcases memory_mem_set hc with hc | hc
  · omega
  · exact h c hc

theorem memory_get?_of_below {m : Memory} {size a : Nat} (h : Memory.below m size) (ha : size ≤ a) :
    Memory.get? m a = none := by
  induction m with
  | nil => rfl
  | cons d m ih =>
    obtain ⟨b, w⟩ := d
    have hb := h (b, w) (by simp)
    have hne : a ≠ b := by simp at hb; omega
    simp only [Memory.get?, hne, if_false]
    exact ih fun c hc => h c (by simp [hc])

/-! ### Consecutive bytes -/

/-- Everything a write of consecutive bytes does: byte `i` of the list is at `a + i`, every other address is untouched. -/
theorem memory_get?_writeBytes (m : Memory) (a : Nat) (bs : List Byte) (x : Nat) :
    Memory.get? (Memory.writeBytes m a bs) x =
      if a ≤ x ∧ x < a + bs.length then bs[x - a]? else Memory.get? m x := by
  induction bs generalizing m a with
  | nil => simp [Memory.writeBytes]
  | cons b bs ih =>
    rw [Memory.writeBytes, ih]
    by_cases h : a + 1 ≤ x ∧ x < a + 1 + bs.length
    · have h' : a ≤ x ∧ x < a + (b :: bs).length := by simp; omega
      have e : x - a = (x - (a + 1)) + 1 := by omega
      rw [if_pos h, if_pos h', e, List.getElem?_cons_succ]
    · rw [if_neg h]
      by_cases hx : x = a
      · subst hx
        simp [memory_get?_set_same]
      · have h' : ¬(a ≤ x ∧ x < a + (b :: bs).length) := by simp; omega
        rw [if_neg h', memory_get?_set_other m b hx]

theorem memory_get?_writeBytes_outside (m : Memory) (a : Nat) (bs : List Byte) {x : Nat} (h : x < a ∨ a + bs.length ≤ x) :
    Memory.get? (Memory.writeBytes m a bs) x = Memory.get? m x := by
  rw [memory_get?_writeBytes, if_neg (by omega)]

theorem memory_get?_writeBytes_inside (m : Memory) (a : Nat) (bs : List Byte) {i : Nat} (h : i < bs.length) :
    Memory.get? (Memory.writeBytes m a bs) (a + i) = some bs[i] := by
  rw [memory_get?_writeBytes, if_pos (by omega), Nat.add_sub_cancel_left, List.getElem?_eq_getElem h]

theorem memory_writeBytes_wf {m : Memory} (h : Memory.wf m) (a : Nat) (bs : List Byte) :
    Memory.wf (Memory.writeBytes m a bs) := by
  induction bs generalizing m a with
  | nil => exact h
  | cons b bs ih => exact ih (memory_set_wf h a b) (a + 1)

theorem memory_writeBytes_below {m : Memory} {size a : Nat} (h : Memory.below m size) (bs : List Byte)
    (hb : a + bs.length ≤ size) : Memory.below (Memory.writeBytes m a bs) size := by
  induction bs generalizing m a with
  | nil => exact h
  | cons b bs ih =>
    simp only [List.length_cons] at hb
    exact ih (memory_set_below h (by omega) b) (by omega)

/-- The reset memory is canonical (nothing is listed). -/
theorem memory_nil_wf : Memory.wf [] := List.Pairwise.nil

/-! ### Tables -/

@[simp] theorem tableGet_set_same {α : Type} (t : Vector α 256) (x : Byte) (v : α) : tableGet (tableSet t x v) x = v := by
  simp [tableGet, tableSet]

@[simp] theorem tableGet_set_other {α : Type} (t : Vector α 256) {x y : Byte} (v : α) (h : y ≠ x) :
    tableGet (tableSet t x v) y = tableGet t y := by
  have hne : x.toNat ≠ y.toNat := fun e => h (BitVec.eq_of_toNat_eq e.symm)
  simp [tableGet, tableSet, hne]

@[simp] theorem tableGet_replicate {α : Type} (x : Byte) (v : α) : tableGet (Vector.replicate 256 v) x = v := by
  simp [tableGet]

@[simp] theorem nodeAt_replicate (n : Idx) : nodeAt (Vector.replicate 511 Node.cleared) n = Node.cleared := by
  unfold nodeAt
  split <;> simp

/-- `NIL` is no slot (R48). -/
@[simp] theorem nodeAt_nil (nodes : Vector Node 511) : nodeAt nodes Config.nil = Node.cleared := by
  simp [nodeAt, Config.nil]

/-- Slot `n` of a node memory filled from a list: the list's entry, or a cleared slot. -/
theorem nodeAt_nodeMemory (ns : List Node) (n : Idx) (h : ns.length ≤ 511) :
    nodeAt (nodeMemory ns) n = ns.getD n.toNat Node.cleared := by
  unfold nodeAt nodeMemory
  split
  · simp
  · rw [List.getD_eq_getElem?_getD, List.getElem?_eq_none (by omega)]
    rfl

end Sys2Proof.Machine
end

