-- ==== Sys2Proof/Laws/State.lean ====
section
/-! SUPPORT. One lemma per field per state update, true by rfl, so that no proof unfolds a record update. -/

namespace Sys2Proof.Machine

/-! ### State.ackStatus -/

@[simp] theorem State.ackStatus_seq (v : Word) (s : State) : (s.ackStatus v).seq = s.seq := rfl
@[simp] theorem State.ackStatus_done (v : Word) (s : State) : (s.ackStatus v).done = (s.done && !v.getLsbD 1) := rfl
@[simp] theorem State.ackStatus_err (v : Word) (s : State) : (s.ackStatus v).err = (s.err && !v.getLsbD 2) := rfl
@[simp] theorem State.ackStatus_drop (v : Word) (s : State) : (s.ackStatus v).drop = (s.drop && !v.getLsbD 3) := rfl
@[simp] theorem State.ackStatus_treeValid (v : Word) (s : State) : (s.ackStatus v).treeValid = s.treeValid := rfl
@[simp] theorem State.ackStatus_codesValid (v : Word) (s : State) : (s.ackStatus v).codesValid = s.codesValid := rfl
@[simp] theorem State.ackStatus_fatal (v : Word) (s : State) : (s.ackStatus v).fatal = s.fatal := rfl
@[simp] theorem State.ackStatus_errCode (v : Word) (s : State) : (s.ackStatus v).errCode = s.errCode := rfl
@[simp] theorem State.ackStatus_lastOp (v : Word) (s : State) : (s.ackStatus v).lastOp = s.lastOp := rfl
@[simp] theorem State.ackStatus_inLen (v : Word) (s : State) : (s.ackStatus v).inLen = s.inLen := rfl
@[simp] theorem State.ackStatus_outLen (v : Word) (s : State) : (s.ackStatus v).outLen = s.outLen := rfl
@[simp] theorem State.ackStatus_totalBits (v : Word) (s : State) : (s.ackStatus v).totalBits = s.totalBits := rfl
@[simp] theorem State.ackStatus_pad (v : Word) (s : State) : (s.ackStatus v).pad = s.pad := rfl
@[simp] theorem State.ackStatus_nsym (v : Word) (s : State) : (s.ackStatus v).nsym = s.nsym := rfl
@[simp] theorem State.ackStatus_root (v : Word) (s : State) : (s.ackStatus v).root = s.root := rfl
@[simp] theorem State.ackStatus_nnodes (v : Word) (s : State) : (s.ackStatus v).nnodes = s.nnodes := rfl
@[simp] theorem State.ackStatus_irqEn (v : Word) (s : State) : (s.ackStatus v).irqEn = s.irqEn := rfl
@[simp] theorem State.ackStatus_errInfo (v : Word) (s : State) : (s.ackStatus v).errInfo = s.errInfo := rfl
@[simp] theorem State.ackStatus_capIn (v : Word) (s : State) : (s.ackStatus v).capIn = s.capIn := rfl
@[simp] theorem State.ackStatus_capOut (v : Word) (s : State) : (s.ackStatus v).capOut = s.capOut := rfl
@[simp] theorem State.ackStatus_freq (v : Word) (s : State) : (s.ackStatus v).freq = s.freq := rfl
@[simp] theorem State.ackStatus_codeLen (v : Word) (s : State) : (s.ackStatus v).codeLen = s.codeLen := rfl
@[simp] theorem State.ackStatus_codeBits (v : Word) (s : State) : (s.ackStatus v).codeBits = s.codeBits := rfl
@[simp] theorem State.ackStatus_nodes (v : Word) (s : State) : (s.ackStatus v).nodes = s.nodes := rfl
@[simp] theorem State.ackStatus_inMem (v : Word) (s : State) : (s.ackStatus v).inMem = s.inMem := rfl
@[simp] theorem State.ackStatus_outMem (v : Word) (s : State) : (s.ackStatus v).outMem = s.outMem := rfl
@[simp] theorem State.ackStatus_pq (v : Word) (s : State) : (s.ackStatus v).pq = s.pq := rfl
@[simp] theorem State.ackStatus_walk (v : Word) (s : State) : (s.ackStatus v).walk = s.walk := rfl
@[simp] theorem State.ackStatus_inEpoch (v : Word) (s : State) : (s.ackStatus v).inEpoch = s.inEpoch := rfl
@[simp] theorem State.ackStatus_outEpoch (v : Word) (s : State) : (s.ackStatus v).outEpoch = s.outEpoch := rfl
@[simp] theorem State.ackStatus_draws (v : Word) (s : State) : (s.ackStatus v).draws = s.draws := rfl
@[simp] theorem State.ackStatus_script (v : Word) (s : State) : (s.ackStatus v).script = s.script := rfl
@[simp] theorem State.ackStatus_turns (v : Word) (s : State) : (s.ackStatus v).turns = s.turns := rfl
@[simp] theorem State.ackStatus_reads (v : Word) (s : State) : (s.ackStatus v).reads = s.reads := rfl

/-! ### State.accept -/

@[simp] theorem State.accept_seq (w : Word) (s : State) : (s.accept w).seq = .busy w := rfl
@[simp] theorem State.accept_done (w : Word) (s : State) : (s.accept w).done = false := rfl
@[simp] theorem State.accept_err (w : Word) (s : State) : (s.accept w).err = false := rfl
@[simp] theorem State.accept_drop (w : Word) (s : State) : (s.accept w).drop = s.drop := rfl
@[simp] theorem State.accept_treeValid (w : Word) (s : State) : (s.accept w).treeValid = s.treeValid := rfl
@[simp] theorem State.accept_codesValid (w : Word) (s : State) : (s.accept w).codesValid = s.codesValid := rfl
@[simp] theorem State.accept_fatal (w : Word) (s : State) : (s.accept w).fatal = s.fatal := rfl
@[simp] theorem State.accept_errCode (w : Word) (s : State) : (s.accept w).errCode = s.errCode := rfl
@[simp] theorem State.accept_lastOp (w : Word) (s : State) : (s.accept w).lastOp = opField w := rfl
@[simp] theorem State.accept_inLen (w : Word) (s : State) : (s.accept w).inLen = s.inLen := rfl
@[simp] theorem State.accept_outLen (w : Word) (s : State) : (s.accept w).outLen = s.outLen := rfl
@[simp] theorem State.accept_totalBits (w : Word) (s : State) : (s.accept w).totalBits = s.totalBits := rfl
@[simp] theorem State.accept_pad (w : Word) (s : State) : (s.accept w).pad = s.pad := rfl
@[simp] theorem State.accept_nsym (w : Word) (s : State) : (s.accept w).nsym = s.nsym := rfl
@[simp] theorem State.accept_root (w : Word) (s : State) : (s.accept w).root = s.root := rfl
@[simp] theorem State.accept_nnodes (w : Word) (s : State) : (s.accept w).nnodes = s.nnodes := rfl
@[simp] theorem State.accept_irqEn (w : Word) (s : State) : (s.accept w).irqEn = s.irqEn := rfl
@[simp] theorem State.accept_errInfo (w : Word) (s : State) : (s.accept w).errInfo = s.errInfo := rfl
@[simp] theorem State.accept_capIn (w : Word) (s : State) : (s.accept w).capIn = s.capIn := rfl
@[simp] theorem State.accept_capOut (w : Word) (s : State) : (s.accept w).capOut = s.capOut := rfl
@[simp] theorem State.accept_freq (w : Word) (s : State) : (s.accept w).freq = s.freq := rfl
@[simp] theorem State.accept_codeLen (w : Word) (s : State) : (s.accept w).codeLen = s.codeLen := rfl
@[simp] theorem State.accept_codeBits (w : Word) (s : State) : (s.accept w).codeBits = s.codeBits := rfl
@[simp] theorem State.accept_nodes (w : Word) (s : State) : (s.accept w).nodes = s.nodes := rfl
@[simp] theorem State.accept_inMem (w : Word) (s : State) : (s.accept w).inMem = s.inMem := rfl
@[simp] theorem State.accept_outMem (w : Word) (s : State) : (s.accept w).outMem = s.outMem := rfl
@[simp] theorem State.accept_pq (w : Word) (s : State) : (s.accept w).pq = s.pq := rfl
@[simp] theorem State.accept_walk (w : Word) (s : State) : (s.accept w).walk = s.walk := rfl
@[simp] theorem State.accept_inEpoch (w : Word) (s : State) : (s.accept w).inEpoch = s.inEpoch := rfl
@[simp] theorem State.accept_outEpoch (w : Word) (s : State) : (s.accept w).outEpoch = s.outEpoch := rfl
@[simp] theorem State.accept_draws (w : Word) (s : State) : (s.accept w).draws = s.draws := rfl
@[simp] theorem State.accept_script (w : Word) (s : State) : (s.accept w).script = s.script := rfl
@[simp] theorem State.accept_turns (w : Word) (s : State) : (s.accept w).turns = s.turns := rfl
@[simp] theorem State.accept_reads (w : Word) (s : State) : (s.accept w).reads = s.reads := rfl

/-! ### State.dropWrite -/

@[simp] theorem State.dropWrite_seq (s : State) : (s.dropWrite).seq = s.seq := rfl
@[simp] theorem State.dropWrite_done (s : State) : (s.dropWrite).done = s.done := rfl
@[simp] theorem State.dropWrite_err (s : State) : (s.dropWrite).err = s.err := rfl
@[simp] theorem State.dropWrite_drop (s : State) : (s.dropWrite).drop = true := rfl
@[simp] theorem State.dropWrite_treeValid (s : State) : (s.dropWrite).treeValid = s.treeValid := rfl
@[simp] theorem State.dropWrite_codesValid (s : State) : (s.dropWrite).codesValid = s.codesValid := rfl
@[simp] theorem State.dropWrite_fatal (s : State) : (s.dropWrite).fatal = s.fatal := rfl
@[simp] theorem State.dropWrite_errCode (s : State) : (s.dropWrite).errCode = s.errCode := rfl
@[simp] theorem State.dropWrite_lastOp (s : State) : (s.dropWrite).lastOp = s.lastOp := rfl
@[simp] theorem State.dropWrite_inLen (s : State) : (s.dropWrite).inLen = s.inLen := rfl
@[simp] theorem State.dropWrite_outLen (s : State) : (s.dropWrite).outLen = s.outLen := rfl
@[simp] theorem State.dropWrite_totalBits (s : State) : (s.dropWrite).totalBits = s.totalBits := rfl
@[simp] theorem State.dropWrite_pad (s : State) : (s.dropWrite).pad = s.pad := rfl
@[simp] theorem State.dropWrite_nsym (s : State) : (s.dropWrite).nsym = s.nsym := rfl
@[simp] theorem State.dropWrite_root (s : State) : (s.dropWrite).root = s.root := rfl
@[simp] theorem State.dropWrite_nnodes (s : State) : (s.dropWrite).nnodes = s.nnodes := rfl
@[simp] theorem State.dropWrite_irqEn (s : State) : (s.dropWrite).irqEn = s.irqEn := rfl
@[simp] theorem State.dropWrite_errInfo (s : State) : (s.dropWrite).errInfo = s.errInfo := rfl
@[simp] theorem State.dropWrite_capIn (s : State) : (s.dropWrite).capIn = s.capIn := rfl
@[simp] theorem State.dropWrite_capOut (s : State) : (s.dropWrite).capOut = s.capOut := rfl
@[simp] theorem State.dropWrite_freq (s : State) : (s.dropWrite).freq = s.freq := rfl
@[simp] theorem State.dropWrite_codeLen (s : State) : (s.dropWrite).codeLen = s.codeLen := rfl
@[simp] theorem State.dropWrite_codeBits (s : State) : (s.dropWrite).codeBits = s.codeBits := rfl
@[simp] theorem State.dropWrite_nodes (s : State) : (s.dropWrite).nodes = s.nodes := rfl
@[simp] theorem State.dropWrite_inMem (s : State) : (s.dropWrite).inMem = s.inMem := rfl
@[simp] theorem State.dropWrite_outMem (s : State) : (s.dropWrite).outMem = s.outMem := rfl
@[simp] theorem State.dropWrite_pq (s : State) : (s.dropWrite).pq = s.pq := rfl
@[simp] theorem State.dropWrite_walk (s : State) : (s.dropWrite).walk = s.walk := rfl
@[simp] theorem State.dropWrite_inEpoch (s : State) : (s.dropWrite).inEpoch = s.inEpoch := rfl
@[simp] theorem State.dropWrite_outEpoch (s : State) : (s.dropWrite).outEpoch = s.outEpoch := rfl
@[simp] theorem State.dropWrite_draws (s : State) : (s.dropWrite).draws = s.draws := rfl
@[simp] theorem State.dropWrite_script (s : State) : (s.dropWrite).script = s.script := rfl
@[simp] theorem State.dropWrite_turns (s : State) : (s.dropWrite).turns = s.turns := rfl
@[simp] theorem State.dropWrite_reads (s : State) : (s.dropWrite).reads = s.reads := rfl

/-! ### State.succeed -/

@[simp] theorem State.succeed_seq (s : State) : (s.succeed).seq = .idle := rfl
@[simp] theorem State.succeed_done (s : State) : (s.succeed).done = true := rfl
@[simp] theorem State.succeed_err (s : State) : (s.succeed).err = s.err := rfl
@[simp] theorem State.succeed_drop (s : State) : (s.succeed).drop = s.drop := rfl
@[simp] theorem State.succeed_treeValid (s : State) : (s.succeed).treeValid = s.treeValid := rfl
@[simp] theorem State.succeed_codesValid (s : State) : (s.succeed).codesValid = s.codesValid := rfl
@[simp] theorem State.succeed_fatal (s : State) : (s.succeed).fatal = s.fatal := rfl
@[simp] theorem State.succeed_errCode (s : State) : (s.succeed).errCode = 0#4 := rfl
@[simp] theorem State.succeed_lastOp (s : State) : (s.succeed).lastOp = s.lastOp := rfl
@[simp] theorem State.succeed_inLen (s : State) : (s.succeed).inLen = s.inLen := rfl
@[simp] theorem State.succeed_outLen (s : State) : (s.succeed).outLen = s.outLen := rfl
@[simp] theorem State.succeed_totalBits (s : State) : (s.succeed).totalBits = s.totalBits := rfl
@[simp] theorem State.succeed_pad (s : State) : (s.succeed).pad = s.pad := rfl
@[simp] theorem State.succeed_nsym (s : State) : (s.succeed).nsym = s.nsym := rfl
@[simp] theorem State.succeed_root (s : State) : (s.succeed).root = s.root := rfl
@[simp] theorem State.succeed_nnodes (s : State) : (s.succeed).nnodes = s.nnodes := rfl
@[simp] theorem State.succeed_irqEn (s : State) : (s.succeed).irqEn = s.irqEn := rfl
@[simp] theorem State.succeed_errInfo (s : State) : (s.succeed).errInfo = 0#32 := rfl
@[simp] theorem State.succeed_capIn (s : State) : (s.succeed).capIn = s.capIn := rfl
@[simp] theorem State.succeed_capOut (s : State) : (s.succeed).capOut = s.capOut := rfl
@[simp] theorem State.succeed_freq (s : State) : (s.succeed).freq = s.freq := rfl
@[simp] theorem State.succeed_codeLen (s : State) : (s.succeed).codeLen = s.codeLen := rfl
@[simp] theorem State.succeed_codeBits (s : State) : (s.succeed).codeBits = s.codeBits := rfl
@[simp] theorem State.succeed_nodes (s : State) : (s.succeed).nodes = s.nodes := rfl
@[simp] theorem State.succeed_inMem (s : State) : (s.succeed).inMem = s.inMem := rfl
@[simp] theorem State.succeed_outMem (s : State) : (s.succeed).outMem = s.outMem := rfl
@[simp] theorem State.succeed_pq (s : State) : (s.succeed).pq = s.pq := rfl
@[simp] theorem State.succeed_walk (s : State) : (s.succeed).walk = s.walk := rfl
@[simp] theorem State.succeed_inEpoch (s : State) : (s.succeed).inEpoch = s.inEpoch := rfl
@[simp] theorem State.succeed_outEpoch (s : State) : (s.succeed).outEpoch = s.outEpoch := rfl
@[simp] theorem State.succeed_draws (s : State) : (s.succeed).draws = s.draws + 1 := rfl
@[simp] theorem State.succeed_script (s : State) : (s.succeed).script = s.script := rfl
@[simp] theorem State.succeed_turns (s : State) : (s.succeed).turns = s.turns := rfl
@[simp] theorem State.succeed_reads (s : State) : (s.succeed).reads = s.reads := rfl

/-! ### State.raiseError -/

@[simp] theorem State.raiseError_seq (r : Raise) (s : State) : (s.raiseError r).seq = .idle := rfl
@[simp] theorem State.raiseError_done (r : Raise) (s : State) : (s.raiseError r).done = s.done := rfl
@[simp] theorem State.raiseError_err (r : Raise) (s : State) : (s.raiseError r).err = true := rfl
@[simp] theorem State.raiseError_drop (r : Raise) (s : State) : (s.raiseError r).drop = s.drop := rfl
@[simp] theorem State.raiseError_treeValid (r : Raise) (s : State) : (s.raiseError r).treeValid = s.treeValid := rfl
@[simp] theorem State.raiseError_codesValid (r : Raise) (s : State) : (s.raiseError r).codesValid = s.codesValid := rfl
@[simp] theorem State.raiseError_fatal (r : Raise) (s : State) : (s.raiseError r).fatal = (s.fatal || decide (r.err = .emptyStructure)) := rfl
@[simp] theorem State.raiseError_errCode (r : Raise) (s : State) : (s.raiseError r).errCode = r.err.code := rfl
@[simp] theorem State.raiseError_lastOp (r : Raise) (s : State) : (s.raiseError r).lastOp = s.lastOp := rfl
@[simp] theorem State.raiseError_inLen (r : Raise) (s : State) : (s.raiseError r).inLen = s.inLen := rfl
@[simp] theorem State.raiseError_outLen (r : Raise) (s : State) : (s.raiseError r).outLen = s.outLen := rfl
@[simp] theorem State.raiseError_totalBits (r : Raise) (s : State) : (s.raiseError r).totalBits = s.totalBits := rfl
@[simp] theorem State.raiseError_pad (r : Raise) (s : State) : (s.raiseError r).pad = s.pad := rfl
@[simp] theorem State.raiseError_nsym (r : Raise) (s : State) : (s.raiseError r).nsym = s.nsym := rfl
@[simp] theorem State.raiseError_root (r : Raise) (s : State) : (s.raiseError r).root = s.root := rfl
@[simp] theorem State.raiseError_nnodes (r : Raise) (s : State) : (s.raiseError r).nnodes = s.nnodes := rfl
@[simp] theorem State.raiseError_irqEn (r : Raise) (s : State) : (s.raiseError r).irqEn = s.irqEn := rfl
@[simp] theorem State.raiseError_errInfo (r : Raise) (s : State) : (s.raiseError r).errInfo = r.info := rfl
@[simp] theorem State.raiseError_capIn (r : Raise) (s : State) : (s.raiseError r).capIn = s.capIn := rfl
@[simp] theorem State.raiseError_capOut (r : Raise) (s : State) : (s.raiseError r).capOut = s.capOut := rfl
@[simp] theorem State.raiseError_freq (r : Raise) (s : State) : (s.raiseError r).freq = s.freq := rfl
@[simp] theorem State.raiseError_codeLen (r : Raise) (s : State) : (s.raiseError r).codeLen = s.codeLen := rfl
@[simp] theorem State.raiseError_codeBits (r : Raise) (s : State) : (s.raiseError r).codeBits = s.codeBits := rfl
@[simp] theorem State.raiseError_nodes (r : Raise) (s : State) : (s.raiseError r).nodes = s.nodes := rfl
@[simp] theorem State.raiseError_inMem (r : Raise) (s : State) : (s.raiseError r).inMem = s.inMem := rfl
@[simp] theorem State.raiseError_outMem (r : Raise) (s : State) : (s.raiseError r).outMem = s.outMem := rfl
@[simp] theorem State.raiseError_pq (r : Raise) (s : State) : (s.raiseError r).pq = s.pq := rfl
@[simp] theorem State.raiseError_walk (r : Raise) (s : State) : (s.raiseError r).walk = s.walk := rfl
@[simp] theorem State.raiseError_inEpoch (r : Raise) (s : State) : (s.raiseError r).inEpoch = s.inEpoch := rfl
@[simp] theorem State.raiseError_outEpoch (r : Raise) (s : State) : (s.raiseError r).outEpoch = s.outEpoch := rfl
@[simp] theorem State.raiseError_draws (r : Raise) (s : State) : (s.raiseError r).draws = s.draws + 1 := rfl
@[simp] theorem State.raiseError_script (r : Raise) (s : State) : (s.raiseError r).script = s.script := rfl
@[simp] theorem State.raiseError_turns (r : Raise) (s : State) : (s.raiseError r).turns = s.turns := rfl
@[simp] theorem State.raiseError_reads (r : Raise) (s : State) : (s.raiseError r).reads = s.reads := rfl

/-! ### State.discardOutput -/

@[simp] theorem State.discardOutput_seq (s : State) : (s.discardOutput).seq = s.seq := rfl
@[simp] theorem State.discardOutput_done (s : State) : (s.discardOutput).done = s.done := rfl
@[simp] theorem State.discardOutput_err (s : State) : (s.discardOutput).err = s.err := rfl
@[simp] theorem State.discardOutput_drop (s : State) : (s.discardOutput).drop = s.drop := rfl
@[simp] theorem State.discardOutput_treeValid (s : State) : (s.discardOutput).treeValid = s.treeValid := rfl
@[simp] theorem State.discardOutput_codesValid (s : State) : (s.discardOutput).codesValid = s.codesValid := rfl
@[simp] theorem State.discardOutput_fatal (s : State) : (s.discardOutput).fatal = s.fatal := rfl
@[simp] theorem State.discardOutput_errCode (s : State) : (s.discardOutput).errCode = s.errCode := rfl
@[simp] theorem State.discardOutput_lastOp (s : State) : (s.discardOutput).lastOp = s.lastOp := rfl
@[simp] theorem State.discardOutput_inLen (s : State) : (s.discardOutput).inLen = s.inLen := rfl
@[simp] theorem State.discardOutput_outLen (s : State) : (s.discardOutput).outLen = 0#32 := rfl
@[simp] theorem State.discardOutput_totalBits (s : State) : (s.discardOutput).totalBits = 0#32 := rfl
@[simp] theorem State.discardOutput_pad (s : State) : (s.discardOutput).pad = 0#3 := rfl
@[simp] theorem State.discardOutput_nsym (s : State) : (s.discardOutput).nsym = s.nsym := rfl
@[simp] theorem State.discardOutput_root (s : State) : (s.discardOutput).root = s.root := rfl
@[simp] theorem State.discardOutput_nnodes (s : State) : (s.discardOutput).nnodes = s.nnodes := rfl
@[simp] theorem State.discardOutput_irqEn (s : State) : (s.discardOutput).irqEn = s.irqEn := rfl
@[simp] theorem State.discardOutput_errInfo (s : State) : (s.discardOutput).errInfo = s.errInfo := rfl
@[simp] theorem State.discardOutput_capIn (s : State) : (s.discardOutput).capIn = s.capIn := rfl
@[simp] theorem State.discardOutput_capOut (s : State) : (s.discardOutput).capOut = s.capOut := rfl
@[simp] theorem State.discardOutput_freq (s : State) : (s.discardOutput).freq = s.freq := rfl
@[simp] theorem State.discardOutput_codeLen (s : State) : (s.discardOutput).codeLen = s.codeLen := rfl
@[simp] theorem State.discardOutput_codeBits (s : State) : (s.discardOutput).codeBits = s.codeBits := rfl
@[simp] theorem State.discardOutput_nodes (s : State) : (s.discardOutput).nodes = s.nodes := rfl
@[simp] theorem State.discardOutput_inMem (s : State) : (s.discardOutput).inMem = s.inMem := rfl
@[simp] theorem State.discardOutput_outMem (s : State) : (s.discardOutput).outMem = [] := rfl
@[simp] theorem State.discardOutput_pq (s : State) : (s.discardOutput).pq = s.pq := rfl
@[simp] theorem State.discardOutput_walk (s : State) : (s.discardOutput).walk = s.walk := rfl
@[simp] theorem State.discardOutput_inEpoch (s : State) : (s.discardOutput).inEpoch = s.inEpoch := rfl
@[simp] theorem State.discardOutput_outEpoch (s : State) : (s.discardOutput).outEpoch = s.outEpoch + 1 := rfl
@[simp] theorem State.discardOutput_draws (s : State) : (s.discardOutput).draws = s.draws := rfl
@[simp] theorem State.discardOutput_script (s : State) : (s.discardOutput).script = s.script := rfl
@[simp] theorem State.discardOutput_turns (s : State) : (s.discardOutput).turns = s.turns := rfl
@[simp] theorem State.discardOutput_reads (s : State) : (s.discardOutput).reads = s.reads := rfl

/-! ### State.clearTables -/

@[simp] theorem State.clearTables_seq (s : State) : (s.clearTables).seq = s.seq := rfl
@[simp] theorem State.clearTables_done (s : State) : (s.clearTables).done = s.done := rfl
@[simp] theorem State.clearTables_err (s : State) : (s.clearTables).err = s.err := rfl
@[simp] theorem State.clearTables_drop (s : State) : (s.clearTables).drop = s.drop := rfl
@[simp] theorem State.clearTables_treeValid (s : State) : (s.clearTables).treeValid = s.treeValid := rfl
@[simp] theorem State.clearTables_codesValid (s : State) : (s.clearTables).codesValid = s.codesValid := rfl
@[simp] theorem State.clearTables_fatal (s : State) : (s.clearTables).fatal = s.fatal := rfl
@[simp] theorem State.clearTables_errCode (s : State) : (s.clearTables).errCode = s.errCode := rfl
@[simp] theorem State.clearTables_lastOp (s : State) : (s.clearTables).lastOp = s.lastOp := rfl
@[simp] theorem State.clearTables_inLen (s : State) : (s.clearTables).inLen = s.inLen := rfl
@[simp] theorem State.clearTables_outLen (s : State) : (s.clearTables).outLen = s.outLen := rfl
@[simp] theorem State.clearTables_totalBits (s : State) : (s.clearTables).totalBits = s.totalBits := rfl
@[simp] theorem State.clearTables_pad (s : State) : (s.clearTables).pad = s.pad := rfl
@[simp] theorem State.clearTables_nsym (s : State) : (s.clearTables).nsym = s.nsym := rfl
@[simp] theorem State.clearTables_root (s : State) : (s.clearTables).root = s.root := rfl
@[simp] theorem State.clearTables_nnodes (s : State) : (s.clearTables).nnodes = s.nnodes := rfl
@[simp] theorem State.clearTables_irqEn (s : State) : (s.clearTables).irqEn = s.irqEn := rfl
@[simp] theorem State.clearTables_errInfo (s : State) : (s.clearTables).errInfo = s.errInfo := rfl
@[simp] theorem State.clearTables_capIn (s : State) : (s.clearTables).capIn = s.capIn := rfl
@[simp] theorem State.clearTables_capOut (s : State) : (s.clearTables).capOut = s.capOut := rfl
@[simp] theorem State.clearTables_freq (s : State) : (s.clearTables).freq = Vector.replicate 256 0#32 := rfl
@[simp] theorem State.clearTables_codeLen (s : State) : (s.clearTables).codeLen = Vector.replicate 256 0#9 := rfl
@[simp] theorem State.clearTables_codeBits (s : State) : (s.clearTables).codeBits = Vector.replicate 256 0#256 := rfl
@[simp] theorem State.clearTables_nodes (s : State) : (s.clearTables).nodes = Vector.replicate 511 Node.cleared := rfl
@[simp] theorem State.clearTables_inMem (s : State) : (s.clearTables).inMem = s.inMem := rfl
@[simp] theorem State.clearTables_outMem (s : State) : (s.clearTables).outMem = s.outMem := rfl
@[simp] theorem State.clearTables_pq (s : State) : (s.clearTables).pq = s.pq := rfl
@[simp] theorem State.clearTables_walk (s : State) : (s.clearTables).walk = s.walk := rfl
@[simp] theorem State.clearTables_inEpoch (s : State) : (s.clearTables).inEpoch = s.inEpoch := rfl
@[simp] theorem State.clearTables_outEpoch (s : State) : (s.clearTables).outEpoch = s.outEpoch := rfl
@[simp] theorem State.clearTables_draws (s : State) : (s.clearTables).draws = s.draws := rfl
@[simp] theorem State.clearTables_script (s : State) : (s.clearTables).script = s.script := rfl
@[simp] theorem State.clearTables_turns (s : State) : (s.clearTables).turns = s.turns := rfl
@[simp] theorem State.clearTables_reads (s : State) : (s.clearTables).reads = s.reads := rfl

/-! ### State.initialise -/

@[simp] theorem State.initialise_seq (s : State) : (s.initialise).seq = .idle := rfl
@[simp] theorem State.initialise_done (s : State) : (s.initialise).done = s.done := rfl
@[simp] theorem State.initialise_err (s : State) : (s.initialise).err = s.err := rfl
@[simp] theorem State.initialise_drop (s : State) : (s.initialise).drop = s.drop := rfl
@[simp] theorem State.initialise_treeValid (s : State) : (s.initialise).treeValid = s.treeValid := rfl
@[simp] theorem State.initialise_codesValid (s : State) : (s.initialise).codesValid = s.codesValid := rfl
@[simp] theorem State.initialise_fatal (s : State) : (s.initialise).fatal = s.fatal := rfl
@[simp] theorem State.initialise_errCode (s : State) : (s.initialise).errCode = s.errCode := rfl
@[simp] theorem State.initialise_lastOp (s : State) : (s.initialise).lastOp = s.lastOp := rfl
@[simp] theorem State.initialise_inLen (s : State) : (s.initialise).inLen = s.inLen := rfl
@[simp] theorem State.initialise_outLen (s : State) : (s.initialise).outLen = s.outLen := rfl
@[simp] theorem State.initialise_totalBits (s : State) : (s.initialise).totalBits = s.totalBits := rfl
@[simp] theorem State.initialise_pad (s : State) : (s.initialise).pad = s.pad := rfl
@[simp] theorem State.initialise_nsym (s : State) : (s.initialise).nsym = s.nsym := rfl
@[simp] theorem State.initialise_root (s : State) : (s.initialise).root = s.root := rfl
@[simp] theorem State.initialise_nnodes (s : State) : (s.initialise).nnodes = s.nnodes := rfl
@[simp] theorem State.initialise_irqEn (s : State) : (s.initialise).irqEn = s.irqEn := rfl
@[simp] theorem State.initialise_errInfo (s : State) : (s.initialise).errInfo = s.errInfo := rfl
@[simp] theorem State.initialise_capIn (s : State) : (s.initialise).capIn = s.capIn := rfl
@[simp] theorem State.initialise_capOut (s : State) : (s.initialise).capOut = s.capOut := rfl
@[simp] theorem State.initialise_freq (s : State) : (s.initialise).freq = Vector.replicate 256 0#32 := rfl
@[simp] theorem State.initialise_codeLen (s : State) : (s.initialise).codeLen = Vector.replicate 256 0#9 := rfl
@[simp] theorem State.initialise_codeBits (s : State) : (s.initialise).codeBits = Vector.replicate 256 0#256 := rfl
@[simp] theorem State.initialise_nodes (s : State) : (s.initialise).nodes = Vector.replicate 511 Node.cleared := rfl
@[simp] theorem State.initialise_inMem (s : State) : (s.initialise).inMem = s.inMem := rfl
@[simp] theorem State.initialise_outMem (s : State) : (s.initialise).outMem = s.outMem := rfl
@[simp] theorem State.initialise_pq (s : State) : (s.initialise).pq = s.pq := rfl
@[simp] theorem State.initialise_walk (s : State) : (s.initialise).walk = s.walk := rfl
@[simp] theorem State.initialise_inEpoch (s : State) : (s.initialise).inEpoch = s.inEpoch := rfl
@[simp] theorem State.initialise_outEpoch (s : State) : (s.initialise).outEpoch = s.outEpoch := rfl
@[simp] theorem State.initialise_draws (s : State) : (s.initialise).draws = s.draws := rfl
@[simp] theorem State.initialise_script (s : State) : (s.initialise).script = s.script := rfl
@[simp] theorem State.initialise_turns (s : State) : (s.initialise).turns = s.turns := rfl
@[simp] theorem State.initialise_reads (s : State) : (s.initialise).reads = s.reads := rfl

/-! ### State.afterRst -/

@[simp] theorem State.afterRst_seq (s : State) : (s.afterRst).seq = State.reset.seq := rfl
@[simp] theorem State.afterRst_done (s : State) : (s.afterRst).done = State.reset.done := rfl
@[simp] theorem State.afterRst_err (s : State) : (s.afterRst).err = State.reset.err := rfl
@[simp] theorem State.afterRst_drop (s : State) : (s.afterRst).drop = State.reset.drop := rfl
@[simp] theorem State.afterRst_treeValid (s : State) : (s.afterRst).treeValid = State.reset.treeValid := rfl
@[simp] theorem State.afterRst_codesValid (s : State) : (s.afterRst).codesValid = State.reset.codesValid := rfl
@[simp] theorem State.afterRst_fatal (s : State) : (s.afterRst).fatal = State.reset.fatal := rfl
@[simp] theorem State.afterRst_errCode (s : State) : (s.afterRst).errCode = State.reset.errCode := rfl
@[simp] theorem State.afterRst_lastOp (s : State) : (s.afterRst).lastOp = State.reset.lastOp := rfl
@[simp] theorem State.afterRst_inLen (s : State) : (s.afterRst).inLen = State.reset.inLen := rfl
@[simp] theorem State.afterRst_outLen (s : State) : (s.afterRst).outLen = State.reset.outLen := rfl
@[simp] theorem State.afterRst_totalBits (s : State) : (s.afterRst).totalBits = State.reset.totalBits := rfl
@[simp] theorem State.afterRst_pad (s : State) : (s.afterRst).pad = State.reset.pad := rfl
@[simp] theorem State.afterRst_nsym (s : State) : (s.afterRst).nsym = State.reset.nsym := rfl
@[simp] theorem State.afterRst_root (s : State) : (s.afterRst).root = State.reset.root := rfl
@[simp] theorem State.afterRst_nnodes (s : State) : (s.afterRst).nnodes = State.reset.nnodes := rfl
@[simp] theorem State.afterRst_irqEn (s : State) : (s.afterRst).irqEn = State.reset.irqEn := rfl
@[simp] theorem State.afterRst_errInfo (s : State) : (s.afterRst).errInfo = State.reset.errInfo := rfl
@[simp] theorem State.afterRst_capIn (s : State) : (s.afterRst).capIn = s.capIn := rfl
@[simp] theorem State.afterRst_capOut (s : State) : (s.afterRst).capOut = s.capOut := rfl
@[simp] theorem State.afterRst_freq (s : State) : (s.afterRst).freq = State.reset.freq := rfl
@[simp] theorem State.afterRst_codeLen (s : State) : (s.afterRst).codeLen = State.reset.codeLen := rfl
@[simp] theorem State.afterRst_codeBits (s : State) : (s.afterRst).codeBits = State.reset.codeBits := rfl
@[simp] theorem State.afterRst_nodes (s : State) : (s.afterRst).nodes = State.reset.nodes := rfl
@[simp] theorem State.afterRst_inMem (s : State) : (s.afterRst).inMem = State.reset.inMem := rfl
@[simp] theorem State.afterRst_outMem (s : State) : (s.afterRst).outMem = State.reset.outMem := rfl
@[simp] theorem State.afterRst_pq (s : State) : (s.afterRst).pq = State.reset.pq := rfl
@[simp] theorem State.afterRst_walk (s : State) : (s.afterRst).walk = State.reset.walk := rfl
@[simp] theorem State.afterRst_inEpoch (s : State) : (s.afterRst).inEpoch = s.inEpoch + 1 := rfl
@[simp] theorem State.afterRst_outEpoch (s : State) : (s.afterRst).outEpoch = s.outEpoch + 1 := rfl
@[simp] theorem State.afterRst_draws (s : State) : (s.afterRst).draws = s.draws := rfl
@[simp] theorem State.afterRst_script (s : State) : (s.afterRst).script = s.script := rfl
@[simp] theorem State.afterRst_turns (s : State) : (s.afterRst).turns = s.turns := rfl
@[simp] theorem State.afterRst_reads (s : State) : (s.afterRst).reads = s.reads := rfl

/-! ### State.installCounts -/

@[simp] theorem State.installCounts_seq (f : Vector Word 256) (s : State) : (s.installCounts f).seq = s.seq := rfl
@[simp] theorem State.installCounts_done (f : Vector Word 256) (s : State) : (s.installCounts f).done = s.done := rfl
@[simp] theorem State.installCounts_err (f : Vector Word 256) (s : State) : (s.installCounts f).err = s.err := rfl
@[simp] theorem State.installCounts_drop (f : Vector Word 256) (s : State) : (s.installCounts f).drop = s.drop := rfl
@[simp] theorem State.installCounts_treeValid (f : Vector Word 256) (s : State) : (s.installCounts f).treeValid = false := rfl
@[simp] theorem State.installCounts_codesValid (f : Vector Word 256) (s : State) : (s.installCounts f).codesValid = false := rfl
@[simp] theorem State.installCounts_fatal (f : Vector Word 256) (s : State) : (s.installCounts f).fatal = s.fatal := rfl
@[simp] theorem State.installCounts_errCode (f : Vector Word 256) (s : State) : (s.installCounts f).errCode = s.errCode := rfl
@[simp] theorem State.installCounts_lastOp (f : Vector Word 256) (s : State) : (s.installCounts f).lastOp = s.lastOp := rfl
@[simp] theorem State.installCounts_inLen (f : Vector Word 256) (s : State) : (s.installCounts f).inLen = s.inLen := rfl
@[simp] theorem State.installCounts_outLen (f : Vector Word 256) (s : State) : (s.installCounts f).outLen = s.outLen := rfl
@[simp] theorem State.installCounts_totalBits (f : Vector Word 256) (s : State) : (s.installCounts f).totalBits = s.totalBits := rfl
@[simp] theorem State.installCounts_pad (f : Vector Word 256) (s : State) : (s.installCounts f).pad = s.pad := rfl
@[simp] theorem State.installCounts_nsym (f : Vector Word 256) (s : State) : (s.installCounts f).nsym = s.nsym := rfl
@[simp] theorem State.installCounts_root (f : Vector Word 256) (s : State) : (s.installCounts f).root = s.root := rfl
@[simp] theorem State.installCounts_nnodes (f : Vector Word 256) (s : State) : (s.installCounts f).nnodes = s.nnodes := rfl
@[simp] theorem State.installCounts_irqEn (f : Vector Word 256) (s : State) : (s.installCounts f).irqEn = s.irqEn := rfl
@[simp] theorem State.installCounts_errInfo (f : Vector Word 256) (s : State) : (s.installCounts f).errInfo = s.errInfo := rfl
@[simp] theorem State.installCounts_capIn (f : Vector Word 256) (s : State) : (s.installCounts f).capIn = s.capIn := rfl
@[simp] theorem State.installCounts_capOut (f : Vector Word 256) (s : State) : (s.installCounts f).capOut = s.capOut := rfl
@[simp] theorem State.installCounts_freq (f : Vector Word 256) (s : State) : (s.installCounts f).freq = f := rfl
@[simp] theorem State.installCounts_codeLen (f : Vector Word 256) (s : State) : (s.installCounts f).codeLen = s.codeLen := rfl
@[simp] theorem State.installCounts_codeBits (f : Vector Word 256) (s : State) : (s.installCounts f).codeBits = s.codeBits := rfl
@[simp] theorem State.installCounts_nodes (f : Vector Word 256) (s : State) : (s.installCounts f).nodes = s.nodes := rfl
@[simp] theorem State.installCounts_inMem (f : Vector Word 256) (s : State) : (s.installCounts f).inMem = s.inMem := rfl
@[simp] theorem State.installCounts_outMem (f : Vector Word 256) (s : State) : (s.installCounts f).outMem = s.outMem := rfl
@[simp] theorem State.installCounts_pq (f : Vector Word 256) (s : State) : (s.installCounts f).pq = s.pq := rfl
@[simp] theorem State.installCounts_walk (f : Vector Word 256) (s : State) : (s.installCounts f).walk = s.walk := rfl
@[simp] theorem State.installCounts_inEpoch (f : Vector Word 256) (s : State) : (s.installCounts f).inEpoch = s.inEpoch := rfl
@[simp] theorem State.installCounts_outEpoch (f : Vector Word 256) (s : State) : (s.installCounts f).outEpoch = s.outEpoch := rfl
@[simp] theorem State.installCounts_draws (f : Vector Word 256) (s : State) : (s.installCounts f).draws = s.draws := rfl
@[simp] theorem State.installCounts_script (f : Vector Word 256) (s : State) : (s.installCounts f).script = s.script := rfl
@[simp] theorem State.installCounts_turns (f : Vector Word 256) (s : State) : (s.installCounts f).turns = s.turns := rfl
@[simp] theorem State.installCounts_reads (f : Vector Word 256) (s : State) : (s.installCounts f).reads = s.reads := rfl

/-! ### State.setFreq -/

@[simp] theorem State.setFreq_seq (x : Byte) (v : Word) (s : State) : (s.setFreq x v).seq = s.seq := rfl
@[simp] theorem State.setFreq_done (x : Byte) (v : Word) (s : State) : (s.setFreq x v).done = s.done := rfl
@[simp] theorem State.setFreq_err (x : Byte) (v : Word) (s : State) : (s.setFreq x v).err = s.err := rfl
@[simp] theorem State.setFreq_drop (x : Byte) (v : Word) (s : State) : (s.setFreq x v).drop = s.drop := rfl
@[simp] theorem State.setFreq_treeValid (x : Byte) (v : Word) (s : State) : (s.setFreq x v).treeValid = false := rfl
@[simp] theorem State.setFreq_codesValid (x : Byte) (v : Word) (s : State) : (s.setFreq x v).codesValid = false := rfl
@[simp] theorem State.setFreq_fatal (x : Byte) (v : Word) (s : State) : (s.setFreq x v).fatal = s.fatal := rfl
@[simp] theorem State.setFreq_errCode (x : Byte) (v : Word) (s : State) : (s.setFreq x v).errCode = s.errCode := rfl
@[simp] theorem State.setFreq_lastOp (x : Byte) (v : Word) (s : State) : (s.setFreq x v).lastOp = s.lastOp := rfl
@[simp] theorem State.setFreq_inLen (x : Byte) (v : Word) (s : State) : (s.setFreq x v).inLen = s.inLen := rfl
@[simp] theorem State.setFreq_outLen (x : Byte) (v : Word) (s : State) : (s.setFreq x v).outLen = s.outLen := rfl
@[simp] theorem State.setFreq_totalBits (x : Byte) (v : Word) (s : State) : (s.setFreq x v).totalBits = s.totalBits := rfl
@[simp] theorem State.setFreq_pad (x : Byte) (v : Word) (s : State) : (s.setFreq x v).pad = s.pad := rfl
@[simp] theorem State.setFreq_nsym (x : Byte) (v : Word) (s : State) : (s.setFreq x v).nsym = s.nsym := rfl
@[simp] theorem State.setFreq_root (x : Byte) (v : Word) (s : State) : (s.setFreq x v).root = s.root := rfl
@[simp] theorem State.setFreq_nnodes (x : Byte) (v : Word) (s : State) : (s.setFreq x v).nnodes = s.nnodes := rfl
@[simp] theorem State.setFreq_irqEn (x : Byte) (v : Word) (s : State) : (s.setFreq x v).irqEn = s.irqEn := rfl
@[simp] theorem State.setFreq_errInfo (x : Byte) (v : Word) (s : State) : (s.setFreq x v).errInfo = s.errInfo := rfl
@[simp] theorem State.setFreq_capIn (x : Byte) (v : Word) (s : State) : (s.setFreq x v).capIn = s.capIn := rfl
@[simp] theorem State.setFreq_capOut (x : Byte) (v : Word) (s : State) : (s.setFreq x v).capOut = s.capOut := rfl
@[simp] theorem State.setFreq_freq (x : Byte) (v : Word) (s : State) : (s.setFreq x v).freq = tableSet s.freq x v := rfl
@[simp] theorem State.setFreq_codeLen (x : Byte) (v : Word) (s : State) : (s.setFreq x v).codeLen = s.codeLen := rfl
@[simp] theorem State.setFreq_codeBits (x : Byte) (v : Word) (s : State) : (s.setFreq x v).codeBits = s.codeBits := rfl
@[simp] theorem State.setFreq_nodes (x : Byte) (v : Word) (s : State) : (s.setFreq x v).nodes = s.nodes := rfl
@[simp] theorem State.setFreq_inMem (x : Byte) (v : Word) (s : State) : (s.setFreq x v).inMem = s.inMem := rfl
@[simp] theorem State.setFreq_outMem (x : Byte) (v : Word) (s : State) : (s.setFreq x v).outMem = s.outMem := rfl
@[simp] theorem State.setFreq_pq (x : Byte) (v : Word) (s : State) : (s.setFreq x v).pq = s.pq := rfl
@[simp] theorem State.setFreq_walk (x : Byte) (v : Word) (s : State) : (s.setFreq x v).walk = s.walk := rfl
@[simp] theorem State.setFreq_inEpoch (x : Byte) (v : Word) (s : State) : (s.setFreq x v).inEpoch = s.inEpoch := rfl
@[simp] theorem State.setFreq_outEpoch (x : Byte) (v : Word) (s : State) : (s.setFreq x v).outEpoch = s.outEpoch := rfl
@[simp] theorem State.setFreq_draws (x : Byte) (v : Word) (s : State) : (s.setFreq x v).draws = s.draws := rfl
@[simp] theorem State.setFreq_script (x : Byte) (v : Word) (s : State) : (s.setFreq x v).script = s.script := rfl
@[simp] theorem State.setFreq_turns (x : Byte) (v : Word) (s : State) : (s.setFreq x v).turns = s.turns := rfl
@[simp] theorem State.setFreq_reads (x : Byte) (v : Word) (s : State) : (s.setFreq x v).reads = s.reads := rfl

/-! ### State.installTree -/

@[simp] theorem State.installTree_seq (ns : Vector Node 511) (k : BitVec 9) (r : Idx) (n : BitVec 10) (s : State) : (s.installTree ns k r n).seq = s.seq := rfl
@[simp] theorem State.installTree_done (ns : Vector Node 511) (k : BitVec 9) (r : Idx) (n : BitVec 10) (s : State) : (s.installTree ns k r n).done = s.done := rfl
@[simp] theorem State.installTree_err (ns : Vector Node 511) (k : BitVec 9) (r : Idx) (n : BitVec 10) (s : State) : (s.installTree ns k r n).err = s.err := rfl
@[simp] theorem State.installTree_drop (ns : Vector Node 511) (k : BitVec 9) (r : Idx) (n : BitVec 10) (s : State) : (s.installTree ns k r n).drop = s.drop := rfl
@[simp] theorem State.installTree_treeValid (ns : Vector Node 511) (k : BitVec 9) (r : Idx) (n : BitVec 10) (s : State) : (s.installTree ns k r n).treeValid = true := rfl
@[simp] theorem State.installTree_codesValid (ns : Vector Node 511) (k : BitVec 9) (r : Idx) (n : BitVec 10) (s : State) : (s.installTree ns k r n).codesValid = false := rfl
@[simp] theorem State.installTree_fatal (ns : Vector Node 511) (k : BitVec 9) (r : Idx) (n : BitVec 10) (s : State) : (s.installTree ns k r n).fatal = s.fatal := rfl
@[simp] theorem State.installTree_errCode (ns : Vector Node 511) (k : BitVec 9) (r : Idx) (n : BitVec 10) (s : State) : (s.installTree ns k r n).errCode = s.errCode := rfl
@[simp] theorem State.installTree_lastOp (ns : Vector Node 511) (k : BitVec 9) (r : Idx) (n : BitVec 10) (s : State) : (s.installTree ns k r n).lastOp = s.lastOp := rfl
@[simp] theorem State.installTree_inLen (ns : Vector Node 511) (k : BitVec 9) (r : Idx) (n : BitVec 10) (s : State) : (s.installTree ns k r n).inLen = s.inLen := rfl
@[simp] theorem State.installTree_outLen (ns : Vector Node 511) (k : BitVec 9) (r : Idx) (n : BitVec 10) (s : State) : (s.installTree ns k r n).outLen = s.outLen := rfl
@[simp] theorem State.installTree_totalBits (ns : Vector Node 511) (k : BitVec 9) (r : Idx) (n : BitVec 10) (s : State) : (s.installTree ns k r n).totalBits = s.totalBits := rfl
@[simp] theorem State.installTree_pad (ns : Vector Node 511) (k : BitVec 9) (r : Idx) (n : BitVec 10) (s : State) : (s.installTree ns k r n).pad = s.pad := rfl
@[simp] theorem State.installTree_nsym (ns : Vector Node 511) (k : BitVec 9) (r : Idx) (n : BitVec 10) (s : State) : (s.installTree ns k r n).nsym = k := rfl
@[simp] theorem State.installTree_root (ns : Vector Node 511) (k : BitVec 9) (r : Idx) (n : BitVec 10) (s : State) : (s.installTree ns k r n).root = r := rfl
@[simp] theorem State.installTree_nnodes (ns : Vector Node 511) (k : BitVec 9) (r : Idx) (n : BitVec 10) (s : State) : (s.installTree ns k r n).nnodes = n := rfl
@[simp] theorem State.installTree_irqEn (ns : Vector Node 511) (k : BitVec 9) (r : Idx) (n : BitVec 10) (s : State) : (s.installTree ns k r n).irqEn = s.irqEn := rfl
@[simp] theorem State.installTree_errInfo (ns : Vector Node 511) (k : BitVec 9) (r : Idx) (n : BitVec 10) (s : State) : (s.installTree ns k r n).errInfo = s.errInfo := rfl
@[simp] theorem State.installTree_capIn (ns : Vector Node 511) (k : BitVec 9) (r : Idx) (n : BitVec 10) (s : State) : (s.installTree ns k r n).capIn = s.capIn := rfl
@[simp] theorem State.installTree_capOut (ns : Vector Node 511) (k : BitVec 9) (r : Idx) (n : BitVec 10) (s : State) : (s.installTree ns k r n).capOut = s.capOut := rfl
@[simp] theorem State.installTree_freq (ns : Vector Node 511) (k : BitVec 9) (r : Idx) (n : BitVec 10) (s : State) : (s.installTree ns k r n).freq = s.freq := rfl
@[simp] theorem State.installTree_codeLen (ns : Vector Node 511) (k : BitVec 9) (r : Idx) (n : BitVec 10) (s : State) : (s.installTree ns k r n).codeLen = s.codeLen := rfl
@[simp] theorem State.installTree_codeBits (ns : Vector Node 511) (k : BitVec 9) (r : Idx) (n : BitVec 10) (s : State) : (s.installTree ns k r n).codeBits = s.codeBits := rfl
@[simp] theorem State.installTree_nodes (ns : Vector Node 511) (k : BitVec 9) (r : Idx) (n : BitVec 10) (s : State) : (s.installTree ns k r n).nodes = ns := rfl
@[simp] theorem State.installTree_inMem (ns : Vector Node 511) (k : BitVec 9) (r : Idx) (n : BitVec 10) (s : State) : (s.installTree ns k r n).inMem = s.inMem := rfl
@[simp] theorem State.installTree_outMem (ns : Vector Node 511) (k : BitVec 9) (r : Idx) (n : BitVec 10) (s : State) : (s.installTree ns k r n).outMem = s.outMem := rfl
@[simp] theorem State.installTree_pq (ns : Vector Node 511) (k : BitVec 9) (r : Idx) (n : BitVec 10) (s : State) : (s.installTree ns k r n).pq = [] := rfl
@[simp] theorem State.installTree_walk (ns : Vector Node 511) (k : BitVec 9) (r : Idx) (n : BitVec 10) (s : State) : (s.installTree ns k r n).walk = s.walk := rfl
@[simp] theorem State.installTree_inEpoch (ns : Vector Node 511) (k : BitVec 9) (r : Idx) (n : BitVec 10) (s : State) : (s.installTree ns k r n).inEpoch = s.inEpoch := rfl
@[simp] theorem State.installTree_outEpoch (ns : Vector Node 511) (k : BitVec 9) (r : Idx) (n : BitVec 10) (s : State) : (s.installTree ns k r n).outEpoch = s.outEpoch := rfl
@[simp] theorem State.installTree_draws (ns : Vector Node 511) (k : BitVec 9) (r : Idx) (n : BitVec 10) (s : State) : (s.installTree ns k r n).draws = s.draws := rfl
@[simp] theorem State.installTree_script (ns : Vector Node 511) (k : BitVec 9) (r : Idx) (n : BitVec 10) (s : State) : (s.installTree ns k r n).script = s.script := rfl
@[simp] theorem State.installTree_turns (ns : Vector Node 511) (k : BitVec 9) (r : Idx) (n : BitVec 10) (s : State) : (s.installTree ns k r n).turns = s.turns := rfl
@[simp] theorem State.installTree_reads (ns : Vector Node 511) (k : BitVec 9) (r : Idx) (n : BitVec 10) (s : State) : (s.installTree ns k r n).reads = s.reads := rfl

/-! ### State.installCodes -/

@[simp] theorem State.installCodes_seq (l : Vector (BitVec 9) 256) (b : Vector CodeStore 256) (s : State) : (s.installCodes l b).seq = s.seq := rfl
@[simp] theorem State.installCodes_done (l : Vector (BitVec 9) 256) (b : Vector CodeStore 256) (s : State) : (s.installCodes l b).done = s.done := rfl
@[simp] theorem State.installCodes_err (l : Vector (BitVec 9) 256) (b : Vector CodeStore 256) (s : State) : (s.installCodes l b).err = s.err := rfl
@[simp] theorem State.installCodes_drop (l : Vector (BitVec 9) 256) (b : Vector CodeStore 256) (s : State) : (s.installCodes l b).drop = s.drop := rfl
@[simp] theorem State.installCodes_treeValid (l : Vector (BitVec 9) 256) (b : Vector CodeStore 256) (s : State) : (s.installCodes l b).treeValid = s.treeValid := rfl
@[simp] theorem State.installCodes_codesValid (l : Vector (BitVec 9) 256) (b : Vector CodeStore 256) (s : State) : (s.installCodes l b).codesValid = true := rfl
@[simp] theorem State.installCodes_fatal (l : Vector (BitVec 9) 256) (b : Vector CodeStore 256) (s : State) : (s.installCodes l b).fatal = s.fatal := rfl
@[simp] theorem State.installCodes_errCode (l : Vector (BitVec 9) 256) (b : Vector CodeStore 256) (s : State) : (s.installCodes l b).errCode = s.errCode := rfl
@[simp] theorem State.installCodes_lastOp (l : Vector (BitVec 9) 256) (b : Vector CodeStore 256) (s : State) : (s.installCodes l b).lastOp = s.lastOp := rfl
@[simp] theorem State.installCodes_inLen (l : Vector (BitVec 9) 256) (b : Vector CodeStore 256) (s : State) : (s.installCodes l b).inLen = s.inLen := rfl
@[simp] theorem State.installCodes_outLen (l : Vector (BitVec 9) 256) (b : Vector CodeStore 256) (s : State) : (s.installCodes l b).outLen = s.outLen := rfl
@[simp] theorem State.installCodes_totalBits (l : Vector (BitVec 9) 256) (b : Vector CodeStore 256) (s : State) : (s.installCodes l b).totalBits = s.totalBits := rfl
@[simp] theorem State.installCodes_pad (l : Vector (BitVec 9) 256) (b : Vector CodeStore 256) (s : State) : (s.installCodes l b).pad = s.pad := rfl
@[simp] theorem State.installCodes_nsym (l : Vector (BitVec 9) 256) (b : Vector CodeStore 256) (s : State) : (s.installCodes l b).nsym = s.nsym := rfl
@[simp] theorem State.installCodes_root (l : Vector (BitVec 9) 256) (b : Vector CodeStore 256) (s : State) : (s.installCodes l b).root = s.root := rfl
@[simp] theorem State.installCodes_nnodes (l : Vector (BitVec 9) 256) (b : Vector CodeStore 256) (s : State) : (s.installCodes l b).nnodes = s.nnodes := rfl
@[simp] theorem State.installCodes_irqEn (l : Vector (BitVec 9) 256) (b : Vector CodeStore 256) (s : State) : (s.installCodes l b).irqEn = s.irqEn := rfl
@[simp] theorem State.installCodes_errInfo (l : Vector (BitVec 9) 256) (b : Vector CodeStore 256) (s : State) : (s.installCodes l b).errInfo = s.errInfo := rfl
@[simp] theorem State.installCodes_capIn (l : Vector (BitVec 9) 256) (b : Vector CodeStore 256) (s : State) : (s.installCodes l b).capIn = s.capIn := rfl
@[simp] theorem State.installCodes_capOut (l : Vector (BitVec 9) 256) (b : Vector CodeStore 256) (s : State) : (s.installCodes l b).capOut = s.capOut := rfl
@[simp] theorem State.installCodes_freq (l : Vector (BitVec 9) 256) (b : Vector CodeStore 256) (s : State) : (s.installCodes l b).freq = s.freq := rfl
@[simp] theorem State.installCodes_codeLen (l : Vector (BitVec 9) 256) (b : Vector CodeStore 256) (s : State) : (s.installCodes l b).codeLen = l := rfl
@[simp] theorem State.installCodes_codeBits (l : Vector (BitVec 9) 256) (b : Vector CodeStore 256) (s : State) : (s.installCodes l b).codeBits = b := rfl
@[simp] theorem State.installCodes_nodes (l : Vector (BitVec 9) 256) (b : Vector CodeStore 256) (s : State) : (s.installCodes l b).nodes = s.nodes := rfl
@[simp] theorem State.installCodes_inMem (l : Vector (BitVec 9) 256) (b : Vector CodeStore 256) (s : State) : (s.installCodes l b).inMem = s.inMem := rfl
@[simp] theorem State.installCodes_outMem (l : Vector (BitVec 9) 256) (b : Vector CodeStore 256) (s : State) : (s.installCodes l b).outMem = s.outMem := rfl
@[simp] theorem State.installCodes_pq (l : Vector (BitVec 9) 256) (b : Vector CodeStore 256) (s : State) : (s.installCodes l b).pq = s.pq := rfl
@[simp] theorem State.installCodes_walk (l : Vector (BitVec 9) 256) (b : Vector CodeStore 256) (s : State) : (s.installCodes l b).walk = s.walk := rfl
@[simp] theorem State.installCodes_inEpoch (l : Vector (BitVec 9) 256) (b : Vector CodeStore 256) (s : State) : (s.installCodes l b).inEpoch = s.inEpoch := rfl
@[simp] theorem State.installCodes_outEpoch (l : Vector (BitVec 9) 256) (b : Vector CodeStore 256) (s : State) : (s.installCodes l b).outEpoch = s.outEpoch := rfl
@[simp] theorem State.installCodes_draws (l : Vector (BitVec 9) 256) (b : Vector CodeStore 256) (s : State) : (s.installCodes l b).draws = s.draws := rfl
@[simp] theorem State.installCodes_script (l : Vector (BitVec 9) 256) (b : Vector CodeStore 256) (s : State) : (s.installCodes l b).script = s.script := rfl
@[simp] theorem State.installCodes_turns (l : Vector (BitVec 9) 256) (b : Vector CodeStore 256) (s : State) : (s.installCodes l b).turns = s.turns := rfl
@[simp] theorem State.installCodes_reads (l : Vector (BitVec 9) 256) (b : Vector CodeStore 256) (s : State) : (s.installCodes l b).reads = s.reads := rfl

/-! ### State.installOutput -/

@[simp] theorem State.installOutput_seq (out : List Byte) (n : Nat) (p : BitVec 3) (s : State) : (s.installOutput out n p).seq = s.seq := rfl
@[simp] theorem State.installOutput_done (out : List Byte) (n : Nat) (p : BitVec 3) (s : State) : (s.installOutput out n p).done = s.done := rfl
@[simp] theorem State.installOutput_err (out : List Byte) (n : Nat) (p : BitVec 3) (s : State) : (s.installOutput out n p).err = s.err := rfl
@[simp] theorem State.installOutput_drop (out : List Byte) (n : Nat) (p : BitVec 3) (s : State) : (s.installOutput out n p).drop = s.drop := rfl
@[simp] theorem State.installOutput_treeValid (out : List Byte) (n : Nat) (p : BitVec 3) (s : State) : (s.installOutput out n p).treeValid = s.treeValid := rfl
@[simp] theorem State.installOutput_codesValid (out : List Byte) (n : Nat) (p : BitVec 3) (s : State) : (s.installOutput out n p).codesValid = s.codesValid := rfl
@[simp] theorem State.installOutput_fatal (out : List Byte) (n : Nat) (p : BitVec 3) (s : State) : (s.installOutput out n p).fatal = s.fatal := rfl
@[simp] theorem State.installOutput_errCode (out : List Byte) (n : Nat) (p : BitVec 3) (s : State) : (s.installOutput out n p).errCode = s.errCode := rfl
@[simp] theorem State.installOutput_lastOp (out : List Byte) (n : Nat) (p : BitVec 3) (s : State) : (s.installOutput out n p).lastOp = s.lastOp := rfl
@[simp] theorem State.installOutput_inLen (out : List Byte) (n : Nat) (p : BitVec 3) (s : State) : (s.installOutput out n p).inLen = s.inLen := rfl
@[simp] theorem State.installOutput_outLen (out : List Byte) (n : Nat) (p : BitVec 3) (s : State) : (s.installOutput out n p).outLen = BitVec.ofNat 32 out.length := rfl
@[simp] theorem State.installOutput_totalBits (out : List Byte) (n : Nat) (p : BitVec 3) (s : State) : (s.installOutput out n p).totalBits = BitVec.ofNat 32 n := rfl
@[simp] theorem State.installOutput_pad (out : List Byte) (n : Nat) (p : BitVec 3) (s : State) : (s.installOutput out n p).pad = p := rfl
@[simp] theorem State.installOutput_nsym (out : List Byte) (n : Nat) (p : BitVec 3) (s : State) : (s.installOutput out n p).nsym = s.nsym := rfl
@[simp] theorem State.installOutput_root (out : List Byte) (n : Nat) (p : BitVec 3) (s : State) : (s.installOutput out n p).root = s.root := rfl
@[simp] theorem State.installOutput_nnodes (out : List Byte) (n : Nat) (p : BitVec 3) (s : State) : (s.installOutput out n p).nnodes = s.nnodes := rfl
@[simp] theorem State.installOutput_irqEn (out : List Byte) (n : Nat) (p : BitVec 3) (s : State) : (s.installOutput out n p).irqEn = s.irqEn := rfl
@[simp] theorem State.installOutput_errInfo (out : List Byte) (n : Nat) (p : BitVec 3) (s : State) : (s.installOutput out n p).errInfo = s.errInfo := rfl
@[simp] theorem State.installOutput_capIn (out : List Byte) (n : Nat) (p : BitVec 3) (s : State) : (s.installOutput out n p).capIn = s.capIn := rfl
@[simp] theorem State.installOutput_capOut (out : List Byte) (n : Nat) (p : BitVec 3) (s : State) : (s.installOutput out n p).capOut = s.capOut := rfl
@[simp] theorem State.installOutput_freq (out : List Byte) (n : Nat) (p : BitVec 3) (s : State) : (s.installOutput out n p).freq = s.freq := rfl
@[simp] theorem State.installOutput_codeLen (out : List Byte) (n : Nat) (p : BitVec 3) (s : State) : (s.installOutput out n p).codeLen = s.codeLen := rfl
@[simp] theorem State.installOutput_codeBits (out : List Byte) (n : Nat) (p : BitVec 3) (s : State) : (s.installOutput out n p).codeBits = s.codeBits := rfl
@[simp] theorem State.installOutput_nodes (out : List Byte) (n : Nat) (p : BitVec 3) (s : State) : (s.installOutput out n p).nodes = s.nodes := rfl
@[simp] theorem State.installOutput_inMem (out : List Byte) (n : Nat) (p : BitVec 3) (s : State) : (s.installOutput out n p).inMem = s.inMem := rfl
@[simp] theorem State.installOutput_outMem (out : List Byte) (n : Nat) (p : BitVec 3) (s : State) : (s.installOutput out n p).outMem = Memory.writeBytes s.outMem 0 out := rfl
@[simp] theorem State.installOutput_pq (out : List Byte) (n : Nat) (p : BitVec 3) (s : State) : (s.installOutput out n p).pq = s.pq := rfl
@[simp] theorem State.installOutput_walk (out : List Byte) (n : Nat) (p : BitVec 3) (s : State) : (s.installOutput out n p).walk = none := rfl
@[simp] theorem State.installOutput_inEpoch (out : List Byte) (n : Nat) (p : BitVec 3) (s : State) : (s.installOutput out n p).inEpoch = s.inEpoch := rfl
@[simp] theorem State.installOutput_outEpoch (out : List Byte) (n : Nat) (p : BitVec 3) (s : State) : (s.installOutput out n p).outEpoch = s.outEpoch := rfl
@[simp] theorem State.installOutput_draws (out : List Byte) (n : Nat) (p : BitVec 3) (s : State) : (s.installOutput out n p).draws = s.draws := rfl
@[simp] theorem State.installOutput_script (out : List Byte) (n : Nat) (p : BitVec 3) (s : State) : (s.installOutput out n p).script = s.script := rfl
@[simp] theorem State.installOutput_turns (out : List Byte) (n : Nat) (p : BitVec 3) (s : State) : (s.installOutput out n p).turns = s.turns := rfl
@[simp] theorem State.installOutput_reads (out : List Byte) (n : Nat) (p : BitVec 3) (s : State) : (s.installOutput out n p).reads = s.reads := rfl

/-! ### State.clearAll -/

@[simp] theorem State.clearAll_seq (s : State) : (s.clearAll).seq = s.seq := rfl
@[simp] theorem State.clearAll_done (s : State) : (s.clearAll).done = s.done := rfl
@[simp] theorem State.clearAll_err (s : State) : (s.clearAll).err = s.err := rfl
@[simp] theorem State.clearAll_drop (s : State) : (s.clearAll).drop = s.drop := rfl
@[simp] theorem State.clearAll_treeValid (s : State) : (s.clearAll).treeValid = false := rfl
@[simp] theorem State.clearAll_codesValid (s : State) : (s.clearAll).codesValid = false := rfl
@[simp] theorem State.clearAll_fatal (s : State) : (s.clearAll).fatal = s.fatal := rfl
@[simp] theorem State.clearAll_errCode (s : State) : (s.clearAll).errCode = s.errCode := rfl
@[simp] theorem State.clearAll_lastOp (s : State) : (s.clearAll).lastOp = s.lastOp := rfl
@[simp] theorem State.clearAll_inLen (s : State) : (s.clearAll).inLen = s.inLen := rfl
@[simp] theorem State.clearAll_outLen (s : State) : (s.clearAll).outLen = 0#32 := rfl
@[simp] theorem State.clearAll_totalBits (s : State) : (s.clearAll).totalBits = 0#32 := rfl
@[simp] theorem State.clearAll_pad (s : State) : (s.clearAll).pad = 0#3 := rfl
@[simp] theorem State.clearAll_nsym (s : State) : (s.clearAll).nsym = 0#9 := rfl
@[simp] theorem State.clearAll_root (s : State) : (s.clearAll).root = Config.nil := rfl
@[simp] theorem State.clearAll_nnodes (s : State) : (s.clearAll).nnodes = 0#10 := rfl
@[simp] theorem State.clearAll_irqEn (s : State) : (s.clearAll).irqEn = s.irqEn := rfl
@[simp] theorem State.clearAll_errInfo (s : State) : (s.clearAll).errInfo = s.errInfo := rfl
@[simp] theorem State.clearAll_capIn (s : State) : (s.clearAll).capIn = s.capIn := rfl
@[simp] theorem State.clearAll_capOut (s : State) : (s.clearAll).capOut = s.capOut := rfl
@[simp] theorem State.clearAll_freq (s : State) : (s.clearAll).freq = Vector.replicate 256 0#32 := rfl
@[simp] theorem State.clearAll_codeLen (s : State) : (s.clearAll).codeLen = Vector.replicate 256 0#9 := rfl
@[simp] theorem State.clearAll_codeBits (s : State) : (s.clearAll).codeBits = Vector.replicate 256 0#256 := rfl
@[simp] theorem State.clearAll_nodes (s : State) : (s.clearAll).nodes = Vector.replicate 511 Node.cleared := rfl
@[simp] theorem State.clearAll_inMem (s : State) : (s.clearAll).inMem = s.inMem := rfl
@[simp] theorem State.clearAll_outMem (s : State) : (s.clearAll).outMem = s.outMem := rfl
@[simp] theorem State.clearAll_pq (s : State) : (s.clearAll).pq = s.pq := rfl
@[simp] theorem State.clearAll_walk (s : State) : (s.clearAll).walk = s.walk := rfl
@[simp] theorem State.clearAll_inEpoch (s : State) : (s.clearAll).inEpoch = s.inEpoch := rfl
@[simp] theorem State.clearAll_outEpoch (s : State) : (s.clearAll).outEpoch = s.outEpoch := rfl
@[simp] theorem State.clearAll_draws (s : State) : (s.clearAll).draws = s.draws := rfl
@[simp] theorem State.clearAll_script (s : State) : (s.clearAll).script = s.script := rfl
@[simp] theorem State.clearAll_turns (s : State) : (s.clearAll).turns = s.turns := rfl
@[simp] theorem State.clearAll_reads (s : State) : (s.clearAll).reads = s.reads := rfl

/-! ### State.setInLen -/

@[simp] theorem State.setInLen_seq (v : Word) (s : State) : (s.setInLen v).seq = s.seq := rfl
@[simp] theorem State.setInLen_done (v : Word) (s : State) : (s.setInLen v).done = s.done := rfl
@[simp] theorem State.setInLen_err (v : Word) (s : State) : (s.setInLen v).err = s.err := rfl
@[simp] theorem State.setInLen_drop (v : Word) (s : State) : (s.setInLen v).drop = s.drop := rfl
@[simp] theorem State.setInLen_treeValid (v : Word) (s : State) : (s.setInLen v).treeValid = s.treeValid := rfl
@[simp] theorem State.setInLen_codesValid (v : Word) (s : State) : (s.setInLen v).codesValid = s.codesValid := rfl
@[simp] theorem State.setInLen_fatal (v : Word) (s : State) : (s.setInLen v).fatal = s.fatal := rfl
@[simp] theorem State.setInLen_errCode (v : Word) (s : State) : (s.setInLen v).errCode = s.errCode := rfl
@[simp] theorem State.setInLen_lastOp (v : Word) (s : State) : (s.setInLen v).lastOp = s.lastOp := rfl
@[simp] theorem State.setInLen_inLen (v : Word) (s : State) : (s.setInLen v).inLen = v := rfl
@[simp] theorem State.setInLen_outLen (v : Word) (s : State) : (s.setInLen v).outLen = s.outLen := rfl
@[simp] theorem State.setInLen_totalBits (v : Word) (s : State) : (s.setInLen v).totalBits = s.totalBits := rfl
@[simp] theorem State.setInLen_pad (v : Word) (s : State) : (s.setInLen v).pad = s.pad := rfl
@[simp] theorem State.setInLen_nsym (v : Word) (s : State) : (s.setInLen v).nsym = s.nsym := rfl
@[simp] theorem State.setInLen_root (v : Word) (s : State) : (s.setInLen v).root = s.root := rfl
@[simp] theorem State.setInLen_nnodes (v : Word) (s : State) : (s.setInLen v).nnodes = s.nnodes := rfl
@[simp] theorem State.setInLen_irqEn (v : Word) (s : State) : (s.setInLen v).irqEn = s.irqEn := rfl
@[simp] theorem State.setInLen_errInfo (v : Word) (s : State) : (s.setInLen v).errInfo = s.errInfo := rfl
@[simp] theorem State.setInLen_capIn (v : Word) (s : State) : (s.setInLen v).capIn = s.capIn := rfl
@[simp] theorem State.setInLen_capOut (v : Word) (s : State) : (s.setInLen v).capOut = s.capOut := rfl
@[simp] theorem State.setInLen_freq (v : Word) (s : State) : (s.setInLen v).freq = s.freq := rfl
@[simp] theorem State.setInLen_codeLen (v : Word) (s : State) : (s.setInLen v).codeLen = s.codeLen := rfl
@[simp] theorem State.setInLen_codeBits (v : Word) (s : State) : (s.setInLen v).codeBits = s.codeBits := rfl
@[simp] theorem State.setInLen_nodes (v : Word) (s : State) : (s.setInLen v).nodes = s.nodes := rfl
@[simp] theorem State.setInLen_inMem (v : Word) (s : State) : (s.setInLen v).inMem = s.inMem := rfl
@[simp] theorem State.setInLen_outMem (v : Word) (s : State) : (s.setInLen v).outMem = s.outMem := rfl
@[simp] theorem State.setInLen_pq (v : Word) (s : State) : (s.setInLen v).pq = s.pq := rfl
@[simp] theorem State.setInLen_walk (v : Word) (s : State) : (s.setInLen v).walk = s.walk := rfl
@[simp] theorem State.setInLen_inEpoch (v : Word) (s : State) : (s.setInLen v).inEpoch = s.inEpoch := rfl
@[simp] theorem State.setInLen_outEpoch (v : Word) (s : State) : (s.setInLen v).outEpoch = s.outEpoch := rfl
@[simp] theorem State.setInLen_draws (v : Word) (s : State) : (s.setInLen v).draws = s.draws := rfl
@[simp] theorem State.setInLen_script (v : Word) (s : State) : (s.setInLen v).script = s.script := rfl
@[simp] theorem State.setInLen_turns (v : Word) (s : State) : (s.setInLen v).turns = s.turns := rfl
@[simp] theorem State.setInLen_reads (v : Word) (s : State) : (s.setInLen v).reads = s.reads := rfl

/-! ### State.setIrqEn -/

@[simp] theorem State.setIrqEn_seq (v : Word) (s : State) : (s.setIrqEn v).seq = s.seq := rfl
@[simp] theorem State.setIrqEn_done (v : Word) (s : State) : (s.setIrqEn v).done = s.done := rfl
@[simp] theorem State.setIrqEn_err (v : Word) (s : State) : (s.setIrqEn v).err = s.err := rfl
@[simp] theorem State.setIrqEn_drop (v : Word) (s : State) : (s.setIrqEn v).drop = s.drop := rfl
@[simp] theorem State.setIrqEn_treeValid (v : Word) (s : State) : (s.setIrqEn v).treeValid = s.treeValid := rfl
@[simp] theorem State.setIrqEn_codesValid (v : Word) (s : State) : (s.setIrqEn v).codesValid = s.codesValid := rfl
@[simp] theorem State.setIrqEn_fatal (v : Word) (s : State) : (s.setIrqEn v).fatal = s.fatal := rfl
@[simp] theorem State.setIrqEn_errCode (v : Word) (s : State) : (s.setIrqEn v).errCode = s.errCode := rfl
@[simp] theorem State.setIrqEn_lastOp (v : Word) (s : State) : (s.setIrqEn v).lastOp = s.lastOp := rfl
@[simp] theorem State.setIrqEn_inLen (v : Word) (s : State) : (s.setIrqEn v).inLen = s.inLen := rfl
@[simp] theorem State.setIrqEn_outLen (v : Word) (s : State) : (s.setIrqEn v).outLen = s.outLen := rfl
@[simp] theorem State.setIrqEn_totalBits (v : Word) (s : State) : (s.setIrqEn v).totalBits = s.totalBits := rfl
@[simp] theorem State.setIrqEn_pad (v : Word) (s : State) : (s.setIrqEn v).pad = s.pad := rfl
@[simp] theorem State.setIrqEn_nsym (v : Word) (s : State) : (s.setIrqEn v).nsym = s.nsym := rfl
@[simp] theorem State.setIrqEn_root (v : Word) (s : State) : (s.setIrqEn v).root = s.root := rfl
@[simp] theorem State.setIrqEn_nnodes (v : Word) (s : State) : (s.setIrqEn v).nnodes = s.nnodes := rfl
@[simp] theorem State.setIrqEn_irqEn (v : Word) (s : State) : (s.setIrqEn v).irqEn = v.setWidth 2 := rfl
@[simp] theorem State.setIrqEn_errInfo (v : Word) (s : State) : (s.setIrqEn v).errInfo = s.errInfo := rfl
@[simp] theorem State.setIrqEn_capIn (v : Word) (s : State) : (s.setIrqEn v).capIn = s.capIn := rfl
@[simp] theorem State.setIrqEn_capOut (v : Word) (s : State) : (s.setIrqEn v).capOut = s.capOut := rfl
@[simp] theorem State.setIrqEn_freq (v : Word) (s : State) : (s.setIrqEn v).freq = s.freq := rfl
@[simp] theorem State.setIrqEn_codeLen (v : Word) (s : State) : (s.setIrqEn v).codeLen = s.codeLen := rfl
@[simp] theorem State.setIrqEn_codeBits (v : Word) (s : State) : (s.setIrqEn v).codeBits = s.codeBits := rfl
@[simp] theorem State.setIrqEn_nodes (v : Word) (s : State) : (s.setIrqEn v).nodes = s.nodes := rfl
@[simp] theorem State.setIrqEn_inMem (v : Word) (s : State) : (s.setIrqEn v).inMem = s.inMem := rfl
@[simp] theorem State.setIrqEn_outMem (v : Word) (s : State) : (s.setIrqEn v).outMem = s.outMem := rfl
@[simp] theorem State.setIrqEn_pq (v : Word) (s : State) : (s.setIrqEn v).pq = s.pq := rfl
@[simp] theorem State.setIrqEn_walk (v : Word) (s : State) : (s.setIrqEn v).walk = s.walk := rfl
@[simp] theorem State.setIrqEn_inEpoch (v : Word) (s : State) : (s.setIrqEn v).inEpoch = s.inEpoch := rfl
@[simp] theorem State.setIrqEn_outEpoch (v : Word) (s : State) : (s.setIrqEn v).outEpoch = s.outEpoch := rfl
@[simp] theorem State.setIrqEn_draws (v : Word) (s : State) : (s.setIrqEn v).draws = s.draws := rfl
@[simp] theorem State.setIrqEn_script (v : Word) (s : State) : (s.setIrqEn v).script = s.script := rfl
@[simp] theorem State.setIrqEn_turns (v : Word) (s : State) : (s.setIrqEn v).turns = s.turns := rfl
@[simp] theorem State.setIrqEn_reads (v : Word) (s : State) : (s.setIrqEn v).reads = s.reads := rfl

/-! ### State.storeIn -/

@[simp] theorem State.storeIn_seq (a : Nat) (bs : List Byte) (s : State) : (s.storeIn a bs).seq = s.seq := rfl
@[simp] theorem State.storeIn_done (a : Nat) (bs : List Byte) (s : State) : (s.storeIn a bs).done = s.done := rfl
@[simp] theorem State.storeIn_err (a : Nat) (bs : List Byte) (s : State) : (s.storeIn a bs).err = s.err := rfl
@[simp] theorem State.storeIn_drop (a : Nat) (bs : List Byte) (s : State) : (s.storeIn a bs).drop = s.drop := rfl
@[simp] theorem State.storeIn_treeValid (a : Nat) (bs : List Byte) (s : State) : (s.storeIn a bs).treeValid = s.treeValid := rfl
@[simp] theorem State.storeIn_codesValid (a : Nat) (bs : List Byte) (s : State) : (s.storeIn a bs).codesValid = s.codesValid := rfl
@[simp] theorem State.storeIn_fatal (a : Nat) (bs : List Byte) (s : State) : (s.storeIn a bs).fatal = s.fatal := rfl
@[simp] theorem State.storeIn_errCode (a : Nat) (bs : List Byte) (s : State) : (s.storeIn a bs).errCode = s.errCode := rfl
@[simp] theorem State.storeIn_lastOp (a : Nat) (bs : List Byte) (s : State) : (s.storeIn a bs).lastOp = s.lastOp := rfl
@[simp] theorem State.storeIn_inLen (a : Nat) (bs : List Byte) (s : State) : (s.storeIn a bs).inLen = s.inLen := rfl
@[simp] theorem State.storeIn_outLen (a : Nat) (bs : List Byte) (s : State) : (s.storeIn a bs).outLen = s.outLen := rfl
@[simp] theorem State.storeIn_totalBits (a : Nat) (bs : List Byte) (s : State) : (s.storeIn a bs).totalBits = s.totalBits := rfl
@[simp] theorem State.storeIn_pad (a : Nat) (bs : List Byte) (s : State) : (s.storeIn a bs).pad = s.pad := rfl
@[simp] theorem State.storeIn_nsym (a : Nat) (bs : List Byte) (s : State) : (s.storeIn a bs).nsym = s.nsym := rfl
@[simp] theorem State.storeIn_root (a : Nat) (bs : List Byte) (s : State) : (s.storeIn a bs).root = s.root := rfl
@[simp] theorem State.storeIn_nnodes (a : Nat) (bs : List Byte) (s : State) : (s.storeIn a bs).nnodes = s.nnodes := rfl
@[simp] theorem State.storeIn_irqEn (a : Nat) (bs : List Byte) (s : State) : (s.storeIn a bs).irqEn = s.irqEn := rfl
@[simp] theorem State.storeIn_errInfo (a : Nat) (bs : List Byte) (s : State) : (s.storeIn a bs).errInfo = s.errInfo := rfl
@[simp] theorem State.storeIn_capIn (a : Nat) (bs : List Byte) (s : State) : (s.storeIn a bs).capIn = s.capIn := rfl
@[simp] theorem State.storeIn_capOut (a : Nat) (bs : List Byte) (s : State) : (s.storeIn a bs).capOut = s.capOut := rfl
@[simp] theorem State.storeIn_freq (a : Nat) (bs : List Byte) (s : State) : (s.storeIn a bs).freq = s.freq := rfl
@[simp] theorem State.storeIn_codeLen (a : Nat) (bs : List Byte) (s : State) : (s.storeIn a bs).codeLen = s.codeLen := rfl
@[simp] theorem State.storeIn_codeBits (a : Nat) (bs : List Byte) (s : State) : (s.storeIn a bs).codeBits = s.codeBits := rfl
@[simp] theorem State.storeIn_nodes (a : Nat) (bs : List Byte) (s : State) : (s.storeIn a bs).nodes = s.nodes := rfl
@[simp] theorem State.storeIn_inMem (a : Nat) (bs : List Byte) (s : State) : (s.storeIn a bs).inMem = Memory.writeBytes s.inMem a bs := rfl
@[simp] theorem State.storeIn_outMem (a : Nat) (bs : List Byte) (s : State) : (s.storeIn a bs).outMem = s.outMem := rfl
@[simp] theorem State.storeIn_pq (a : Nat) (bs : List Byte) (s : State) : (s.storeIn a bs).pq = s.pq := rfl
@[simp] theorem State.storeIn_walk (a : Nat) (bs : List Byte) (s : State) : (s.storeIn a bs).walk = s.walk := rfl
@[simp] theorem State.storeIn_inEpoch (a : Nat) (bs : List Byte) (s : State) : (s.storeIn a bs).inEpoch = s.inEpoch := rfl
@[simp] theorem State.storeIn_outEpoch (a : Nat) (bs : List Byte) (s : State) : (s.storeIn a bs).outEpoch = s.outEpoch := rfl
@[simp] theorem State.storeIn_draws (a : Nat) (bs : List Byte) (s : State) : (s.storeIn a bs).draws = s.draws := rfl
@[simp] theorem State.storeIn_script (a : Nat) (bs : List Byte) (s : State) : (s.storeIn a bs).script = s.script := rfl
@[simp] theorem State.storeIn_turns (a : Nat) (bs : List Byte) (s : State) : (s.storeIn a bs).turns = s.turns := rfl
@[simp] theorem State.storeIn_reads (a : Nat) (bs : List Byte) (s : State) : (s.storeIn a bs).reads = s.reads := rfl

/-! ### State.storeOut -/

@[simp] theorem State.storeOut_seq (a : Nat) (bs : List Byte) (s : State) : (s.storeOut a bs).seq = s.seq := rfl
@[simp] theorem State.storeOut_done (a : Nat) (bs : List Byte) (s : State) : (s.storeOut a bs).done = s.done := rfl
@[simp] theorem State.storeOut_err (a : Nat) (bs : List Byte) (s : State) : (s.storeOut a bs).err = s.err := rfl
@[simp] theorem State.storeOut_drop (a : Nat) (bs : List Byte) (s : State) : (s.storeOut a bs).drop = s.drop := rfl
@[simp] theorem State.storeOut_treeValid (a : Nat) (bs : List Byte) (s : State) : (s.storeOut a bs).treeValid = s.treeValid := rfl
@[simp] theorem State.storeOut_codesValid (a : Nat) (bs : List Byte) (s : State) : (s.storeOut a bs).codesValid = s.codesValid := rfl
@[simp] theorem State.storeOut_fatal (a : Nat) (bs : List Byte) (s : State) : (s.storeOut a bs).fatal = s.fatal := rfl
@[simp] theorem State.storeOut_errCode (a : Nat) (bs : List Byte) (s : State) : (s.storeOut a bs).errCode = s.errCode := rfl
@[simp] theorem State.storeOut_lastOp (a : Nat) (bs : List Byte) (s : State) : (s.storeOut a bs).lastOp = s.lastOp := rfl
@[simp] theorem State.storeOut_inLen (a : Nat) (bs : List Byte) (s : State) : (s.storeOut a bs).inLen = s.inLen := rfl
@[simp] theorem State.storeOut_outLen (a : Nat) (bs : List Byte) (s : State) : (s.storeOut a bs).outLen = s.outLen := rfl
@[simp] theorem State.storeOut_totalBits (a : Nat) (bs : List Byte) (s : State) : (s.storeOut a bs).totalBits = s.totalBits := rfl
@[simp] theorem State.storeOut_pad (a : Nat) (bs : List Byte) (s : State) : (s.storeOut a bs).pad = s.pad := rfl
@[simp] theorem State.storeOut_nsym (a : Nat) (bs : List Byte) (s : State) : (s.storeOut a bs).nsym = s.nsym := rfl
@[simp] theorem State.storeOut_root (a : Nat) (bs : List Byte) (s : State) : (s.storeOut a bs).root = s.root := rfl
@[simp] theorem State.storeOut_nnodes (a : Nat) (bs : List Byte) (s : State) : (s.storeOut a bs).nnodes = s.nnodes := rfl
@[simp] theorem State.storeOut_irqEn (a : Nat) (bs : List Byte) (s : State) : (s.storeOut a bs).irqEn = s.irqEn := rfl
@[simp] theorem State.storeOut_errInfo (a : Nat) (bs : List Byte) (s : State) : (s.storeOut a bs).errInfo = s.errInfo := rfl
@[simp] theorem State.storeOut_capIn (a : Nat) (bs : List Byte) (s : State) : (s.storeOut a bs).capIn = s.capIn := rfl
@[simp] theorem State.storeOut_capOut (a : Nat) (bs : List Byte) (s : State) : (s.storeOut a bs).capOut = s.capOut := rfl
@[simp] theorem State.storeOut_freq (a : Nat) (bs : List Byte) (s : State) : (s.storeOut a bs).freq = s.freq := rfl
@[simp] theorem State.storeOut_codeLen (a : Nat) (bs : List Byte) (s : State) : (s.storeOut a bs).codeLen = s.codeLen := rfl
@[simp] theorem State.storeOut_codeBits (a : Nat) (bs : List Byte) (s : State) : (s.storeOut a bs).codeBits = s.codeBits := rfl
@[simp] theorem State.storeOut_nodes (a : Nat) (bs : List Byte) (s : State) : (s.storeOut a bs).nodes = s.nodes := rfl
@[simp] theorem State.storeOut_inMem (a : Nat) (bs : List Byte) (s : State) : (s.storeOut a bs).inMem = s.inMem := rfl
@[simp] theorem State.storeOut_outMem (a : Nat) (bs : List Byte) (s : State) : (s.storeOut a bs).outMem = Memory.writeBytes s.outMem a bs := rfl
@[simp] theorem State.storeOut_pq (a : Nat) (bs : List Byte) (s : State) : (s.storeOut a bs).pq = s.pq := rfl
@[simp] theorem State.storeOut_walk (a : Nat) (bs : List Byte) (s : State) : (s.storeOut a bs).walk = s.walk := rfl
@[simp] theorem State.storeOut_inEpoch (a : Nat) (bs : List Byte) (s : State) : (s.storeOut a bs).inEpoch = s.inEpoch := rfl
@[simp] theorem State.storeOut_outEpoch (a : Nat) (bs : List Byte) (s : State) : (s.storeOut a bs).outEpoch = s.outEpoch := rfl
@[simp] theorem State.storeOut_draws (a : Nat) (bs : List Byte) (s : State) : (s.storeOut a bs).draws = s.draws := rfl
@[simp] theorem State.storeOut_script (a : Nat) (bs : List Byte) (s : State) : (s.storeOut a bs).script = s.script := rfl
@[simp] theorem State.storeOut_turns (a : Nat) (bs : List Byte) (s : State) : (s.storeOut a bs).turns = s.turns := rfl
@[simp] theorem State.storeOut_reads (a : Nat) (bs : List Byte) (s : State) : (s.storeOut a bs).reads = s.reads := rfl

/-! ### State.tookDraw -/

@[simp] theorem State.tookDraw_seq (s : State) : (s.tookDraw).seq = s.seq := rfl
@[simp] theorem State.tookDraw_done (s : State) : (s.tookDraw).done = s.done := rfl
@[simp] theorem State.tookDraw_err (s : State) : (s.tookDraw).err = s.err := rfl
@[simp] theorem State.tookDraw_drop (s : State) : (s.tookDraw).drop = s.drop := rfl
@[simp] theorem State.tookDraw_treeValid (s : State) : (s.tookDraw).treeValid = s.treeValid := rfl
@[simp] theorem State.tookDraw_codesValid (s : State) : (s.tookDraw).codesValid = s.codesValid := rfl
@[simp] theorem State.tookDraw_fatal (s : State) : (s.tookDraw).fatal = s.fatal := rfl
@[simp] theorem State.tookDraw_errCode (s : State) : (s.tookDraw).errCode = s.errCode := rfl
@[simp] theorem State.tookDraw_lastOp (s : State) : (s.tookDraw).lastOp = s.lastOp := rfl
@[simp] theorem State.tookDraw_inLen (s : State) : (s.tookDraw).inLen = s.inLen := rfl
@[simp] theorem State.tookDraw_outLen (s : State) : (s.tookDraw).outLen = s.outLen := rfl
@[simp] theorem State.tookDraw_totalBits (s : State) : (s.tookDraw).totalBits = s.totalBits := rfl
@[simp] theorem State.tookDraw_pad (s : State) : (s.tookDraw).pad = s.pad := rfl
@[simp] theorem State.tookDraw_nsym (s : State) : (s.tookDraw).nsym = s.nsym := rfl
@[simp] theorem State.tookDraw_root (s : State) : (s.tookDraw).root = s.root := rfl
@[simp] theorem State.tookDraw_nnodes (s : State) : (s.tookDraw).nnodes = s.nnodes := rfl
@[simp] theorem State.tookDraw_irqEn (s : State) : (s.tookDraw).irqEn = s.irqEn := rfl
@[simp] theorem State.tookDraw_errInfo (s : State) : (s.tookDraw).errInfo = s.errInfo := rfl
@[simp] theorem State.tookDraw_capIn (s : State) : (s.tookDraw).capIn = s.capIn := rfl
@[simp] theorem State.tookDraw_capOut (s : State) : (s.tookDraw).capOut = s.capOut := rfl
@[simp] theorem State.tookDraw_freq (s : State) : (s.tookDraw).freq = s.freq := rfl
@[simp] theorem State.tookDraw_codeLen (s : State) : (s.tookDraw).codeLen = s.codeLen := rfl
@[simp] theorem State.tookDraw_codeBits (s : State) : (s.tookDraw).codeBits = s.codeBits := rfl
@[simp] theorem State.tookDraw_nodes (s : State) : (s.tookDraw).nodes = s.nodes := rfl
@[simp] theorem State.tookDraw_inMem (s : State) : (s.tookDraw).inMem = s.inMem := rfl
@[simp] theorem State.tookDraw_outMem (s : State) : (s.tookDraw).outMem = s.outMem := rfl
@[simp] theorem State.tookDraw_pq (s : State) : (s.tookDraw).pq = s.pq := rfl
@[simp] theorem State.tookDraw_walk (s : State) : (s.tookDraw).walk = s.walk := rfl
@[simp] theorem State.tookDraw_inEpoch (s : State) : (s.tookDraw).inEpoch = s.inEpoch := rfl
@[simp] theorem State.tookDraw_outEpoch (s : State) : (s.tookDraw).outEpoch = s.outEpoch := rfl
@[simp] theorem State.tookDraw_draws (s : State) : (s.tookDraw).draws = s.draws + 1 := rfl
@[simp] theorem State.tookDraw_script (s : State) : (s.tookDraw).script = s.script := rfl
@[simp] theorem State.tookDraw_turns (s : State) : (s.tookDraw).turns = s.turns := rfl
@[simp] theorem State.tookDraw_reads (s : State) : (s.tookDraw).reads = s.reads := rfl

/-! ### State.takeTurn -/

@[simp] theorem State.takeTurn_seq (s : State) : (s.takeTurn).seq = s.seq := rfl
@[simp] theorem State.takeTurn_done (s : State) : (s.takeTurn).done = s.done := rfl
@[simp] theorem State.takeTurn_err (s : State) : (s.takeTurn).err = s.err := rfl
@[simp] theorem State.takeTurn_drop (s : State) : (s.takeTurn).drop = s.drop := rfl
@[simp] theorem State.takeTurn_treeValid (s : State) : (s.takeTurn).treeValid = s.treeValid := rfl
@[simp] theorem State.takeTurn_codesValid (s : State) : (s.takeTurn).codesValid = s.codesValid := rfl
@[simp] theorem State.takeTurn_fatal (s : State) : (s.takeTurn).fatal = s.fatal := rfl
@[simp] theorem State.takeTurn_errCode (s : State) : (s.takeTurn).errCode = s.errCode := rfl
@[simp] theorem State.takeTurn_lastOp (s : State) : (s.takeTurn).lastOp = s.lastOp := rfl
@[simp] theorem State.takeTurn_inLen (s : State) : (s.takeTurn).inLen = s.inLen := rfl
@[simp] theorem State.takeTurn_outLen (s : State) : (s.takeTurn).outLen = s.outLen := rfl
@[simp] theorem State.takeTurn_totalBits (s : State) : (s.takeTurn).totalBits = s.totalBits := rfl
@[simp] theorem State.takeTurn_pad (s : State) : (s.takeTurn).pad = s.pad := rfl
@[simp] theorem State.takeTurn_nsym (s : State) : (s.takeTurn).nsym = s.nsym := rfl
@[simp] theorem State.takeTurn_root (s : State) : (s.takeTurn).root = s.root := rfl
@[simp] theorem State.takeTurn_nnodes (s : State) : (s.takeTurn).nnodes = s.nnodes := rfl
@[simp] theorem State.takeTurn_irqEn (s : State) : (s.takeTurn).irqEn = s.irqEn := rfl
@[simp] theorem State.takeTurn_errInfo (s : State) : (s.takeTurn).errInfo = s.errInfo := rfl
@[simp] theorem State.takeTurn_capIn (s : State) : (s.takeTurn).capIn = s.capIn := rfl
@[simp] theorem State.takeTurn_capOut (s : State) : (s.takeTurn).capOut = s.capOut := rfl
@[simp] theorem State.takeTurn_freq (s : State) : (s.takeTurn).freq = s.freq := rfl
@[simp] theorem State.takeTurn_codeLen (s : State) : (s.takeTurn).codeLen = s.codeLen := rfl
@[simp] theorem State.takeTurn_codeBits (s : State) : (s.takeTurn).codeBits = s.codeBits := rfl
@[simp] theorem State.takeTurn_nodes (s : State) : (s.takeTurn).nodes = s.nodes := rfl
@[simp] theorem State.takeTurn_inMem (s : State) : (s.takeTurn).inMem = s.inMem := rfl
@[simp] theorem State.takeTurn_outMem (s : State) : (s.takeTurn).outMem = s.outMem := rfl
@[simp] theorem State.takeTurn_pq (s : State) : (s.takeTurn).pq = s.pq := rfl
@[simp] theorem State.takeTurn_walk (s : State) : (s.takeTurn).walk = s.walk := rfl
@[simp] theorem State.takeTurn_inEpoch (s : State) : (s.takeTurn).inEpoch = s.inEpoch := rfl
@[simp] theorem State.takeTurn_outEpoch (s : State) : (s.takeTurn).outEpoch = s.outEpoch := rfl
@[simp] theorem State.takeTurn_draws (s : State) : (s.takeTurn).draws = s.draws := rfl
@[simp] theorem State.takeTurn_script (s : State) : (s.takeTurn).script = s.script := rfl
@[simp] theorem State.takeTurn_turns (s : State) : (s.takeTurn).turns = s.turns.tail := rfl
@[simp] theorem State.takeTurn_reads (s : State) : (s.takeTurn).reads = s.reads := rfl

/-! ### State.popScript -/

@[simp] theorem State.popScript_seq (s : State) : (s.popScript).seq = s.seq := rfl
@[simp] theorem State.popScript_done (s : State) : (s.popScript).done = s.done := rfl
@[simp] theorem State.popScript_err (s : State) : (s.popScript).err = s.err := rfl
@[simp] theorem State.popScript_drop (s : State) : (s.popScript).drop = s.drop := rfl
@[simp] theorem State.popScript_treeValid (s : State) : (s.popScript).treeValid = s.treeValid := rfl
@[simp] theorem State.popScript_codesValid (s : State) : (s.popScript).codesValid = s.codesValid := rfl
@[simp] theorem State.popScript_fatal (s : State) : (s.popScript).fatal = s.fatal := rfl
@[simp] theorem State.popScript_errCode (s : State) : (s.popScript).errCode = s.errCode := rfl
@[simp] theorem State.popScript_lastOp (s : State) : (s.popScript).lastOp = s.lastOp := rfl
@[simp] theorem State.popScript_inLen (s : State) : (s.popScript).inLen = s.inLen := rfl
@[simp] theorem State.popScript_outLen (s : State) : (s.popScript).outLen = s.outLen := rfl
@[simp] theorem State.popScript_totalBits (s : State) : (s.popScript).totalBits = s.totalBits := rfl
@[simp] theorem State.popScript_pad (s : State) : (s.popScript).pad = s.pad := rfl
@[simp] theorem State.popScript_nsym (s : State) : (s.popScript).nsym = s.nsym := rfl
@[simp] theorem State.popScript_root (s : State) : (s.popScript).root = s.root := rfl
@[simp] theorem State.popScript_nnodes (s : State) : (s.popScript).nnodes = s.nnodes := rfl
@[simp] theorem State.popScript_irqEn (s : State) : (s.popScript).irqEn = s.irqEn := rfl
@[simp] theorem State.popScript_errInfo (s : State) : (s.popScript).errInfo = s.errInfo := rfl
@[simp] theorem State.popScript_capIn (s : State) : (s.popScript).capIn = s.capIn := rfl
@[simp] theorem State.popScript_capOut (s : State) : (s.popScript).capOut = s.capOut := rfl
@[simp] theorem State.popScript_freq (s : State) : (s.popScript).freq = s.freq := rfl
@[simp] theorem State.popScript_codeLen (s : State) : (s.popScript).codeLen = s.codeLen := rfl
@[simp] theorem State.popScript_codeBits (s : State) : (s.popScript).codeBits = s.codeBits := rfl
@[simp] theorem State.popScript_nodes (s : State) : (s.popScript).nodes = s.nodes := rfl
@[simp] theorem State.popScript_inMem (s : State) : (s.popScript).inMem = s.inMem := rfl
@[simp] theorem State.popScript_outMem (s : State) : (s.popScript).outMem = s.outMem := rfl
@[simp] theorem State.popScript_pq (s : State) : (s.popScript).pq = s.pq := rfl
@[simp] theorem State.popScript_walk (s : State) : (s.popScript).walk = s.walk := rfl
@[simp] theorem State.popScript_inEpoch (s : State) : (s.popScript).inEpoch = s.inEpoch := rfl
@[simp] theorem State.popScript_outEpoch (s : State) : (s.popScript).outEpoch = s.outEpoch := rfl
@[simp] theorem State.popScript_draws (s : State) : (s.popScript).draws = s.draws := rfl
@[simp] theorem State.popScript_script (s : State) : (s.popScript).script = s.script.tail := rfl
@[simp] theorem State.popScript_turns (s : State) : (s.popScript).turns = s.turns := rfl
@[simp] theorem State.popScript_reads (s : State) : (s.popScript).reads = s.reads := rfl

/-! ### State.logRead -/

@[simp] theorem State.logRead_seq (a v : Word) (s : State) : (s.logRead a v).seq = s.seq := rfl
@[simp] theorem State.logRead_done (a v : Word) (s : State) : (s.logRead a v).done = s.done := rfl
@[simp] theorem State.logRead_err (a v : Word) (s : State) : (s.logRead a v).err = s.err := rfl
@[simp] theorem State.logRead_drop (a v : Word) (s : State) : (s.logRead a v).drop = s.drop := rfl
@[simp] theorem State.logRead_treeValid (a v : Word) (s : State) : (s.logRead a v).treeValid = s.treeValid := rfl
@[simp] theorem State.logRead_codesValid (a v : Word) (s : State) : (s.logRead a v).codesValid = s.codesValid := rfl
@[simp] theorem State.logRead_fatal (a v : Word) (s : State) : (s.logRead a v).fatal = s.fatal := rfl
@[simp] theorem State.logRead_errCode (a v : Word) (s : State) : (s.logRead a v).errCode = s.errCode := rfl
@[simp] theorem State.logRead_lastOp (a v : Word) (s : State) : (s.logRead a v).lastOp = s.lastOp := rfl
@[simp] theorem State.logRead_inLen (a v : Word) (s : State) : (s.logRead a v).inLen = s.inLen := rfl
@[simp] theorem State.logRead_outLen (a v : Word) (s : State) : (s.logRead a v).outLen = s.outLen := rfl
@[simp] theorem State.logRead_totalBits (a v : Word) (s : State) : (s.logRead a v).totalBits = s.totalBits := rfl
@[simp] theorem State.logRead_pad (a v : Word) (s : State) : (s.logRead a v).pad = s.pad := rfl
@[simp] theorem State.logRead_nsym (a v : Word) (s : State) : (s.logRead a v).nsym = s.nsym := rfl
@[simp] theorem State.logRead_root (a v : Word) (s : State) : (s.logRead a v).root = s.root := rfl
@[simp] theorem State.logRead_nnodes (a v : Word) (s : State) : (s.logRead a v).nnodes = s.nnodes := rfl
@[simp] theorem State.logRead_irqEn (a v : Word) (s : State) : (s.logRead a v).irqEn = s.irqEn := rfl
@[simp] theorem State.logRead_errInfo (a v : Word) (s : State) : (s.logRead a v).errInfo = s.errInfo := rfl
@[simp] theorem State.logRead_capIn (a v : Word) (s : State) : (s.logRead a v).capIn = s.capIn := rfl
@[simp] theorem State.logRead_capOut (a v : Word) (s : State) : (s.logRead a v).capOut = s.capOut := rfl
@[simp] theorem State.logRead_freq (a v : Word) (s : State) : (s.logRead a v).freq = s.freq := rfl
@[simp] theorem State.logRead_codeLen (a v : Word) (s : State) : (s.logRead a v).codeLen = s.codeLen := rfl
@[simp] theorem State.logRead_codeBits (a v : Word) (s : State) : (s.logRead a v).codeBits = s.codeBits := rfl
@[simp] theorem State.logRead_nodes (a v : Word) (s : State) : (s.logRead a v).nodes = s.nodes := rfl
@[simp] theorem State.logRead_inMem (a v : Word) (s : State) : (s.logRead a v).inMem = s.inMem := rfl
@[simp] theorem State.logRead_outMem (a v : Word) (s : State) : (s.logRead a v).outMem = s.outMem := rfl
@[simp] theorem State.logRead_pq (a v : Word) (s : State) : (s.logRead a v).pq = s.pq := rfl
@[simp] theorem State.logRead_walk (a v : Word) (s : State) : (s.logRead a v).walk = s.walk := rfl
@[simp] theorem State.logRead_inEpoch (a v : Word) (s : State) : (s.logRead a v).inEpoch = s.inEpoch := rfl
@[simp] theorem State.logRead_outEpoch (a v : Word) (s : State) : (s.logRead a v).outEpoch = s.outEpoch := rfl
@[simp] theorem State.logRead_draws (a v : Word) (s : State) : (s.logRead a v).draws = s.draws := rfl
@[simp] theorem State.logRead_script (a v : Word) (s : State) : (s.logRead a v).script = s.script := rfl
@[simp] theorem State.logRead_turns (a v : Word) (s : State) : (s.logRead a v).turns = s.turns := rfl
@[simp] theorem State.logRead_reads (a v : Word) (s : State) : (s.logRead a v).reads = (a, v) :: s.reads := rfl

/-! ### State.placeCommand -/

@[simp] theorem State.placeCommand_seq (w : Word) (s : State) : (s.placeCommand w).seq = .busy w := rfl
@[simp] theorem State.placeCommand_done (w : Word) (s : State) : (s.placeCommand w).done = false := rfl
@[simp] theorem State.placeCommand_err (w : Word) (s : State) : (s.placeCommand w).err = false := rfl
@[simp] theorem State.placeCommand_drop (w : Word) (s : State) : (s.placeCommand w).drop = s.drop := rfl
@[simp] theorem State.placeCommand_treeValid (w : Word) (s : State) : (s.placeCommand w).treeValid = s.treeValid := rfl
@[simp] theorem State.placeCommand_codesValid (w : Word) (s : State) : (s.placeCommand w).codesValid = s.codesValid := rfl
@[simp] theorem State.placeCommand_fatal (w : Word) (s : State) : (s.placeCommand w).fatal = s.fatal := rfl
@[simp] theorem State.placeCommand_errCode (w : Word) (s : State) : (s.placeCommand w).errCode = s.errCode := rfl
@[simp] theorem State.placeCommand_lastOp (w : Word) (s : State) : (s.placeCommand w).lastOp = opField w := rfl
@[simp] theorem State.placeCommand_inLen (w : Word) (s : State) : (s.placeCommand w).inLen = s.inLen := rfl
@[simp] theorem State.placeCommand_outLen (w : Word) (s : State) : (s.placeCommand w).outLen = s.outLen := rfl
@[simp] theorem State.placeCommand_totalBits (w : Word) (s : State) : (s.placeCommand w).totalBits = s.totalBits := rfl
@[simp] theorem State.placeCommand_pad (w : Word) (s : State) : (s.placeCommand w).pad = s.pad := rfl
@[simp] theorem State.placeCommand_nsym (w : Word) (s : State) : (s.placeCommand w).nsym = s.nsym := rfl
@[simp] theorem State.placeCommand_root (w : Word) (s : State) : (s.placeCommand w).root = s.root := rfl
@[simp] theorem State.placeCommand_nnodes (w : Word) (s : State) : (s.placeCommand w).nnodes = s.nnodes := rfl
@[simp] theorem State.placeCommand_irqEn (w : Word) (s : State) : (s.placeCommand w).irqEn = s.irqEn := rfl
@[simp] theorem State.placeCommand_errInfo (w : Word) (s : State) : (s.placeCommand w).errInfo = s.errInfo := rfl
@[simp] theorem State.placeCommand_capIn (w : Word) (s : State) : (s.placeCommand w).capIn = s.capIn := rfl
@[simp] theorem State.placeCommand_capOut (w : Word) (s : State) : (s.placeCommand w).capOut = s.capOut := rfl
@[simp] theorem State.placeCommand_freq (w : Word) (s : State) : (s.placeCommand w).freq = s.freq := rfl
@[simp] theorem State.placeCommand_codeLen (w : Word) (s : State) : (s.placeCommand w).codeLen = s.codeLen := rfl
@[simp] theorem State.placeCommand_codeBits (w : Word) (s : State) : (s.placeCommand w).codeBits = s.codeBits := rfl
@[simp] theorem State.placeCommand_nodes (w : Word) (s : State) : (s.placeCommand w).nodes = s.nodes := rfl
@[simp] theorem State.placeCommand_inMem (w : Word) (s : State) : (s.placeCommand w).inMem = s.inMem := rfl
@[simp] theorem State.placeCommand_outMem (w : Word) (s : State) : (s.placeCommand w).outMem = s.outMem := rfl
@[simp] theorem State.placeCommand_pq (w : Word) (s : State) : (s.placeCommand w).pq = s.pq := rfl
@[simp] theorem State.placeCommand_walk (w : Word) (s : State) : (s.placeCommand w).walk = s.walk := rfl
@[simp] theorem State.placeCommand_inEpoch (w : Word) (s : State) : (s.placeCommand w).inEpoch = s.inEpoch := rfl
@[simp] theorem State.placeCommand_outEpoch (w : Word) (s : State) : (s.placeCommand w).outEpoch = s.outEpoch := rfl
@[simp] theorem State.placeCommand_draws (w : Word) (s : State) : (s.placeCommand w).draws = s.draws := rfl
@[simp] theorem State.placeCommand_script (w : Word) (s : State) : (s.placeCommand w).script = s.script := rfl
@[simp] theorem State.placeCommand_turns (w : Word) (s : State) : (s.placeCommand w).turns = [] := rfl
@[simp] theorem State.placeCommand_reads (w : Word) (s : State) : (s.placeCommand w).reads = s.reads := rfl

end Sys2Proof.Machine
end

