-- ==== Sys2Proof/Laws/Ops.lean ====
section
/-! SUPPORT. One spec lemma per shared operation of the life of a command: what the checks, a command's run and its error
completion can do, and what no command changes. -/

namespace Sys2Proof.Machine

/-! ### The checks (R101) -/

theorem checkCommand_eq_none {i : Instr} {s : State} :
    checkCommand i s = none ↔
      s.fatal = false ∧ sequenceOk i s = true ∧ (readsInputCommand i = true → s.inLen.toNat ≤ s.capIn) := by
  unfold checkCommand
  cases s.fatal <;> cases sequenceOk i s <;> cases readsInputCommand i <;> simp

/-- The first failing check raises one of three errors, none of them a data error. -/
theorem checkCommand_eq_some {i : Instr} {s : State} {r : Raise} (h : checkCommand i s = some r) :
    (s.fatal = true ∧ r = ⟨.emptyStructure, 0#32⟩) ∨
      (s.fatal = false ∧ sequenceOk i s = false ∧ r = ⟨.sequenceError, (opcode i).setWidth 32⟩) ∨
        (s.fatal = false ∧ sequenceOk i s = true ∧ readsInputCommand i = true ∧ s.capIn < s.inLen.toNat ∧
          r = ⟨.lengthError, s.inLen⟩) := by
  unfold checkCommand at h
  split at h
  · rename_i hf
    exact .inl ⟨hf, (Option.some.inj h).symm⟩
  · rename_i hf
    have hf : s.fatal = false := by simpa using hf
    split at h
    · rename_i hs
      exact .inr (.inl ⟨hf, by simpa using hs, (Option.some.inj h).symm⟩)
    · rename_i hs
      split at h
      · rename_i hl
        simp only [Bool.and_eq_true, decide_eq_true_eq] at hl
        exact .inr (.inr ⟨hf, by simpa using hs, hl.1, hl.2, (Option.some.inj h).symm⟩)
      · exact absurd h (by simp)

theorem checkCommand_not_data {i : Instr} {s : State} {r : Raise} (h : checkCommand i s = some r) :
    r.err.isData = false := by
  rcases checkCommand_eq_some h with ⟨_, rfl⟩ | ⟨_, _, rfl⟩ | ⟨_, _, _, _, rfl⟩ <;> rfl

/-! ### Error completion (R99, R100) -/

theorem failCommand_of_not_data {i : Instr} {r : Raise} (s : State) (h : r.err.isData = false) :
    s.failCommand i r = s.raiseError r := by
  simp [State.failCommand, h]

theorem failCommand_of_data {i : Instr} {r : Raise} (s : State) (hi : isCodecCommand i = true) (h : r.err.isData = true) :
    s.failCommand i r = (s.raiseError r).discardOutput := by
  simp [State.failCommand, hi, h]

theorem failCommand_cases (i : Instr) (r : Raise) (s : State) :
    (s.failCommand i r = s.raiseError r) ∨
      (isCodecCommand i = true ∧ r.err.isData = true ∧ s.failCommand i r = (s.raiseError r).discardOutput) := by
  by_cases h : (isCodecCommand i && r.err.isData) = true
  · rw [Bool.and_eq_true] at h
    exact .inr ⟨h.1, h.2, failCommand_of_data s h.1 h.2⟩
  · exact .inl (by simp [State.failCommand, h])

/-! ### A command's run (R97) -/

theorem runCommand_of_check {i : Instr} {body : State → Except Raise State} {s : State} {r : Raise}
    (h : checkCommand i s = some r) : s.runCommand i body = s.raiseError r := by
  rw [State.runCommand, h]
  exact failCommand_of_not_data s (checkCommand_not_data h)

theorem runCommand_of_ok {i : Instr} {body : State → Except Raise State} {s t : State}
    (h : checkCommand i s = none) (hb : body s = .ok t) : s.runCommand i body = t.succeed := by
  simp [State.runCommand, h, hb]

theorem runCommand_of_error {i : Instr} {body : State → Except Raise State} {s : State} {r : Raise}
    (h : checkCommand i s = none) (hb : body s = .error r) : s.runCommand i body = s.failCommand i r := by
  simp [State.runCommand, h, hb]

/-- Everything a command's completion step can do. -/
theorem runCommand_cases (i : Instr) (body : State → Except Raise State) (s : State) :
    (∃ r, checkCommand i s = some r ∧ s.runCommand i body = s.raiseError r) ∨
      (∃ t, checkCommand i s = none ∧ body s = .ok t ∧ s.runCommand i body = t.succeed) ∨
        (∃ r, checkCommand i s = none ∧ body s = .error r ∧ s.runCommand i body = s.failCommand i r) := by
  cases hc : checkCommand i s with
  | some r => exact .inl ⟨r, rfl, runCommand_of_check hc⟩
  | none =>
    cases hb : body s with
    | ok t => exact .inr (.inl ⟨t, rfl, rfl, runCommand_of_ok hc hb⟩)
    | error r => exact .inr (.inr ⟨r, rfl, rfl, runCommand_of_error hc hb⟩)

/-- The pseudocode of each command (R104, R105, R111, R127, R141, R150, R166). -/
def bodyOf : Instr → State → Except Raise State
  | .nop => fun s => .ok s
  | .freqCount => fun s => .ok (s.installCounts (countsOf s.inputBytes))
  | .buildTree => buildTreeBody
  | .genCodes => genCodesBody
  | .encode => encodeBody
  | .decode => decodeBody
  | .clear => fun s => .ok s.clearAll

/-- Every command completes: exec answers the state its run leaves. -/
theorem exec_eq_runCommand (i : Instr) (s : State) : exec i s = .next (s.runCommand i (bodyOf i)) := by
  cases i <;> rfl

/-! ### What no command changes -/

/-- The input side of the block, the outside and the bits that only host writes or acceptance write are equal. -/
structure SameInputs (s t : State) : Prop where
  inMem : t.inMem = s.inMem
  inEpoch : t.inEpoch = s.inEpoch
  inLen : t.inLen = s.inLen
  capIn : t.capIn = s.capIn
  capOut : t.capOut = s.capOut
  irqEn : t.irqEn = s.irqEn
  drop : t.drop = s.drop
  lastOp : t.lastOp = s.lastOp
  script : t.script = s.script
  turns : t.turns = s.turns
  reads : t.reads = s.reads

theorem SameInputs.rfl' (s : State) : SameInputs s s := ⟨rfl, rfl, rfl, rfl, rfl, rfl, rfl, rfl, rfl, rfl, rfl⟩

theorem sameInputs_trans {s t u : State} (h : SameInputs s t) (h' : SameInputs t u) : SameInputs s u :=
  ⟨h'.1.trans h.1, h'.2.trans h.2, h'.3.trans h.3, h'.4.trans h.4, h'.5.trans h.5, h'.6.trans h.6, h'.7.trans h.7,
    h'.8.trans h.8, h'.9.trans h.9, h'.10.trans h.10, h'.11.trans h.11⟩

theorem sameInputs_succeed (s : State) : SameInputs s s.succeed := ⟨rfl, rfl, rfl, rfl, rfl, rfl, rfl, rfl, rfl, rfl, rfl⟩

theorem sameInputs_raiseError (r : Raise) (s : State) : SameInputs s (s.raiseError r) :=
  ⟨rfl, rfl, rfl, rfl, rfl, rfl, rfl, rfl, rfl, rfl, rfl⟩

theorem sameInputs_failCommand (i : Instr) (r : Raise) (s : State) : SameInputs s (s.failCommand i r) := by
  rcases failCommand_cases i r s with h | ⟨_, _, h⟩ <;> rw [h] <;> exact ⟨rfl, rfl, rfl, rfl, rfl, rfl, rfl, rfl, rfl, rfl, rfl⟩

theorem sameInputs_installOutput (out : List Byte) (n : Nat) (p : BitVec 3) (s : State) :
    SameInputs s (s.installOutput out n p) := ⟨rfl, rfl, rfl, rfl, rfl, rfl, rfl, rfl, rfl, rfl, rfl⟩

/-- What the pseudocode of BUILD_TREE leaves. -/
theorem buildTreeBody_eq_ok {s t : State} (h : buildTreeBody s = .ok t) :
    ∃ tr, treeOf s.freq = .ok tr ∧ t = s.installTree tr.nodes tr.nsym tr.root tr.nnodes := by
  unfold buildTreeBody at h
  cases ht : treeOf s.freq with
  | error r => simp [ht] at h
  | ok tr =>
    simp only [ht, Except.ok.injEq] at h
    exact ⟨tr, rfl, h.symm⟩

/-- What the pseudocode of a successful ENCODE leaves, and when it succeeds (R150). -/
theorem encodeBody_eq_ok {s t : State} (h : encodeBody s = .ok t) :
    firstUncoded s.codeLen s.inputBytes 0 = none ∧ encodedSize (codeBitCount s.codeLen s.inputBytes) ≤ s.capOut ∧
      t = s.installOutput (encodedBuffer s s.inputBytes) (codeBitCount s.codeLen s.inputBytes)
        (BitVec.ofNat 3 (paddingOf (codeBitCount s.codeLen s.inputBytes))) := by
  unfold encodeBody at h
  cases hf : firstUncoded s.codeLen s.inputBytes 0 with
  | some i => simp [hf] at h
  | none =>
    simp only [hf] at h
    split at h
    · simp at h
    · rename_i hn
      exact ⟨rfl, by omega, (Except.ok.inj h).symm⟩

/-- What the pseudocode of a successful DECODE leaves, and when it succeeds (R166). -/
theorem decodeBody_eq_ok {s t : State} (h : decodeBody s = .ok t) :
    ∃ p payload out, s.inputBytes = p :: payload ∧ p.toNat ≤ 7 ∧ p.toNat ≤ 8 * payload.length ∧
      decodeBits s.nodes s.root s.capOut (trimmedBits payload p.toNat) = .ok out ∧
        t = s.installOutput out (8 * payload.length - p.toNat) (p.setWidth 3) := by
  unfold decodeBody at h
  cases hi : s.inputBytes with
  | nil => simp [hi] at h
  | cons p payload =>
    simp only [hi] at h
    split at h
    · simp at h
    · rename_i hp
      cases hd : decodeBits s.nodes s.root s.capOut (trimmedBits payload p.toNat) with
      | error r => simp [hd] at h
      | ok out =>
        simp only [hd, Except.ok.injEq] at h
        exact ⟨p, payload, out, rfl, by omega, by omega, hd, h.symm⟩

theorem sameInputs_bodyOf {i : Instr} {s t : State} (h : bodyOf i s = .ok t) : SameInputs s t := by
  cases i with
  | nop => cases h; exact SameInputs.rfl' s
  | freqCount => cases h; exact ⟨rfl, rfl, rfl, rfl, rfl, rfl, rfl, rfl, rfl, rfl, rfl⟩
  | buildTree =>
    obtain ⟨tr, _, rfl⟩ := buildTreeBody_eq_ok h
    exact ⟨rfl, rfl, rfl, rfl, rfl, rfl, rfl, rfl, rfl, rfl, rfl⟩
  | genCodes => cases h; exact ⟨rfl, rfl, rfl, rfl, rfl, rfl, rfl, rfl, rfl, rfl, rfl⟩
  | encode =>
    obtain ⟨_, _, rfl⟩ := encodeBody_eq_ok h
    exact sameInputs_installOutput _ _ _ s
  | decode =>
    obtain ⟨_, _, _, _, _, _, _, rfl⟩ := decodeBody_eq_ok h
    exact sameInputs_installOutput _ _ _ s
  | clear => cases h; exact ⟨rfl, rfl, rfl, rfl, rfl, rfl, rfl, rfl, rfl, rfl, rfl⟩

theorem sameInputs_runCommand (i : Instr) (s : State) : SameInputs s (s.runCommand i (bodyOf i)) := by
  rcases runCommand_cases i (bodyOf i) s with ⟨r, _, h⟩ | ⟨t, _, hb, h⟩ | ⟨r, _, _, h⟩ <;> rw [h]
  · exact sameInputs_raiseError r s
  · exact sameInputs_trans (sameInputs_bodyOf hb) (sameInputs_succeed t)
  · exact sameInputs_failCommand i r s

end Sys2Proof.Machine
end

