-- ==== Sys2Proof/Laws/PerInstr.lean ====
section
/-! SUPPORT. Statements that hold of every command, one lemma per constructor. -/

namespace Sys2Proof.Laws.LegalEncoding

/-- R80 to R82: a command is well formed, its word is legal with its opcode in `OP` and 0 in `RSVD`, and the word decodes to it. -/
def Statement (i : Instr) : Prop :=
  i.wf = true ∧ legalWord (encodeWord i) = true ∧ opField (encodeWord i) = opcode i ∧ rsvdField (encodeWord i) = 0#28 ∧
    decodeWord (encodeWord i) = .ok i

theorem nop : Statement .nop := ⟨rfl, rfl, rfl, rfl, rfl⟩

theorem freqCount : Statement .freqCount := ⟨rfl, rfl, rfl, rfl, rfl⟩

theorem buildTree : Statement .buildTree := ⟨rfl, rfl, rfl, rfl, rfl⟩

theorem genCodes : Statement .genCodes := ⟨rfl, rfl, rfl, rfl, rfl⟩

theorem encode : Statement .encode := ⟨rfl, rfl, rfl, rfl, rfl⟩

theorem decode : Statement .decode := ⟨rfl, rfl, rfl, rfl, rfl⟩

theorem clear : Statement .clear := ⟨rfl, rfl, rfl, rfl, rfl⟩

end Sys2Proof.Laws.LegalEncoding
end

