-- ==== Sys2Proof/Laws/Step.lean ====
section
/-! SUPPORT. Laws of the bus port and of the two agents: everything a host transaction, a Core step and a machine step can do. -/

namespace Sys2Proof.Machine

theorem busy_eq_true {s : State} : s.busy = true ↔ s.seq ≠ .idle := by simp [State.busy]

theorem busy_eq_false {s : State} : s.busy = false ↔ s.seq = .idle := by simp [State.busy]

/-- Everything a bus read that gets `OKAY` does: it returns the defined word and changes nothing, or a draw (R58, R67). -/
theorem busRead_eq_some {addr v : Word} {s t : State} (h : busRead addr s = some (v, t)) :
    ∃ tg, decodeAddr s.capIn s.capOut addr = some tg ∧
      ((s.seq ≠ .idle ∧ tg.drawnWhileBusy = true ∧ v = Config.busyRead s.draws ∧ t = s.tookDraw) ∨
        (¬(s.seq ≠ .idle ∧ tg.drawnWhileBusy = true) ∧ v = s.targetWord tg ∧ t = s)) := by
  unfold busRead at h
  cases hd : decodeAddr s.capIn s.capOut addr with
  | none => simp [hd] at h
  | some tg =>
    refine ⟨tg, rfl, ?_⟩
    simp only [hd, Option.some.injEq, State.readTarget, Bool.and_eq_true, busy_eq_true] at h
    split at h
    · rename_i hb
      exact .inl ⟨hb.1, hb.2, congrArg Prod.fst h.symm, congrArg Prod.snd h.symm⟩
    · rename_i hb
      exact .inr ⟨hb, congrArg Prod.fst h.symm, congrArg Prod.snd h.symm⟩

/-- Everything a bus write that gets `OKAY` does: it is dropped (R214), or its target takes the word. -/
theorem busWrite_eq_some {addr d : Word} {s t : State} (h : busWrite addr d s = some t) :
    ∃ tg, decodeAddr s.capIn s.capOut addr = some tg ∧
      ((s.seq ≠ .idle ∧ tg.guarded = true ∧ t = s.dropWrite) ∨
        (¬(s.seq ≠ .idle ∧ tg.guarded = true) ∧ t = s.writeTarget tg d)) := by
  unfold busWrite at h
  cases hd : decodeAddr s.capIn s.capOut addr with
  | none => simp [hd] at h
  | some tg =>
    refine ⟨tg, rfl, ?_⟩
    simp only [hd, Option.some.injEq, Bool.and_eq_true, busy_eq_true] at h
    split at h
    · rename_i hb
      exact .inl ⟨hb.1, hb.2, h.symm⟩
    · rename_i hb
      exact .inr ⟨hb, h.symm⟩

/-- Every target is guarded, read-only, STATUS or IRQ_EN (R23, R64, R214). -/
theorem target_guarded_or_readOnly (tg : Target) :
    tg.guarded = true ∨ tg.readOnly = true ∨ tg = .status ∨ tg = .irqEn := by
  cases tg <;> simp [Target.guarded, Target.readOnly]

theorem writeTarget_readOnly {tg : Target} (h : tg.readOnly = true) (d : Word) (s : State) : s.writeTarget tg d = s := by
  cases tg <;> simp [Target.readOnly] at h <;> rfl

/-- Everything the Core's step can do (R97, R206). -/
theorem coreStep_cases (s : State) :
    (s.seq = .idle ∧ coreStep s = .next s) ∨
      (s.seq = .init ∧ coreStep s = .next s.initialise) ∨
        (∃ w i, s.seq = .busy w ∧ decodeWord w = .ok i ∧ coreStep s = .next (s.runCommand i (bodyOf i))) ∨
          (∃ w e, s.seq = .busy w ∧ decodeWord w = .error e ∧ coreStep s = .next (s.failIllegal w)) := by
  cases hs : s.seq with
  | idle => exact .inl ⟨rfl, by simp [coreStep, hs]⟩
  | init => exact .inr (.inl ⟨rfl, by simp [coreStep, hs]⟩)
  | busy w =>
    cases hd : decodeWord w with
    | ok i => exact .inr (.inr (.inl ⟨w, i, rfl, hd, by simp [coreStep, hs, hd, exec_eq_runCommand]⟩))
    | error e => exact .inr (.inr (.inr ⟨w, e, rfl, hd, by simp [coreStep, hs, hd]⟩))

/-- Everything the outside's step can do when it does not fault the run (R60, R87, R89, R205). -/
theorem hostStep_eq_next {s t : State} (h : hostStep s = .next t) :
    (s.script = [] ∧ t = s) ∨
      (∃ addr d ops u, s.script = .wr addr d :: ops ∧ busWrite addr d s = some u ∧ t = u.popScript) ∨
        (∃ addr ops v u, s.script = .rd addr :: ops ∧ busRead addr s = some (v, u) ∧ t = (u.logRead addr v).popScript) ∨
          (∃ ops v u, s.script = .wait :: ops ∧ busRead offStatus s = some (v, u) ∧ t = waitPoll v (u.logRead offStatus v)) ∨
            (∃ ops, s.script = .rst :: ops ∧ t = s.popScript.afterRst) := by
  unfold hostStep at h
  cases hs : s.script with
  | nil =>
    simp only [hs, Host.Outcome.next.injEq] at h
    exact .inl ⟨rfl, h.symm⟩
  | cons op ops =>
    cases op with
    | wr addr d =>
      simp only [hs] at h
      cases hb : busWrite addr d s with
      | none => simp [hb] at h
      | some u =>
        simp only [hb, Host.Outcome.next.injEq] at h
        exact .inr (.inl ⟨addr, d, ops, u, rfl, hb, h.symm⟩)
    | rd addr =>
      simp only [hs, hostRead] at h
      cases hb : busRead addr s with
      | none => simp [hb] at h
      | some r =>
        obtain ⟨v, u⟩ := r
        simp only [hb, Host.Outcome.next.injEq] at h
        exact .inr (.inr (.inl ⟨addr, ops, v, u, rfl, hb, h.symm⟩))
    | wait =>
      simp only [hs, hostRead] at h
      cases hb : busRead offStatus s with
      | none => simp [hb] at h
      | some r =>
        obtain ⟨v, u⟩ := r
        simp only [hb, Host.Outcome.next.injEq] at h
        exact .inr (.inr (.inr (.inl ⟨ops, v, u, rfl, rfl, h.symm⟩)))
    | rst =>
      simp only [hs, Host.Outcome.next.injEq] at h
      exact .inr (.inr (.inr (.inr ⟨ops, rfl, h.symm⟩)))

/-- The agent that moves: the first turn, or the Core when it has an enabled step, or the Host. -/
theorem nextAgent_cases (s : State) :
    (s.nextAgent = .core ∧ step s = coreStep s.takeTurn) ∨ (s.nextAgent = .host ∧ step s = hostStep s.takeTurn) := by
  cases h : s.nextAgent with
  | core => exact .inl ⟨rfl, by simp [step, agentStep, h]⟩
  | host => exact .inr ⟨rfl, by simp [step, agentStep, h]⟩

/-- `STATUS` can always be read: its address never gives `ERROR`. -/
theorem decodeAddr_status (capIn capOut : Nat) : decodeAddr capIn capOut offStatus = some .status := by
  simp [decodeAddr, offStatus, registerAt]

theorem busRead_status (s : State) : busRead offStatus s = some (s.statusWord, s) := by
  simp [busRead, decodeAddr_status, State.readTarget, Target.drawnWhileBusy, State.targetWord]

end Sys2Proof.Machine
end

