-- ==== Sys2Proof/Laws/Program.lean ====
section
/-! SUPPORT. Laws of host programs: the encoding of a program is that of its parts, in order, and what a run has read. -/

namespace Sys2Proof.Machine

@[simp] theorem waitCount_append (a b : List HostOp) : waitCount (a ++ b) = waitCount a + waitCount b := by
  induction a with
  | nil => simp [waitCount]
  | cons op a ih => cases op <;> simp [waitCount, ih]; omega

/-- The encoding of one program after another (R94): the poll counts split where the first program's `wait`s end. -/
theorem programTxns_append (p q : List Nat) (a b : List HostOp) (h : p.length = waitCount a) :
    programTxns (p ++ q) (a ++ b) = programTxns p a ++ programTxns q b := by
  induction a generalizing p with
  | nil =>
    obtain rfl := List.length_eq_zero_iff.mp h
    simp [programTxns]
  | cons op a ih =>
    cases op with
    | wait =>
      cases p with
      | nil => simp [waitCount] at h
      | cons n p =>
        have h' : p.length = waitCount a := by simpa [waitCount] using h
        simp [programTxns, ih p h']
    | wr _ _ => simp [programTxns, ih p h]
    | rd _ => simp [programTxns, ih p h]
    | rst => simp [programTxns, ih p h]

/-- Encodings of two programs make an encoding of the one after the other. -/
theorem IsEncoding.append {a b : List HostOp} {s t : List Txn} (ha : IsEncoding a s) (hb : IsEncoding b t) :
    IsEncoding (a ++ b) (s ++ t) := by
  obtain ⟨hra, p, hp, rfl⟩ := ha
  obtain ⟨hrb, q, hq, rfl⟩ := hb
  exact ⟨by simp [hra, hrb], p ++ q, by simp [hp, hq], (programTxns_append p q a b hp).symm⟩

/-- The reads that a run adds to the log. -/
theorem readsSince_append {s t : State} {new : List (Word × Word)} (h : t.reads = new ++ s.reads) : readsSince s t = new := by
  simp [readsSince, h]

theorem writeTarget_reads (tg : Target) (d : Word) (s : State) : (s.writeTarget tg d).reads = s.reads := by cases tg <;> rfl

theorem coreStep_reads {s t : State} (h : coreStep s = .next t) : t.reads = s.reads := by
  rcases coreStep_cases s with ⟨_, h'⟩ | ⟨_, h'⟩ | ⟨w, i, _, _, h'⟩ | ⟨w, e, _, _, h'⟩ <;>
    obtain rfl := Host.Outcome.next.inj (h'.symm.trans h)
  · rfl
  · rfl
  · exact (sameInputs_runCommand i s).reads
  · rfl

/-- A host step adds at most one entry to the log of reads. -/
theorem hostStep_reads {s t : State} (h : hostStep s = .next t) : ∃ new, t.reads = new ++ s.reads := by
  rcases hostStep_eq_next h with ⟨_, rfl⟩ | ⟨addr, d, _, u, _, hb, rfl⟩ | ⟨addr, _, v, u, _, hb, rfl⟩ | ⟨_, v, u, _, hb, rfl⟩ |
    ⟨_, _, rfl⟩
  · exact ⟨[], rfl⟩
  · obtain ⟨tg, _, ⟨_, _, rfl⟩ | ⟨_, rfl⟩⟩ := busWrite_eq_some hb
    · exact ⟨[], rfl⟩
    · exact ⟨[], writeTarget_reads tg d s⟩
  · obtain ⟨tg, _, ⟨_, _, _, rfl⟩ | ⟨_, _, rfl⟩⟩ := busRead_eq_some hb <;> exact ⟨[(addr, v)], rfl⟩
  · obtain ⟨tg, _, ⟨_, _, _, rfl⟩ | ⟨_, _, rfl⟩⟩ := busRead_eq_some hb <;> refine ⟨[(offStatus, v)], ?_⟩ <;>
      unfold waitPoll <;> split <;> rfl
  · exact ⟨[], rfl⟩

/-- A step only adds to the log of reads. -/
theorem step_reads {s t : State} (h : step s = .next t) : ∃ new, t.reads = new ++ s.reads := by
  rcases nextAgent_cases s with ⟨_, h'⟩ | ⟨_, h'⟩
  · exact ⟨[], coreStep_reads (s := s.takeTurn) (h'.symm.trans h)⟩
  · exact hostStep_reads (s := s.takeTurn) (h'.symm.trans h)

/-- So what a run has read since a state is what its log adds to that state's. -/
theorem reaches_reads {s t : State} (h : Reaches s t) : t.reads = readsSince s t ++ s.reads := by
  have : ∃ new, t.reads = new ++ s.reads := by
    induction h with
    | refl => exact ⟨[], rfl⟩
    | step _ hs ih =>
      obtain ⟨new, hn⟩ := ih
      obtain ⟨new', hn'⟩ := step_reads hs
      exact ⟨new' ++ new, by rw [hn', hn, List.append_assoc]⟩
  obtain ⟨new, hn⟩ := this
  rw [readsSince_append hn, hn]

end Sys2Proof.Machine
end

