-- ==== Sys2Proof/Laws/Tree.lean ====
section
/-! SUPPORT. Laws of the priority queue and the tree builder: the queue stays ordered and loses no key, extract_min returns the
least key, and the merge loop never extracts from an empty queue (R121 to R124). -/

namespace Sys2Proof.Machine

theorem pqInsert_length (x : PqKey) (q : List PqKey) : (pqInsert x q).length = q.length + 1 := by
  induction q with
  | nil => rfl
  | cons y q ih => unfold pqInsert; split <;> simp [ih]

theorem pqInsert_perm (x : PqKey) (q : List PqKey) : (pqInsert x q).Perm (x :: q) := by
  induction q with
  | nil => exact List.Perm.refl _
  | cons y q ih =>
    unfold pqInsert
    split
    · exact List.Perm.refl _
    · exact (ih.cons y).trans (List.Perm.swap x y q)

theorem mem_pqInsert {x z : PqKey} {q : List PqKey} : z ∈ pqInsert x q ↔ z = x ∨ z ∈ q := by
  rw [(pqInsert_perm x q).mem_iff, List.mem_cons]

/-- The order of keys in numbers (R16). -/
theorem pqLt_iff {x y : PqKey} :
    pqLt x y = true ↔ x.freq.toNat < y.freq.toNat ∨ (x.freq.toNat = y.freq.toNat ∧ x.idx.toNat < y.idx.toNat) := by
  simp [pqLt, BitVec.lt_def, BitVec.toNat_eq]

theorem pqLt_trans {x y z : PqKey} (h : pqLt x y = true) (h' : pqLt y z = true) : pqLt x z = true := by
  rw [pqLt_iff] at *
  omega

/-- Keys with distinct indices are ordered one way or the other (R16: the order is strict and total). -/
theorem pqLt_total {x y : PqKey} (h : x.idx ≠ y.idx) : pqLt x y = true ∨ pqLt y x = true := by
  have hne : x.idx.toNat ≠ y.idx.toNat := fun e => h (BitVec.eq_of_toNat_eq e)
  rw [pqLt_iff, pqLt_iff]
  omega

/-- Insertion keeps the queue ordered, as no two entries share an index. -/
theorem pqInsert_sorted {x : PqKey} {q : List PqKey} (hq : q.Pairwise fun a b => pqLt a b = true)
    (hx : ∀ y ∈ q, y.idx ≠ x.idx) : (pqInsert x q).Pairwise fun a b => pqLt a b = true := by
  induction q with
  | nil => simp [pqInsert]
  | cons y q ih =>
    rw [List.pairwise_cons] at hq
    unfold pqInsert
    split
    · rename_i hlt
      refine List.pairwise_cons.2 ⟨?_, List.pairwise_cons.2 hq⟩
      intro z hz
      rcases List.mem_cons.1 hz with rfl | hz
      · exact hlt
      · exact pqLt_trans hlt (hq.1 z hz)
    · rename_i hlt
      have hyx : pqLt y x = true := (pqLt_total (hx y (by simp))).resolve_right hlt
      refine List.pairwise_cons.2 ⟨?_, ih hq.2 fun z hz => hx z (by simp [hz])⟩
      intro z hz
      rcases mem_pqInsert.1 hz with rfl | hz
      · exact hyx
      · exact hq.1 z hz

/-- `extract_min` on an ordered queue returns the least key (R122). -/
theorem extractMin_least {q q' : List PqKey} {x : PqKey} (hq : q.Pairwise fun a b => pqLt a b = true)
    (h : extractMin q = .ok (x, q')) : q = x :: q' ∧ ∀ y ∈ q', pqLt x y = true := by
  cases q with
  | nil => simp [extractMin] at h
  | cons y q =>
    simp only [extractMin, Except.ok.injEq, Prod.mk.injEq] at h
    obtain ⟨rfl, rfl⟩ := h
    exact ⟨rfl, (List.pairwise_cons.1 hq).1⟩

@[simp] theorem addNode_nodes (n : Node) (b : Builder) : (addNode n b).nodes = b.nodes ++ [n] := rfl

@[simp] theorem addNode_pq (n : Node) (b : Builder) :
    (addNode n b).pq = pqInsert ⟨n.freq, BitVec.ofNat 9 b.nodes.length⟩ b.pq := rfl

theorem addNode_pq_length (n : Node) (b : Builder) : (addNode n b).pq.length = b.pq.length + 1 := pqInsert_length _ _

/-- With two entries or more, a merge takes the two first keys, the first as LEFT (R130). -/
theorem mergeOnce_eq {b : Builder} {x y : PqKey} {q : List PqKey} (h : b.pq = x :: y :: q) :
    mergeOnce b = .ok (addNode ⟨.internal, x.freq + y.freq, 0#9, x.idx, y.idx⟩ ⟨b.nodes, q⟩) := by
  simp [mergeOnce, h, extractMin]

theorem mergeLoop_done {fuel : Nat} {b : Builder} (h : b.pq.length < 2) : mergeLoop fuel b = .ok b := by
  cases fuel <;> simp [mergeLoop, h]

theorem mergeLoop_merge {fuel : Nat} {b : Builder} {x y : PqKey} {q : List PqKey} (h : b.pq = x :: y :: q) :
    mergeLoop (fuel + 1) b =
      mergeLoop fuel (addNode ⟨.internal, x.freq + y.freq, 0#9, x.idx, y.idx⟩ ⟨b.nodes, q⟩) := by
  rw [mergeLoop, if_neg (by simp [h]), mergeOnce_eq h]

/-- The merge loop: a property of builders that every merge of the two first keys keeps holds of what the loop leaves, and the
loop leaves at most one entry. It never raises an error (R124). -/
theorem mergeLoop_induction (P : Builder → Prop)
    (step : ∀ (b : Builder) (x y : PqKey) (q : List PqKey), b.pq = x :: y :: q → P b →
      P (addNode ⟨.internal, x.freq + y.freq, 0#9, x.idx, y.idx⟩ ⟨b.nodes, q⟩))
    (fuel : Nat) (b : Builder) (hf : b.pq.length ≤ fuel + 1) (hb : P b) :
    ∃ b', mergeLoop fuel b = .ok b' ∧ P b' ∧ b'.pq.length < 2 := by
  induction fuel generalizing b with
  | zero => exact ⟨b, rfl, hb, by omega⟩
  | succ fuel ih =>
    by_cases h2 : b.pq.length < 2
    · exact ⟨b, mergeLoop_done h2, hb, h2⟩
    · match hq : b.pq, h2 with
      | x :: y :: q, _ =>
        rw [mergeLoop_merge hq]
        refine ih _ ?_ (step b x y q hq hb)
        rw [addNode_pq_length]
        simp only [hq, List.length_cons] at hf ⊢
        omega
      | [_], h2 => simp at h2
      | [], h2 => simp at h2

end Sys2Proof.Machine
end

