-- ==== Sys2Proof/Tests/Slice0.lean ====
section
/-! SUPPORT. Tests: ill-formed words and parameters are refused, the spec's words decode, the spec's vectors
(95_test_vectors.md) hold, and the hypotheses of every statement of the obligations are met by a state. -/

namespace Sys2Proof.Machine.Tests

/-! One test after another: each kernel evaluation would else hold a thread of its own while it waits for those before it. -/
set_option Elab.async false

/-! ### Small states -/

/-- "From idle" of 95_test_vectors.md, with the two memory sizes. -/
def idle (capIn capOut : Nat) : State := { State.reset with seq := .idle, capIn := capIn, capOut := capOut }

/-- Input bytes in place. -/
def load (bs : List Byte) (s : State) : State :=
  { s with inLen := BitVec.ofNat 32 bs.length, inMem := Memory.writeBytes s.inMem 0 bs }

/-- The state an instruction leaves, if it answers one. -/
def next? : Host.Outcome State Fault Refusal → Option State
  | .next t => some t
  | .fault _ => none
  | .refused _ => none

/-- What the command `i` leaves when the host writes its word and the Core completes it. -/
def run (i : Instr) (s : State) : State := (next? (exec i (s.accept (encodeWord i)))).getD s

/-- The tree of `FREQ` in place (R127). -/
def withTree (s : State) : State :=
  match treeOf s.freq with
  | .ok t => s.installTree t.nodes t.nsym t.root t.nnodes
  | .error _ => s

/-- The codes of the tree in place (R141). -/
def withCodes (s : State) : State := s.installCodes (codesOf s.nodes s.root).len (codesOf s.nodes s.root).bits

/-- A table with these entries, the others `z`. -/
def entries {α : Type} (z : α) (l : List (Byte × α)) : Vector α 256 :=
  l.foldl (fun t e => tableSet t e.1 e.2) (Vector.replicate 256 z)

def abracadabra : List Byte := [0x61, 0x62, 0x72, 0x61, 0x63, 0x61, 0x64, 0x61, 0x62, 0x72, 0x61]
def aaaa : List Byte := [0x61, 0x61, 0x61, 0x61]

def demo : State := idle 64 64

/-- The tree of V-TB-1, written out. -/
def abraNodes : List Node :=
  [leafNode 0x61 5#32, leafNode 0x62 2#32, leafNode 0x63 1#32, leafNode 0x64 1#32, leafNode 0x72 2#32,
    ⟨.internal, 2#40, 0#9, 2#9, 3#9⟩, ⟨.internal, 4#40, 0#9, 1#9, 4#9⟩, ⟨.internal, 6#40, 0#9, 5#9, 6#9⟩,
    ⟨.internal, 11#40, 0#9, 0#9, 7#9⟩]

/-- After FREQ_COUNT, BUILD_TREE and GEN_CODES on "abracadabra": V-FC-1, V-TB-1, V-GC-1. -/
@[irreducible] def abra : State :=
  { load abracadabra demo with
    freq := entries 0#32 [(0x61#8, 5#32), (0x62#8, 2#32), (0x63#8, 1#32), (0x64#8, 1#32), (0x72#8, 2#32)]
    nodes := nodeMemory abraNodes, nsym := 5#9, root := 8#9, nnodes := 9#10
    codeLen := entries 0#9 [(0x61#8, 1#9), (0x63#8, 3#9), (0x64#8, 3#9), (0x62#8, 3#9), (0x72#8, 3#9)]
    codeBits := entries 0#256 [(0x61#8, leftAligned [false]), (0x63#8, leftAligned [true, false, false]),
      (0x64#8, leftAligned [true, false, true]), (0x62#8, leftAligned [true, true, false]),
      (0x72#8, leftAligned [true, true, true])]
    treeValid := true, codesValid := true }

/-- The tree of V-TB-2 and the code table of V-GC-2, written out. -/
def oneNodes : List Node := [leafNode 0x61 4#32, sentinelNode, ⟨.internal, 4#40, 0#9, 1#9, 0#9⟩]

/-- After FREQ_COUNT, BUILD_TREE and GEN_CODES on "aaaa". -/
@[irreducible] def one : State :=
  { load aaaa demo with
    freq := entries 0#32 [(0x61#8, 4#32)]
    nodes := nodeMemory oneNodes, nsym := 1#9, root := 2#9, nnodes := 3#10
    codeLen := entries 0#9 [(0x61#8, 1#9)]
    codeBits := entries 0#256 [(0x61#8, leftAligned [true])]
    treeValid := true, codesValid := true }

/-- After FREQ_COUNT, BUILD_TREE and GEN_CODES on the empty input. -/
@[irreducible] def empty : State := { demo with nodes := nodeMemory [], treeValid := true, codesValid := true }

/-- The outputs a vector of section 2.5 or 2.6 names: STATUS, ERR_INFO, OUT_LEN, TOTAL_BITS, PAD. -/
def results (s : State) : Word × Word × Word × Word × BitVec 3 := (s.statusWord, s.errInfo, s.outLen, s.totalBits, s.pad)

/-- The first `n` bytes of OUT_MEM that have been written. -/
def out (n : Nat) (s : State) : List (Option Byte) := (List.range n).map (Memory.get? s.outMem)

/-! ### Well-formedness: an ill-formed term for each check -/

/-- R81: `RSVD` must be 0. -/
theorem test_wf_rsvd : legalWord 0x00000010#32 = false ∧ legalWord 0x80000003#32 = false := by decide

/-- R81: `OP` 7 is reserved, `OP` 6 is not. -/
theorem test_wf_op : legalWord 0x00000007#32 = false ∧ legalWord 0x00000006#32 = true := by decide

/-- R8: sizes 0, 6 and 2^20 + 4 are refused, 4 and 2^20 are legal. -/
theorem test_wf_memBytes :
    legalMemBytes 0 = false ∧ legalMemBytes 6 = false ∧ legalMemBytes 1048580 = false ∧ legalMemBytes 4 = true ∧
      legalMemBytes 1048576 = true := by decide

/-- R90: `load_in` needs `L <= IN_MEM_BYTES`. -/
theorem test_wf_loadIn : loadInOk 4 abracadabra = false ∧ loadInOk 4 aaaa = true := by decide

/-- The canonical form refuses an unsorted list and a repeated address. -/
theorem test_wf_memory : ¬ Memory.wf [(1, 0#8), (0, 0#8)] ∧ ¬ Memory.wf [(1, 0#8), (1, 0#8)] ∧ ¬ Memory.below [(4, 0#8)] 4 := by
  decide

/-! ### Decoding: words written out from R80 and R81 (`RSVD` 28 zeros, then the opcode's four bits) -/

theorem test_decode_nop : decodeWord 0b0000000000000000000000000000_0000#32 = .ok .nop := by decide
theorem test_decode_freqCount : decodeWord 0b0000000000000000000000000000_0001#32 = .ok .freqCount := by decide
theorem test_decode_buildTree : decodeWord 0b0000000000000000000000000000_0010#32 = .ok .buildTree := by decide
theorem test_decode_genCodes : decodeWord 0b0000000000000000000000000000_0011#32 = .ok .genCodes := by decide
theorem test_decode_encode : decodeWord 0b0000000000000000000000000000_0100#32 = .ok .encode := by decide
theorem test_decode_decode : decodeWord 0b0000000000000000000000000000_0101#32 = .ok .decode := by decide
theorem test_decode_clear : decodeWord 0b0000000000000000000000000000_0110#32 = .ok .clear := by decide

/-- R85: the two kinds of illegal word. -/
theorem test_decode_illegal :
    decodeWord 0b0000000000000000000000000000_0111#32 = .error .reservedOpcode ∧
      decodeWord 0b0000000000000000000000000001_0011#32 = .error .reservedBitsSet := by decide

theorem test_decodeTableWord : decodeTableWord 32 4 = some .encode ∧ decodeTableWord 32 19 = none := by decide

/-- The placed word runs as the next step from the reset state, for a command and for an illegal word. -/
theorem test_withFetchWord :
    (next? (step (State.reset.withFetchWord 32 0))).map State.statusWord = some 0x00000002#32 ∧
      (next? (step (State.reset.withFetchWord 32 6))).map State.statusWord = some 0x00006002#32 ∧
        (next? (step (State.reset.withFetchWord 32 15))).map State.statusWord = some 0x0000F504#32 := by decide +kernel

/-! ### Vectors of 95_test_vectors.md, at most two per command -/

/-- V-CTL-1. -/
theorem test_nop : results (run .nop demo) = (0x2#32, 0#32, 0#32, 0#32, 0#3) := by decide +kernel

/-- V-FC-1. -/
theorem test_freqCount :
    let s := run .freqCount (load abracadabra demo)
    [0x61#8, 0x62#8, 0x63#8, 0x64#8, 0x72#8, 0x65#8].map (tableGet s.freq) = [5, 2, 1, 1, 2, 0] ∧
      s.statusWord = 0x00001002#32 := by decide +kernel

/-- V-FC-6. -/
theorem test_freqCount_length :
    results (run .freqCount (demo.setInLen 65)) = (0x1704#32, 65#32, 0#32, 0#32, 0#3) := by decide +kernel

/-- V-TB-1: words of slots 5 to 8 in the NODE window. -/
theorem test_buildTree :
    let s := run .buildTree { demo with freq := abra.freq }
    s.nsym = 5#9 ∧ s.nnodes = 9#10 ∧ s.root = 8#9 ∧ s.statusWord = 0x00002022#32 ∧
      ([0x4058#32, 0x405C#32, 0x4060#32, 0x406C#32, 0x407C#32, 0x4080#32, 0x408C#32].map fun a =>
        (busRead a s).map Prod.fst) =
        [some 0x80000000#32, some 0x00030002#32, some 0x4#32, some 0x00040001#32, some 0x00060005#32, some 0xB#32,
          some 0x00070000#32] := by decide +kernel

/-- V-TB-9: a sum of more than 32 bits. -/
theorem test_buildTree_wide :
    let s := run .buildTree ((demo.setFreq 0 0xFFFFFFFF).setFreq 1 0xFFFFFFFF)
    [0x4020#32, 0x4024#32, 0x4028#32, 0x402C#32].map (fun a => (busRead a s).map Prod.fst) =
      [some 0xFFFFFFFE#32, some 1#32, some 0x80000000#32, some 0x00010000#32] := by decide +kernel

/-- V-GC-1 and V-MEM-9: codes `0`, `100`, `101`, `110`, `111`, and the words at `0x2C40` and `0x988`. -/
theorem test_genCodes :
    let s := run .genCodes (withTree { demo with freq := abra.freq })
    [0x61#8, 0x63#8, 0x64#8, 0x62#8, 0x72#8].map s.code =
        [[false], [true, false, false], [true, false, true], [true, true, false], [true, true, true]] ∧
      (busRead 0x2C40#32 s).map Prod.fst = some 0xC0000000#32 ∧ (busRead 0x988#32 s).map Prod.fst = some 3#32 ∧
        s.statusWord = 0x00003062#32 := by decide +kernel

/-- V-GC-7. -/
theorem test_genCodes_sequence : results (run .genCodes demo) = (0x3604#32, 3#32, 0#32, 0#32, 0#3) := by decide +kernel

/-- V-EN-1 and V-MEM-2. -/
theorem test_encode :
    let s := run .encode abra
    results s = (0x4062#32, 0#32, 4#32, 23#32, 1#3) ∧ out 5 s = [some 0x01, some 0x6E, some 0x8A, some 0xDC, none] ∧
      (busRead 0x200000#32 s).map Prod.fst = some 0xDC8A6E01#32 := by decide +kernel

/-- V-EN-14: the uncoded byte wins over the size. -/
theorem test_encode_symbol :
    let s := withCodes (withTree (((idle 64 4).setFreq 0x61 1).setFreq 0x62 1))
    results (run .encode (load (List.replicate 40 0x61 ++ [0x63]) s)) = (0x4964#32, 40#32, 0#32, 0#32, 0#3) := by
  decide +kernel

/-- V-DEC-1. -/
theorem test_decode :
    let s := run .decode (load [0x01, 0x6E, 0x8A, 0xDC] abra)
    results s = (0x5062#32, 0#32, 11#32, 23#32, 1#3) ∧ out 12 s = abracadabra.map some ++ [none] := by decide +kernel

/-- V-DEC-25: the output memory is full when `c` completes at bit 10. -/
theorem test_decode_overflow :
    results (run .decode (load [0x01, 0x6E, 0x8A, 0xDC] { abra with capOut := 4 })) = (0x5864#32, 10#32, 0#32, 0#32, 0#3) := by
  decide +kernel

/-- V-CTL-5: CLEAR after a compression keeps IN_LEN and the bytes of OUT_MEM. -/
theorem test_clear :
    let s := run .clear (run .encode abra)
    results s = (0x6002#32, 0#32, 0#32, 0#32, 0#3) ∧ s.root = 0x1FF#9 ∧ s.nnodes = 0#10 ∧ s.inLen = 11#32 ∧
      [0x61#8, 0x72#8].map (tableGet s.freq) = [0#32, 0#32] ∧ out 2 s = [some 0x01, some 0x6E] := by decide +kernel

/-! ### The bus, the interrupt and reset -/

/-- V-CTL-9. -/
theorem test_status_w1c :
    (busWrite 0x004#32 8#32 { demo with done := true, drop := true, treeValid := true, lastOp := 2 }).map State.statusWord =
      some 0x00002022#32 := by decide +kernel

/-- V-CTL-10 and V-CTL-11. -/
theorem test_irq :
    ({ demo with done := true, irqEn := 1 } : State).irq = true ∧ ({ demo with err := true, irqEn := 1 } : State).irq = false := by
  decide

/-- R44, R214: an IRQ_EN write takes effect while a command is pending, sets no DROP, and reads back then. -/
theorem test_irqEn_busy :
    let s := busWrite 0x024#32 0xFFFFFFFE#32 { demo with seq := .busy 4 }
    s.map (fun t => (t.irqEn, t.drop)) = some (2#2, false) ∧
      (s.bind fun t => (busRead 0x024#32 t).map Prod.fst) = some 0x00000002#32 := by decide +kernel

/-- V-CTL-14: a write to a busy HCB is dropped, and the initialisation step follows. -/
theorem test_init_drop :
    let s := { State.reset with script := [.wr 0x008#32 5#32], turns := [.host] }
    ((next? (step s)).bind fun t => next? (step t)).map (fun t => (t.statusWord, t.inLen)) = some (0x00000008#32, 0#32) := by
  decide +kernel

/-- V-MEM-1. -/
theorem test_little_endian :
    (busWrite 0x00100000#32 0x61726261#32 demo).map (fun t => (List.range 4).map (Memory.get? t.inMem)) =
      some [some 0x61, some 0x62, some 0x72, some 0x61] := by decide +kernel

/-- V-MEM-3, V-MEM-4, V-MEM-5: `ERROR` responses fault the run. -/
theorem test_bus_errors :
    hostStep { demo with script := [.rd 0x6#32] } = .fault (.busError 0x6#32) ∧
      hostStep { demo with script := [.rd 0x34#32] } = .fault (.busError 0x34#32) ∧
        hostStep { demo with script := [.rd 0x100040#32] } = .fault (.busError 0x100040#32) := ⟨rfl, rfl, rfl⟩

/-- V-CTL-13: the reset input in the middle of a command. -/
theorem test_rst :
    (next? (hostStep { abra with seq := .busy 4, irqEn := 3, script := [.rst] })).map (fun t => (t.statusWord, t.root, t.irqEn)) =
      some (0x1#32, 0x1FF#9, 0#2) := by decide +kernel

/-- P6: both orders of a dropped write and a completion. -/
theorem test_race :
    let s := { abra with seq := .busy 2, done := false, lastOp := 2, script := [.wr 0x584#32 7#32] }
    let two (turns : List Agent) := ((next? (step { s with turns := turns })).bind fun t => next? (step t)).map fun t =>
      (t.statusWord, tableGet t.freq 0x61)
    two [.host, .core] = some (0x0000202A#32, 5#32) ∧ two [.core, .host] = some (0x00002002#32, 7#32) := by decide +kernel

/-- R94's own example: `cmd BUILD_TREE; wait` is `(W, 0x000, 2) (R, 0x004, -)+`, here with three reads. -/
theorem test_encoding_example : IsEncoding [cmdOp .buildTree, .wait]
    [.write 0x000#32 0x00000002#32, .read 0x004#32, .read 0x004#32, .read 0x004#32] :=
  ⟨by decide, [2], rfl, rfl⟩

/-- P2 step 4: COMPRESS, with another number of reads for each `wait`. -/
theorem test_encoding_compress : IsEncoding compressOps
    [.write 0#32 1#32, .read 4#32, .write 0#32 2#32, .read 4#32, .read 4#32, .write 0#32 3#32, .read 4#32,
      .write 0#32 4#32, .read 4#32, .read 4#32, .read 4#32] :=
  ⟨by decide, [0, 1, 0, 2], rfl, rfl⟩

/-- A program with a reset input has no encoding. -/
theorem test_encoding_rst (txns : List Txn) : ¬ IsEncoding [.rd 0#32, .rst] txns := fun h => absurd h.1 (by decide)

/-- P1: the boot's `wait` read 0 before COMPRESS, whose own four `wait`s read `0x1002`, `0x2022`, `0x3062`, `0x4062`, the second after
one poll with `BUSY = 1`; V-EN-12's `0x4864` as the last word is refused. -/
theorem test_compress_waits (s t : State) (last : Word) (hs : s.reads = [(4#32, 0#32)])
    (ht : t.reads = [(4#32, last), (4#32, 0x3062#32), (4#32, 0x2022#32), (4#32, 0x2001#32), (4#32, 0x1002#32)] ++ s.reads) :
    (last = 0x4062#32 → ∀ e ∈ readsSince s t, endsDone e) ∧ (last = 0x4864#32 → ¬ ∀ e ∈ readsSince s t, endsDone e) ∧
      ¬ ∀ e ∈ s.reads, endsDone e := by
  rw [readsSince_append ht, hs]
  refine ⟨?_, ?_, ?_⟩ <;> simp +contextual [endsDone, offStatus]

/-! ### Witnesses: states that meet the hypotheses of the statements, each clause at a boundary -/

/-- BUILD_TREE's result by its parts: the leaves, then the merges. -/
theorem treeOf_of {f : Vector Word 256} {l b : Builder} (hl : leavesOf f = l) (hn : l.nodes.length ≠ 0)
    (hm : mergeLoop (addSentinel l).pq.length (addSentinel l) = .ok b) :
    treeOf f = .ok ⟨nodeMemory b.nodes, BitVec.ofNat 9 l.nodes.length, lastIndex b.pq, BitVec.ofNat 10 b.nodes.length⟩ := by
  simp only [treeOf, hl, if_neg hn, hm]

theorem abra_current : abra.treeCurrent ∧ abra.codesCurrent := by
  have hl : leavesOf (entries 0#32 [(0x61#8, 5#32), (0x62#8, 2#32), (0x63#8, 1#32), (0x64#8, 1#32), (0x72#8, 2#32)]) =
      ⟨abraNodes.take 5, [⟨1#40, 2#9⟩, ⟨1#40, 3#9⟩, ⟨2#40, 1#9⟩, ⟨2#40, 4#9⟩, ⟨5#40, 0#9⟩]⟩ := by decide +kernel
  have hm := treeOf_of hl (by decide) (b := ⟨abraNodes, [⟨11#40, 8#9⟩]⟩) (by decide +kernel)
  have hp : leafPaths (nodeMemory abraNodes) Config.nodeSlots 8#9 [] =
      [(0x61#9, [false]), (0x63#9, [true, false, false]), (0x64#9, [true, false, true]), (0x62#9, [true, true, false]),
        (0x72#9, [true, true, true])] := by decide +kernel
  unfold abra
  refine ⟨fun _ => hm, fun _ => ?_⟩
  simp only [codesOf, hp]
  rfl

theorem one_current : one.treeCurrent ∧ one.codesCurrent := by
  have hl : leavesOf (entries 0#32 [(0x61#8, 4#32)]) = ⟨[leafNode 0x61 4#32], [⟨4#40, 0#9⟩]⟩ := by decide +kernel
  have hm := treeOf_of hl (by decide) (b := ⟨oneNodes, [⟨4#40, 2#9⟩]⟩) (by decide +kernel)
  have hp : leafPaths (nodeMemory oneNodes) Config.nodeSlots 2#9 [] = [(0x100#9, [false]), (0x61#9, [true])] := by
    decide +kernel
  unfold one
  refine ⟨fun _ => hm, fun _ => ?_⟩
  simp only [codesOf, hp]
  rfl

theorem empty_current : empty.treeCurrent ∧ empty.codesCurrent := by
  have hl : leavesOf (Vector.replicate 256 0#32) = ⟨[], []⟩ := by decide +kernel
  unfold empty
  refine ⟨fun _ => ?_, fun _ => rfl⟩
  simp only [demo, idle, State.reset, treeOf, hl, List.length_nil, if_true]
  rfl

theorem abra_ok :
    abra.fatal = false ∧ abra.treeValid = true ∧ abra.codesValid = true ∧ abra.root = 8#9 ∧ abra.nnodes = 9#10 ∧
      abra.nsym = 5#9 := by decide +kernel

theorem one_ok :
    one.fatal = false ∧ one.treeValid = true ∧ one.codesValid = true ∧ one.root = 2#9 ∧ one.nnodes = 3#10 ∧
      one.nsym = 1#9 := by decide +kernel

theorem empty_ok :
    empty.fatal = false ∧ empty.treeValid = true ∧ empty.codesValid = true ∧ empty.root = 0x1FF#9 ∧ empty.nnodes = 0#10 ∧
      empty.nsym = 0#9 := by decide +kernel

/-- StepRunsTheDecodedCommand: with no turn named and with the Core's turn named. -/
theorem witness_StepRunsTheDecodedCommand :
    let s := { demo with seq := .busy 6 }
    s.seq = .busy 6 ∧ decodeWord 6 = .ok .clear ∧ s.nextAgent = .core ∧
      ({ s with turns := [.core, .host] } : State).nextAgent = .core := by decide

/-- IllegalWordCompletesWithIllegalCommand, for both kinds of illegal word. -/
theorem witness_IllegalWord :
    let s (w : Word) : State := { demo with seq := .busy w }
    (s 7).seq = .busy 7 ∧ decodeWord 7 = .error .reservedOpcode ∧ (s 7).nextAgent = .core ∧
      (s 16).seq = .busy 16 ∧ decodeWord 16 = .error .reservedBitsSet ∧ (s 16).nextAgent = .core := by decide

/-- FatalLocksEveryCommand. -/
theorem witness_FatalLocks : ({ demo with fatal := true } : State).fatal = true := rfl

/-- StaleStructureGivesSequenceError, both clauses; the hypotheses of NopOnlyCompletes, ClearZeroesTablesAndResults and
BuildTreeInstallsTheTreeOfFreq are the first part. -/
theorem witness_StaleStructure : demo.fatal = false ∧ demo.treeValid = false ∧ demo.codesValid = false := ⟨rfl, rfl, rfl⟩

/-- OverlongInputGivesLengthError at one byte more than IN_MEM, with all three clauses. -/
theorem witness_OverlongInput :
    let s : State := { demo with inLen := 65, treeValid := true, codesValid := true }
    s.fatal = false ∧ s.capIn < s.inLen.toNat ∧ s.codesValid = true ∧ s.treeValid = true := by decide

/-- FreqCountInstallsTheCounts and FreqCountSumsToTheInputLength, with IN_MEM full. -/
theorem witness_FreqCount :
    let s : State := { demo with inLen := 64 }
    s.capsOk ∧ s.fatal = false ∧ s.inLen.toNat ≤ s.capIn := by
  simp only [State.capsOk]
  decide

/-- NoSymbolGivesTheEmptyTree. -/
theorem witness_NoSymbol : demo.fatal = false ∧ ∀ x, tableGet demo.freq x = 0#32 :=
  ⟨rfl, fun x => by simp [demo, idle, State.reset, tableGet]⟩

/-- OneSymbolGivesTheSentinelTree. -/
theorem witness_OneSymbol :
    let s := demo.setFreq 0xFF#8 1#32
    s.fatal = false ∧ tableGet s.freq 0xFF#8 ≠ 0#32 ∧ ∀ y : Byte, y ≠ 0xFF#8 → tableGet s.freq y = 0#32 := by
  have hf : demo.freq = Vector.replicate 256 0#32 := rfl
  refine ⟨rfl, by simp, fun y hy => by simp [hf, hy]⟩

/-- TreeRegistersFollowTheSymbolCount, LeavesAreTheCountedSymbolsInOrder, InternalNodesSumTheirChildren: zero, one and five
symbols. -/
theorem witness_Tree :
    (empty.treeCurrent ∧ empty.treeValid = true) ∧ (one.treeCurrent ∧ one.treeValid = true) ∧
      abra.treeCurrent ∧ abra.treeValid = true :=
  ⟨⟨empty_current.1, empty_ok.2.1⟩, ⟨one_current.1, one_ok.2.1⟩, abra_current.1, abra_ok.2.1⟩

/-- TreeIsAStrictBinaryHierarchy: the root is not NIL, and the tree has inner nodes besides it. -/
theorem witness_TreeIsAStrictBinaryHierarchy :
    abra.treeCurrent ∧ abra.treeValid = true ∧ abra.root ≠ 0x1FF#9 ∧ 7 < abra.nnodes.toNat ∧ 7 ≠ abra.root.toNat :=
  ⟨abra_current.1, abra_ok.2.1, by simp [abra_ok], by simp [abra_ok], by simp [abra_ok]⟩

/-- MergesTakeTheTwoLeastKeys: the first internal slot of a one-symbol tree and of a tree of five symbols, and the last slot. -/
theorem witness_Merges :
    (one.treeCurrent ∧ one.treeValid = true ∧ firstInternal one = 2 ∧ 2 < one.nnodes.toNat) ∧
      (abra.treeCurrent ∧ abra.treeValid = true ∧ firstInternal abra = 5 ∧ 8 < abra.nnodes.toNat) :=
  ⟨⟨one_current.1, one_ok.2.1, by simp [firstInternal, one_ok], by simp [one_ok]⟩,
    abra_current.1, abra_ok.2.1, by simp [firstInternal, abra_ok], by simp [abra_ok]⟩

/-- GenCodesInstallsTheCodesOfTheTree: the empty tree and a tree of five symbols. -/
theorem witness_GenCodes : (empty.fatal = false ∧ empty.treeValid = true) ∧ abra.fatal = false ∧ abra.treeValid = true :=
  ⟨⟨empty_ok.1, empty_ok.2.1⟩, abra_ok.1, abra_ok.2.1⟩

/-- CodesAreThePathsToTheLeaves, CountedSymbolsHaveShortCodes, KraftSumOfTheCodeTable: zero, one and five symbols. -/
theorem witness_Codes :
    (empty.treeCurrent ∧ empty.codesCurrent ∧ empty.treeValid = true ∧ empty.codesValid = true ∧ empty.nsym = 0#9) ∧
      (one.treeCurrent ∧ one.codesCurrent ∧ one.treeValid = true ∧ one.codesValid = true ∧ one.nsym = 1#9) ∧
        abra.treeCurrent ∧ abra.codesCurrent ∧ abra.treeValid = true ∧ abra.codesValid = true ∧ abra.nsym = 5#9 := by
  simp [empty_ok, one_ok, abra_ok, empty_current, one_current, abra_current]

/-- CodesArePrefixFree: two symbols with codes. -/
theorem witness_CodesArePrefixFree :
    abra.treeCurrent ∧ abra.codesCurrent ∧ abra.treeValid = true ∧ abra.codesValid = true ∧ (0x61#8 : Byte) ≠ 0x62#8 ∧
      tableGet abra.codeLen 0x61#8 ≠ 0#9 ∧ tableGet abra.codeLen 0x62#8 ≠ 0#9 :=
  ⟨abra_current.1, abra_current.2, abra_ok.2.1, abra_ok.2.2.1, by decide +kernel⟩

/-- StoredCodesAreLeftAligned: the longest path, and the first and the last bit of a word; an idle state with a valid table. -/
theorem witness_StoredCodes :
    ((List.replicate 256 true).length ≤ 256 ∧ (31 : Nat) ≤ 31 ∧ (0 : Nat) ≤ 31) ∧
      one.seq = .idle ∧ one.treeCurrent ∧ one.codesCurrent ∧ one.treeValid = true ∧ one.codesValid = true :=
  ⟨⟨(List.length_replicate ..).le, le_refl _, Nat.zero_le _⟩, by decide +kernel, one_current.1, one_current.2, one_ok.2.1,
    one_ok.2.2.1⟩

/-- EncodeWritesThePackedCodes, EncodedSizeMatchesTheCodeLengths: the EncodedBuffer fills OUT_MEM exactly. -/
theorem witness_Encode :
    let s := { abra with capOut := 4 }
    s.capsOk ∧ s.fatal = false ∧ s.codesValid = true ∧ s.inLen.toNat ≤ s.capIn ∧
      (∀ x ∈ s.inputBytes, tableGet s.codeLen x ≠ 0#9) ∧ encodedSize (codeBitCount s.codeLen s.inputBytes) = s.capOut :=
  ⟨⟨by decide +kernel, by decide +kernel⟩, by decide +kernel⟩

/-- EncodeReportsUncodedBytesThenOverflow, first clause: the first byte, and the last after a coded one. -/
theorem witness_EncodeUncoded :
    let s := load [0x61#8, 0x62#8] one
    let t := load [0x63#8] one
    (s.fatal = false ∧ s.codesValid = true ∧ s.inLen.toNat ≤ s.capIn ∧ 1 < s.inLen.toNat ∧
      tableGet s.codeLen (s.coreByte 1) = 0#9 ∧ ∀ j < 1, tableGet s.codeLen (s.coreByte j) ≠ 0#9) ∧
    (t.fatal = false ∧ t.codesValid = true ∧ t.inLen.toNat ≤ t.capIn ∧ 0 < t.inLen.toNat ∧
      tableGet t.codeLen (t.coreByte 0) = 0#9) := by decide +kernel

/-- EncodeReportsUncodedBytesThenOverflow, second clause: one byte too many. -/
theorem witness_EncodeOverflow :
    let s := load (List.replicate 25 0x61#8) { one with capOut := 4 }
    s.fatal = false ∧ s.codesValid = true ∧ s.inLen.toNat ≤ s.capIn ∧
      (∀ j < s.inLen.toNat, tableGet s.codeLen (s.coreByte j) ≠ 0#9) ∧
        s.capOut + 1 = encodedSize (codeBitCount s.codeLen s.inputBytes) := by decide +kernel

/-- DecodeChecksTheHeader: no byte; header 1 with no payload; header 8 with one payload byte. -/
theorem witness_DecodeHeader :
    let s (bs : List Byte) := load bs one
    ((s []).fatal = false ∧ (s []).treeValid = true ∧ (s []).inLen.toNat ≤ (s []).capIn ∧ (s []).inLen = 0#32) ∧
      ((s [1]).inLen ≠ 0#32 ∧ 8 * ((s [1]).inLen.toNat - 1) < ((s [1]).coreByte 0).toNat) ∧
        (s [8, 0]).inLen ≠ 0#32 ∧ 7 < ((s [8, 0]).coreByte 0).toNat := by decide +kernel

/-- The one-symbol tree: bit 1 leads to the real leaf, bit 0 to the sentinel. -/
theorem one_paths :
    leafPath one.nodes one.root [true] 0x61#8 ∧ follow one.nodes one.root [false] = some 1#9 ∧
      (nodeAt one.nodes 1).kind = .leaf ∧ (nodeAt one.nodes 1).sym = 0x100#9 :=
  ⟨⟨by decide, 0#9, by decide +kernel, by decide +kernel, by decide +kernel⟩, by decide +kernel, by decide +kernel,
    by decide +kernel⟩

/-- DecodeEmitsTheSymbolsOfThePaths: `04 F0` fills an OUT_MEM of four bytes; `00` has no part at all. -/
theorem witness_DecodeEmits :
    let s := load [0x04#8, 0xF0#8] { one with capOut := 4 }
    let u := load [0x00#8] one
    let parts : List (Bits × Byte) := List.replicate 4 ([true], 0x61#8)
    (s.fatal = false ∧ s.treeValid = true ∧ s.inLen.toNat ≤ s.capIn ∧ s.inputBytes = [0x04#8, 0xF0#8] ∧
      (unpackBits [0xF0#8]).take (8 * 1 - 4) = parts.flatMap Prod.fst ∧ parts.length = s.capOut) ∧
    (∀ c ∈ parts, leafPath s.nodes s.root c.1 c.2) ∧
    (u.fatal = false ∧ u.treeValid = true ∧ u.inLen.toNat ≤ u.capIn ∧ u.inputBytes = [0x00#8] ∧
      (unpackBits []).take 0 = ([] : List (Bits × Byte)).flatMap Prod.fst) := by
  refine ⟨by decide +kernel, fun c hc => ?_, by decide +kernel⟩
  obtain rfl := List.eq_of_mem_replicate hc
  exact one_paths.1

/-- DecodeReportsCorruptStreams, the sentinel's clause: V-DEC-18 with one real path first (`00 BF`, cursor 1). -/
theorem witness_DecodeSentinel :
    let s := load [0x00#8, 0xBF#8] one
    let parts : List (Bits × Byte) := [([true], 0x61#8)]
    (s.fatal = false ∧ s.treeValid = true ∧ s.inLen.toNat ≤ s.capIn ∧ s.inputBytes = [0x00#8, 0xBF#8] ∧
      (unpackBits [0xBF#8]).take (8 * 1 - 0) = parts.flatMap Prod.fst ++ [false] ++ List.replicate 6 true ∧
        parts.length ≤ s.capOut ∧ s.root ≠ 0x1FF#9 ∧ 1 + 1 = (parts.flatMap Prod.fst ++ [false]).length) ∧
    (∀ c ∈ parts, leafPath s.nodes s.root c.1 c.2) ∧ follow s.nodes s.root [false] = some 1#9 ∧
      (nodeAt s.nodes 1#9).kind = .leaf ∧ (nodeAt s.nodes 1#9).sym = 0x100#9 := by
  refine ⟨by decide +kernel, fun c hc => ?_, one_paths.2.1, one_paths.2.2.1, one_paths.2.2.2⟩
  obtain rfl := List.mem_singleton.mp hc
  exact one_paths.1

/-- DecodeReportsCorruptStreams, the end inside a code: V-DEC-7 (`07 80` with the tree of "abracadabra"). -/
theorem witness_DecodeEndsInside :
    let s := load [0x07#8, 0x80#8] abra
    s.fatal = false ∧ s.treeValid = true ∧ s.inLen.toNat ≤ s.capIn ∧ s.inputBytes = [0x07#8, 0x80#8] ∧
      (unpackBits [0x80#8]).take (8 * 1 - 7) = ([] : List (Bits × Byte)).flatMap Prod.fst ++ [true] ++ [] ∧
        s.root ≠ 0x1FF#9 ∧ follow s.nodes s.root [true] = some 7#9 ∧ (nodeAt s.nodes 7#9).kind = .internal ∧ 7#9 ≠ s.root := by
  decide +kernel

/-- DecodeReportsCorruptStreams, the empty tree: V-DEC-22. -/
theorem witness_DecodeEmptyTree :
    let s := load [0x07#8, 0x80#8] empty
    s.fatal = false ∧ s.treeValid = true ∧ s.inLen.toNat ≤ s.capIn ∧ s.inputBytes = [0x07#8, 0x80#8] ∧
      (unpackBits [0x80#8]).take (8 * 1 - 7) = ([] : List (Bits × Byte)).flatMap Prod.fst ++ [true] ++ [] ∧
        s.root = 0x1FF#9 := by decide +kernel

/-- DecodeReportsOutputOverflow: the fifth symbol meets an OUT_MEM of four bytes at cursor 4, and bits follow. -/
theorem witness_DecodeOverflow :
    let s := load [0x00#8, 0xF8#8] { one with capOut := 4 }
    let parts : List (Bits × Byte) := List.replicate 4 ([true], 0x61#8)
    (s.fatal = false ∧ s.treeValid = true ∧ s.inLen.toNat ≤ s.capIn ∧ s.inputBytes = [0x00#8, 0xF8#8] ∧
      (unpackBits [0xF8#8]).take (8 * 1 - 0) = parts.flatMap Prod.fst ++ [true] ++ List.replicate 3 false ∧
        parts.length = s.capOut ∧ 4 + 1 = (parts.flatMap Prod.fst ++ [true]).length) ∧
    (∀ c ∈ parts, leafPath s.nodes s.root c.1 c.2) ∧ leafPath s.nodes s.root [true] 0x61#8 := by
  refine ⟨by decide +kernel, fun c hc => ?_, one_paths.1⟩
  obtain rfl := List.eq_of_mem_replicate hc
  exact one_paths.1

/-- DecodingAnEncodedBufferGivesTheInput: the state that encodes "aaaa" into an OUT_MEM of the least size. -/
theorem witness_RoundTrip_encode :
    let s := { one with capOut := 4 }
    s.capsOk ∧ s.structuresOk ∧ s.fatal = false ∧ s.codesValid = true ∧ s.inLen.toNat ≤ s.capIn ∧
      (∀ x ∈ s.inputBytes, tableGet s.freq x ≠ 0#32) ∧ encodedSize (codeBitCount s.codeLen s.inputBytes) ≤ s.capOut :=
  ⟨⟨by decide +kernel, by decide +kernel⟩,
    ⟨fun h => absurd h (by decide +kernel), one_current.1, one_current.2, fun _ => one_ok.2.1⟩, by decide +kernel⟩

/-- DecodingAnEncodedBufferGivesTheInput: the state that decodes `04 F0`, with room for exactly the input. -/
theorem witness_RoundTrip_decode :
    let s := { one with capOut := 4 }
    let t := run .encode s
    let u := load [0x04#8, 0xF0#8] s
    u.fatal = false ∧ u.treeValid = true ∧ u.nodes = s.nodes ∧ u.root = s.root ∧ u.inLen = t.outLen ∧ u.inLen.toNat ≤ u.capIn ∧
      (∀ a < u.inLen.toNat, u.coreByte a = t.outByte a) ∧ s.inLen.toNat = u.capOut :=
  ⟨by decide +kernel, by decide +kernel, rfl, rfl, by decide +kernel⟩

/-- Every command answers a next state: the hypotheses of the frames. -/
theorem exec_next (i : Instr) (s : State) : ∃ t, exec i s = .next t := by cases i <;> exact ⟨_, rfl⟩

/-- ControlCommandsFrame and StructureCommandsFrame: the five commands. -/
theorem witness_Frames :
    (∃ t, exec .nop demo = .next t) ∧ (∃ t, exec .clear demo = .next t) ∧ (∃ t, exec .freqCount demo = .next t) ∧
      (∃ t, exec .buildTree demo = .next t) ∧ ∃ t, exec .genCodes demo = .next t :=
  ⟨exec_next _ _, exec_next _ _, exec_next _ _, exec_next _ _, exec_next _ _⟩

/-- CodecCommandsFrame: both commands with a check error and with success. -/
theorem witness_CodecFrames :
    (next? (exec .encode demo)).map State.errCode = some 6#4 ∧ (next? (exec .decode demo)).map State.errCode = some 6#4 ∧
      (next? (exec .encode one)).map State.errCode = some 0#4 ∧
        (next? (exec .decode (load [0x04#8, 0xF0#8] one))).map State.errCode = some 0#4 ∧
          decodeBits one.nodes one.root one.capOut (trimmedBits [0xF0#8] 4) = .ok aaaa := by decide +kernel

/-- The four invariants hold of a state whose step answers a next state, in a completion and in a host write. -/
theorem witness_StepKeeps :
    let s := { demo with seq := .busy 0 }
    let u := { demo with script := [.wr 0x100000#32 1#32] }
    (s.flagsOk ∧ s.capsOk ∧ s.memoriesOk ∧ s.hiddenOk ∧ s.structuresOk ∧ ∃ t, step s = .next t) ∧
      (u.flagsOk ∧ u.capsOk ∧ u.memoriesOk ∧ u.hiddenOk ∧ u.structuresOk ∧ ∃ t, step u = .next t) := by
  refine ⟨⟨?_, ?_, ?_, ?_, ?_, _, rfl⟩, ?_, ?_, ?_, ?_, ?_, _, rfl⟩ <;>
    simp only [State.flagsOk, State.capsOk, State.memoriesOk, State.hiddenOk, State.structuresOk, State.initOk,
      State.treeCurrent, State.codesCurrent] <;> decide +kernel

/-- InitialisationStepClearsTheTables: the reset state itself. -/
theorem witness_Initialisation : State.reset.seq = .init ∧ State.reset.nextAgent = .core := ⟨rfl, rfl⟩

/-- ResetInputRestoresEveryRegister: in the middle of a command. -/
theorem witness_ResetInput : ({ demo with seq := .busy 4, script := [.rst, .wait] } : State).script = .rst :: [.wait] := rfl

/-- IrqIsTheEnabledLevel, second clause. -/
theorem witness_Irq : demo.seq = .idle ∧ busWrite 0x000#32 0#32 demo = some (demo.accept 0#32) := ⟨rfl, rfl⟩

/-- OnlyMappedAddressesGetOkay, ErrorResponseFaultsTheRun: the edges of the listed ranges, for sizes 64 and 64. -/
theorem witness_Mapped :
    (∀ a ∈ [0x0, 0x30, 0x400, 0x7FC, 0x800, 0xBFC, 0x2000, 0x3FFC, 0x4000, 0x5FFC, 0x100000, 0x10003C, 0x200000, 0x20003C],
      mappedAddr 64 64 a) ∧
    (∀ a ∈ [0x2, 0x34, 0x3FC, 0xC00, 0x1FFC, 0x6000, 0xFFFFC, 0x100040, 0x1FFFFC, 0x200040, 0xFFFFFFFC],
      ¬ mappedAddr 64 64 a) := by
  simp only [mappedAddr]
  decide

/-- ReadOnlyWritesAreIgnored, at the edges of the read-only ranges. -/
theorem witness_ReadOnly :
    ∀ a ∈ [0x00C, 0x020, 0x028, 0x030, 0x800, 0xBFC, 0x2000, 0x3FFC, 0x4000, 0x5FFC], readOnlyAddr a := by
  simp only [readOnlyAddr]
  decide

/-- GuardedWritesAreDroppedWhileBusy, at the edges of the guarded ranges. -/
theorem witness_Guarded :
    State.reset.seq ≠ .idle ∧ ({ demo with seq := .busy 0 } : State).seq ≠ .idle ∧
      ∀ a ∈ [0x000, 0x008, 0x400, 0x7FC, 0x100000, 0x10003C, 0x200000, 0x20003C], guardedAddr 64 64 a := by
  simp only [guardedAddr]
  decide

/-- BusyReadsAreDraws: both clauses, at the edges of the drawn ranges. -/
theorem witness_BusyReads :
    ({ demo with seq := .busy 0 } : State).seq ≠ .idle ∧
      (∀ a ∈ [0x00C, 0x020, 0x028, 0x400, 0x7FC, 0x800, 0xBFC, 0x2000, 0x3FFC, 0x4000, 0x5FFC, 0x100000, 0x10003C, 0x200000,
        0x20003C], mappedAddr 64 64 a ∧ drawnAddr 64 64 a) ∧
      ∀ a ∈ [0x000, 0x004, 0x008, 0x024, 0x02C, 0x030], mappedAddr 64 64 a ∧ ¬ drawnAddr 64 64 a := by
  simp only [mappedAddr, drawnAddr]
  decide

/-- IdleHostWritesTakeEffect, BusyReadsAreDraws (its last clause) and NodeWindowShowsTheSlots: an idle state, and the first and the last index of the window. -/
theorem witness_Idle : demo.seq = .idle ∧ (0 : Nat) ≤ 511 ∧ (511 : Nat) ≤ 511 := by decide

/-- MemoryWordsAreLittleEndian: the first and the last word of each memory. -/
theorem witness_LittleEndian :
    demo.capsOk ∧ demo.seq = .idle ∧ 4 * 0 < demo.capIn ∧ 4 * 15 < demo.capIn ∧ 4 * 15 < demo.capOut := by
  simp only [State.capsOk]
  decide

/-- PendingCommandKeepsItsInputs: a write that is dropped while ENCODE is pending. -/
theorem witness_Pending :
    let s := { demo with seq := .busy 4, script := [.wr 0x100000#32 1#32] }
    s.seq ≠ .idle ∧ (∀ ops, s.script ≠ .rst :: ops) ∧ ∃ t, hostStep s = .next t :=
  ⟨by decide, fun _ => by simp, _, rfl⟩

/-- WaitTerminates, from the reset state's `SEQ = INIT` and with host turns named first. -/
theorem witness_Wait : ({ State.reset with script := [.wait], turns := [.host, .host] } : State).script = .wait :: [] := rfl

/-- LoadInPlacesTheInput: an input that fills IN_MEM, and the empty input. -/
theorem witness_LoadIn :
    let s := { idle 4 4 with script := loadIn aaaa ++ [HostOp.wait] }
    let u := { idle 4 4 with script := loadIn [] ++ [HostOp.wait] }
    (s.capsOk ∧ s.seq = .idle ∧ s.turns = [] ∧ aaaa.length = s.capIn ∧ s.script = loadIn aaaa ++ [HostOp.wait]) ∧
      (u.capsOk ∧ u.seq = .idle ∧ u.turns = [] ∧ u.script = loadIn [] ++ [HostOp.wait]) :=
  ⟨⟨⟨rfl, rfl⟩, rfl, rfl, rfl, rfl⟩, ⟨rfl, rfl⟩, rfl, rfl, rfl⟩

end Sys2Proof.Machine.Tests
end

section
/-! SUPPORT. Step invariants (tier 3). Every step is built from the named operations of Machine/Ops.lean, so a predicate that each
operation keeps, under the condition in which a step runs it, is kept by every step (`KeptByOps.step`). -/

namespace Sys2Proof.Machine

/-! ### What a step does to a predicate -/

/-- A command word has been accepted and not completed: the only states in which a command's pseudocode runs (R97). -/
def State.running (s : State) : Prop := ∃ w, s.seq = .busy w

theorem State.running.not_idle {s : State} (h : s.running) : s.seq ≠ .idle := by
  obtain ⟨w, hw⟩ := h
  simp [hw]

theorem State.running.not_init {s : State} (h : s.running) : s.seq ≠ .init := by
  obtain ⟨w, hw⟩ := h
  simp [hw]

/-- `P` is kept by every operation that a step is made of, under the condition in which a step runs it. -/
structure KeptByOps (P : State → Prop) : Prop where
  bookkeeping : ∀ s draws script turns reads, P s →
    P { s with draws := draws, script := script, turns := turns, reads := reads }
  accept : ∀ s w, s.seq = .idle → P s → P (s.accept w)
  ackStatus : ∀ s v, P s → P (s.ackStatus v)
  dropWrite : ∀ s, P s → P s.dropWrite
  setInLen : ∀ s v, P s → P (s.setInLen v)
  setIrqEn : ∀ s v, P s → P (s.setIrqEn v)
  setFreq : ∀ s x v, P s → P (s.setFreq x v)
  storeIn : ∀ s addr a d, decodeAddr s.capIn s.capOut addr = some (.inMem a) → P s → P (s.storeIn a (wordBytes d))
  storeOut : ∀ s addr a d, decodeAddr s.capIn s.capOut addr = some (.outMem a) → P s → P (s.storeOut a (wordBytes d))
  afterRst : ∀ s, P s → P s.afterRst
  initialise : ∀ s, s.seq = .init → P s → P s.initialise
  installCounts : ∀ s f, P s → P (s.installCounts f)
  installTree : ∀ s tr, s.running → treeOf s.freq = .ok tr → P s → P (s.installTree tr.nodes tr.nsym tr.root tr.nnodes)
  installCodes : ∀ s, s.running → s.treeValid = true → P s →
    P (s.installCodes (codesOf s.nodes s.root).len (codesOf s.nodes s.root).bits)
  installOutput : ∀ s out n pad, out.length ≤ s.capOut → P s → P (s.installOutput out n pad)
  clearAll : ∀ s, P s → P s.clearAll
  succeed : ∀ s, s.running → P s → P s.succeed
  raiseError : ∀ s r, s.running → P s → P (s.raiseError r)
  discardOutput : ∀ s, P s → P s.discardOutput

/-- The pseudocode of a command leaves `SEQ` to the completion. -/
theorem bodyOf_seq {i : Instr} {s t : State} (h : bodyOf i s = .ok t) : t.seq = s.seq := by
  cases i with
  | nop | freqCount | genCodes | clear => cases h; rfl
  | buildTree =>
    obtain ⟨tr, _, rfl⟩ := buildTreeBody_eq_ok h
    rfl
  | encode =>
    obtain ⟨_, _, rfl⟩ := encodeBody_eq_ok h
    rfl
  | decode =>
    obtain ⟨_, _, _, _, _, _, _, rfl⟩ := decodeBody_eq_ok h
    rfl

namespace KeptByOps

variable {P : State → Prop} (hP : KeptByOps P) {s t : State}
include hP

theorem takeTurn (hs : P s) : P s.takeTurn := hP.bookkeeping s _ _ _ _ hs

theorem popScript (hs : P s) : P s.popScript := hP.bookkeeping s _ _ _ _ hs

theorem logRead (addr v : Word) (hs : P s) : P (s.logRead addr v) := hP.bookkeeping s _ _ _ _ hs

theorem tookDraw (hs : P s) : P s.tookDraw := hP.bookkeeping s _ _ _ _ hs

/-- A write that is not dropped: a guarded target is written only with `SEQ = IDLE`. -/
theorem writeTarget {addr d : Word} {tg : Target} (htg : decodeAddr s.capIn s.capOut addr = some tg)
    (hg : ¬(s.seq ≠ .idle ∧ tg.guarded = true)) (hs : P s) : P (s.writeTarget tg d) := by
  rcases target_guarded_or_readOnly tg with hguard | hro | rfl | rfl
  · have hidle : s.seq = .idle := by simpa [hguard] using hg
    cases tg with
    | cmd => exact hP.accept s d hidle hs
    | inLen => exact hP.setInLen s d hs
    | freq x => exact hP.setFreq s x d hs
    | inMem a => exact hP.storeIn s addr a d htg hs
    | outMem a => exact hP.storeOut s addr a d htg hs
    | _ => simp [Target.guarded] at hguard
  · rwa [writeTarget_readOnly hro]
  · exact hP.ackStatus s d hs
  · exact hP.setIrqEn s d hs

theorem busWrite {addr d : Word} (h : busWrite addr d s = some t) (hs : P s) : P t := by
  obtain ⟨tg, htg, ⟨_, _, rfl⟩ | ⟨hg, rfl⟩⟩ := busWrite_eq_some h
  · exact hP.dropWrite s hs
  · exact hP.writeTarget htg hg hs

theorem busRead {addr v : Word} (h : busRead addr s = some (v, t)) (hs : P s) : P t := by
  obtain ⟨tg, _, ⟨_, _, _, rfl⟩ | ⟨_, _, rfl⟩⟩ := busRead_eq_some h
  · exact hP.tookDraw hs
  · exact hs

theorem waitPoll (v : Word) (hs : P s) : P (waitPoll v s) := by
  unfold Machine.waitPoll
  split
  · exact hs
  · exact hP.popScript hs

theorem hostStep (h : hostStep s = .next t) (hs : P s) : P t := by
  rcases hostStep_eq_next h with ⟨_, rfl⟩ | ⟨addr, d, _, u, _, hb, rfl⟩ | ⟨addr, _, v, u, _, hb, rfl⟩ |
    ⟨_, v, u, _, hb, rfl⟩ | ⟨_, _, rfl⟩
  · exact hs
  · exact hP.popScript (hP.busWrite hb hs)
  · exact hP.popScript (hP.logRead addr v (hP.busRead hb hs))
  · exact hP.waitPoll v (hP.logRead offStatus v (hP.busRead hb hs))
  · exact hP.afterRst _ (hP.popScript hs)

theorem bodyOf {i : Instr} (hrun : s.running) (hc : checkCommand i s = none) (hb : bodyOf i s = .ok t) (hs : P s) : P t := by
  cases i with
  | nop => cases hb; exact hs
  | freqCount => cases hb; exact hP.installCounts s _ hs
  | buildTree =>
    obtain ⟨tr, htr, rfl⟩ := buildTreeBody_eq_ok hb
    exact hP.installTree s tr hrun htr hs
  | genCodes => cases hb; exact hP.installCodes s hrun (checkCommand_eq_none.1 hc).2.1 hs
  | encode =>
    obtain ⟨_, hsize, rfl⟩ := encodeBody_eq_ok hb
    exact hP.installOutput s _ _ _ (by rwa [encodedBuffer_length]) hs
  | decode =>
    obtain ⟨_, _, _, _, _, _, hout, rfl⟩ := decodeBody_eq_ok hb
    exact hP.installOutput s _ _ _ (decodeBits_length hout) hs
  | clear => cases hb; exact hP.clearAll s hs

theorem failCommand (i : Instr) (r : Raise) (hrun : s.running) (hs : P s) : P (s.failCommand i r) := by
  rcases failCommand_cases i r s with h | ⟨_, _, h⟩ <;> rw [h]
  · exact hP.raiseError s r hrun hs
  · exact hP.discardOutput _ (hP.raiseError s r hrun hs)

theorem runCommand (i : Instr) (hrun : s.running) (hs : P s) : P (s.runCommand i (Machine.bodyOf i)) := by
  rcases runCommand_cases i (Machine.bodyOf i) s with ⟨r, _, h⟩ | ⟨t, hc, hb, h⟩ | ⟨r, _, _, h⟩ <;> rw [h]
  · exact hP.raiseError s r hrun hs
  · have hrunt : t.running := by rwa [State.running, bodyOf_seq hb]
    exact hP.succeed t hrunt (hP.bodyOf hrun hc hb hs)
  · exact hP.failCommand i r hrun hs

theorem coreStep (h : coreStep s = .next t) (hs : P s) : P t := by
  rcases coreStep_cases s with ⟨_, h'⟩ | ⟨hinit, h'⟩ | ⟨w, i, hbusy, _, h'⟩ | ⟨w, _, hbusy, _, h'⟩ <;>
    obtain rfl := Host.Outcome.next.inj (h'.symm.trans h)
  · exact hs
  · exact hP.initialise s hinit hs
  · exact hP.runCommand i ⟨w, hbusy⟩ hs
  · exact hP.raiseError s _ ⟨w, hbusy⟩ hs

/-- What every operation keeps, every step keeps. -/
theorem step (h : step s = .next t) (hs : P s) : P t := by
  rcases nextAgent_cases s with ⟨_, h'⟩ | ⟨_, h'⟩
  · exact hP.coreStep (h'.symm.trans h) (hP.takeTurn hs)
  · exact hP.hostStep (h'.symm.trans h) (hP.takeTurn hs)

end KeptByOps

/-! ### The status flags (R28, R31, R215) -/

theorem flagsOk_keptByOps : KeptByOps State.flagsOk where
  bookkeeping _ _ _ _ _ h := h
  accept s w _ h := by
    obtain ⟨_, _, hvalid⟩ := h
    exact ⟨by simp, fun _ => ⟨rfl, rfl⟩, hvalid⟩
  ackStatus s v h := by
    obtain ⟨hboth, hbusy, hvalid⟩ := h
    refine ⟨fun hset => ?_, fun hseq => ?_, hvalid⟩
    · simp only [State.ackStatus_done, State.ackStatus_err, Bool.and_eq_true] at hset
      exact hboth ⟨hset.1.1, hset.2.1⟩
    · simp [hbusy hseq]
  dropWrite _ h := h
  setInLen _ _ h := h
  setIrqEn _ _ h := h
  setFreq s x v h := by
    obtain ⟨hboth, hbusy, _⟩ := h
    exact ⟨hboth, hbusy, by simp⟩
  storeIn _ _ _ _ _ h := h
  storeOut _ _ _ _ _ h := h
  afterRst s _ := by simp [State.flagsOk, State.reset]
  initialise s hinit h := by
    obtain ⟨hboth, _, hvalid⟩ := h
    exact ⟨hboth, fun hseq => absurd rfl hseq, hvalid⟩
  installCounts s f h := by
    obtain ⟨hboth, hbusy, _⟩ := h
    exact ⟨hboth, hbusy, by simp⟩
  installTree s tr _ _ h := by
    obtain ⟨hboth, hbusy, _⟩ := h
    exact ⟨hboth, hbusy, by simp⟩
  installCodes s _ htree h := by
    obtain ⟨hboth, hbusy, _⟩ := h
    exact ⟨hboth, hbusy, fun _ => htree⟩
  installOutput _ _ _ _ _ h := h
  clearAll s h := by
    obtain ⟨hboth, hbusy, _⟩ := h
    exact ⟨hboth, hbusy, by simp⟩
  succeed s hrun h := by
    obtain ⟨_, hbusy, hvalid⟩ := h
    obtain ⟨_, herr⟩ := hbusy hrun.not_idle
    exact ⟨by simp [herr], fun hseq => absurd rfl hseq, hvalid⟩
  raiseError s r hrun h := by
    obtain ⟨_, hbusy, hvalid⟩ := h
    obtain ⟨hdone, _⟩ := hbusy hrun.not_idle
    exact ⟨by simp [hdone], fun hseq => absurd rfl hseq, hvalid⟩
  discardOutput _ h := h

/-- Settles O39: each operation keeps the flags' invariant, since a completion starts from `DONE = ERR = 0`. -/
theorem stepKeepsTheStatusFlags : Obligations.StepKeepsTheStatusFlags :=
  fun _ _ hs h => flagsOk_keptByOps.step h hs

/-! ### The memories (R53, R54, R70) -/

theorem registerAt_ne_inMem (n a : Nat) : registerAt n ≠ some (.inMem a) := by
  unfold registerAt
  split <;> simp

theorem registerAt_ne_outMem (n a : Nat) : registerAt n ≠ some (.outMem a) := by
  unfold registerAt
  split <;> simp

/-- A host word of `IN_MEM` lies at an aligned offset inside the memory (R62, R63). -/
theorem decodeAddr_eq_inMem {capIn capOut a : Nat} {addr : Word} (h : decodeAddr capIn capOut addr = some (.inMem a)) :
    a % 4 = 0 ∧ a < capIn := by
  simp only [decodeAddr] at h
  split_ifs at h
  · exact absurd h (registerAt_ne_inMem _ _)
  all_goals simp only [Option.some.injEq, reduceCtorEq, Target.inMem.injEq] at h
  rename_i hrange
  simp only [Config.inBase] at h hrange
  omega

/-- A host word of `OUT_MEM` lies at an aligned offset inside the memory (R62, R63). -/
theorem decodeAddr_eq_outMem {capIn capOut a : Nat} {addr : Word} (h : decodeAddr capIn capOut addr = some (.outMem a)) :
    a % 4 = 0 ∧ a < capOut := by
  simp only [decodeAddr] at h
  split_ifs at h
  · exact absurd h (registerAt_ne_outMem _ _)
  all_goals simp only [Option.some.injEq, reduceCtorEq, Target.outMem.injEq] at h
  rename_i hrange
  simp only [Config.outBase] at h hrange
  omega

theorem memory_nil_below (size : Nat) : Memory.below [] size := fun _ hc => absurd hc List.not_mem_nil

theorem legalMemBytes_iff {n : Nat} : legalMemBytes n = true ↔ n % 4 = 0 ∧ 4 ≤ n ∧ n ≤ 1048576 := by
  simp only [legalMemBytes, Bool.and_eq_true, beq_iff_eq, decide_eq_true_eq, and_assoc]
  rfl

/-- All four bytes of an aligned word that begins inside a memory of legal size are inside it. -/
theorem word_fits {cap a : Nat} (hcap : legalMemBytes cap = true) (ha : a % 4 = 0 ∧ a < cap) (d : Word) :
    a + (wordBytes d).length ≤ cap := by
  obtain ⟨hmod, _, _⟩ := legalMemBytes_iff.1 hcap
  have hlen : (wordBytes d).length = 4 := rfl
  omega

theorem memoriesOk_keptByOps : KeptByOps fun s => s.capsOk ∧ s.memoriesOk where
  bookkeeping _ _ _ _ _ h := h
  accept _ _ _ h := h
  ackStatus _ _ h := h
  dropWrite _ h := h
  setInLen _ _ h := h
  setIrqEn _ _ h := h
  setFreq _ _ _ h := h
  storeIn s addr a d haddr h := by
    obtain ⟨hcaps, hin, hinCap, hout⟩ := h
    have hfits := word_fits hcaps.1 (decodeAddr_eq_inMem haddr) d
    exact ⟨hcaps, memory_writeBytes_wf hin a _, memory_writeBytes_below hinCap _ hfits, hout⟩
  storeOut s addr a d haddr h := by
    obtain ⟨hcaps, hin, hinCap, hout, houtCap⟩ := h
    have hfits := word_fits hcaps.2 (decodeAddr_eq_outMem haddr) d
    exact ⟨hcaps, hin, hinCap, memory_writeBytes_wf hout a _, memory_writeBytes_below houtCap _ hfits⟩
  afterRst _ h := ⟨h.1, memory_nil_wf, memory_nil_below _, memory_nil_wf, memory_nil_below _⟩
  initialise _ _ h := h
  installCounts _ _ h := h
  installTree _ _ _ _ h := h
  installCodes _ _ _ h := h
  installOutput s out n pad hfits h := by
    obtain ⟨hcaps, hin, hinCap, hout, houtCap⟩ := h
    exact ⟨hcaps, hin, hinCap, memory_writeBytes_wf hout 0 _, memory_writeBytes_below houtCap _ (by omega)⟩
  clearAll _ h := h
  succeed _ _ h := h
  raiseError _ _ _ h := h
  discardOutput s h := by
    obtain ⟨hcaps, hin, hinCap, _⟩ := h
    exact ⟨hcaps, hin, hinCap, memory_nil_wf, memory_nil_below _⟩

/-- Settles O40: host words and codec outputs are the only stores, and both end inside their memory. -/
theorem stepKeepsTheMemoriesCanonical : Obligations.StepKeepsTheMemoriesCanonical :=
  fun _ _ hcaps hmem h => memoriesOk_keptByOps.step h ⟨hcaps, hmem⟩

/-! ### The hidden state (R55, R56, R109) -/

theorem hiddenOk_keptByOps : KeptByOps State.hiddenOk where
  bookkeeping _ _ _ _ _ h := h
  accept _ _ _ h := h
  ackStatus _ _ h := h
  dropWrite _ h := h
  setInLen _ _ h := h
  setIrqEn _ _ h := h
  setFreq _ _ _ h := h
  storeIn _ _ _ _ _ h := h
  storeOut _ _ _ _ _ h := h
  afterRst _ _ := ⟨rfl, rfl⟩
  initialise _ _ h := h
  installCounts _ _ h := h
  installTree _ _ _ _ h := ⟨rfl, h.2⟩
  installCodes _ _ _ h := h
  installOutput _ _ _ _ _ h := ⟨h.1, rfl⟩
  clearAll _ h := h
  succeed _ _ h := h
  raiseError _ _ _ h := h
  discardOutput _ h := h

/-- Settles O41: the two operations and the reset that write `PQ` or the walk leave them empty. -/
theorem stepLeavesNoHiddenState : Obligations.StepLeavesNoHiddenState :=
  fun _ _ hs h => hiddenOk_keptByOps.step h hs

/-! ### The tree and the code table (R25, R30, R31) -/

/-- A state with both valid flags 0 says nothing of its tables. -/
theorem structuresOk_of_invalid {s : State} (htree : s.treeValid = false) (hcodes : s.codesValid = false) :
    s.structuresOk := by
  simp [State.structuresOk, State.initOk, State.treeCurrent, State.codesCurrent, htree, hcodes]

theorem structuresOk_keptByOps : KeptByOps State.structuresOk where
  bookkeeping _ _ _ _ _ h := h
  accept s w _ h := by
    obtain ⟨_, hcurrent⟩ := h
    exact ⟨fun hinit => by simp at hinit, hcurrent⟩
  ackStatus _ _ h := h
  dropWrite _ h := h
  setInLen _ _ h := h
  setIrqEn _ _ h := h
  setFreq _ _ _ _ := structuresOk_of_invalid rfl rfl
  storeIn _ _ _ _ _ h := h
  storeOut _ _ _ _ _ h := h
  afterRst _ _ := structuresOk_of_invalid rfl rfl
  initialise s hinit h := by
    obtain ⟨htree, hcodes⟩ := h.1 hinit
    exact structuresOk_of_invalid htree hcodes
  installCounts _ _ _ := structuresOk_of_invalid rfl rfl
  installTree s tr hrun htr _ :=
    ⟨fun hinit => absurd hinit hrun.not_init, fun _ => htr, fun hcodes => by simp at hcodes, fun _ => rfl⟩
  installCodes s hrun htree h := by
    obtain ⟨_, hcurrent, _, _⟩ := h
    exact ⟨fun hinit => absurd hinit hrun.not_init, hcurrent, fun _ => rfl, fun _ => htree⟩
  installOutput _ _ _ _ _ h := h
  clearAll _ _ := structuresOk_of_invalid rfl rfl
  succeed s _ h := by
    obtain ⟨_, hcurrent⟩ := h
    exact ⟨fun hinit => by simp at hinit, hcurrent⟩
  raiseError s r _ h := by
    obtain ⟨_, hcurrent⟩ := h
    exact ⟨fun hinit => by simp at hinit, hcurrent⟩
  discardOutput _ h := h

/-- Settles O42: BUILD_TREE and GEN_CODES set their flag over the tables they install; every other change of `FREQ` or of a
table clears the flags. -/
theorem stepKeepsTreeAndCodesCurrent : Obligations.StepKeepsTreeAndCodesCurrent :=
  fun _ _ hs h => structuresOk_keptByOps.step h hs

/-! ### Reset (R57, R205) -/

theorem reset_capsOk : State.reset.capsOk := by
  have hin : legalMemBytes Config.inMemBytes = true := legalMemBytes_iff.2 (by unfold Config.inMemBytes; omega)
  have hout : legalMemBytes Config.outMemBytes = true := legalMemBytes_iff.2 (by unfold Config.outMemBytes; omega)
  exact ⟨hin, hout⟩

/-- Settles O43: the parameters are legal by their definition, both memories list nothing, and no flag is set. -/
theorem resetMeetsTheInvariants : Obligations.ResetMeetsTheInvariants :=
  ⟨reset_capsOk, ⟨memory_nil_wf, memory_nil_below _, memory_nil_wf, memory_nil_below _⟩, by simp [State.flagsOk, State.reset], ⟨rfl, rfl⟩,
    structuresOk_of_invalid rfl rfl⟩

/-- Settles O44: the fields of `State.reset`, and the STATUS word and `irq` computed from them. -/
theorem resetValuesAreTheSpecs : Obligations.ResetValuesAreTheSpecs :=
  ⟨rfl, by decide, rfl, rfl, rfl, rfl, rfl, rfl, rfl, rfl, rfl, rfl, rfl⟩

end Sys2Proof.Machine
end

section
/-! SUPPORT. The bus port: what each address of R23 decodes to, and the words that reads of it return (R25, R35 to R51, R58). -/

namespace Sys2Proof.Machine

/-! ### Addresses -/

theorem toNat_ofNat_word {a : Nat} (h : a < 2 ^ 32) : (BitVec.ofNat 32 a : Word).toNat = a := by
  rw [BitVec.toNat_ofNat, Nat.mod_eq_of_lt h]

section Windows

variable {capIn capOut : Nat} {addr : Word} (halign : addr.toNat % 4 = 0)
include halign

theorem decodeAddr_register (hhi : addr.toNat < 0x400) : decodeAddr capIn capOut addr = registerAt (addr.toNat / 4) := by
  simp only [decodeAddr]
  rw [if_neg (by omega), if_pos hhi]

theorem decodeAddr_freq (hlo : 0x400 ≤ addr.toNat) (hhi : addr.toNat < 0x800) :
    decodeAddr capIn capOut addr = some (.freq (BitVec.ofNat 8 ((addr.toNat - 0x400) / 4))) := by
  simp only [decodeAddr]
  rw [if_neg (by omega), if_neg (by omega), if_pos hhi]

theorem decodeAddr_codeLen (hlo : 0x800 ≤ addr.toNat) (hhi : addr.toNat < 0xC00) :
    decodeAddr capIn capOut addr = some (.codeLen (BitVec.ofNat 8 ((addr.toNat - 0x800) / 4))) := by
  simp only [decodeAddr]
  rw [if_neg (by omega), if_neg (by omega), if_neg (by omega), if_pos hhi]

theorem decodeAddr_codeBits (hlo : 0x2000 ≤ addr.toNat) (hhi : addr.toNat < 0x4000) :
    decodeAddr capIn capOut addr =
      some (.codeBits (BitVec.ofNat 8 ((addr.toNat - 0x2000) / 32)) (BitVec.ofNat 3 ((addr.toNat - 0x2000) / 4))) := by
  simp only [decodeAddr]
  rw [if_neg (by omega), if_neg (by omega), if_neg (by omega), if_neg (by omega), if_neg (by omega), if_pos hhi]

theorem decodeAddr_node (hlo : 0x4000 ≤ addr.toNat) (hhi : addr.toNat < 0x6000) :
    decodeAddr capIn capOut addr =
      some (.node (BitVec.ofNat 9 ((addr.toNat - 0x4000) / 16)) (BitVec.ofNat 2 ((addr.toNat - 0x4000) / 4))) := by
  simp only [decodeAddr]
  rw [if_neg (by omega), if_neg (by omega), if_neg (by omega), if_neg (by omega), if_neg (by omega), if_neg (by omega),
    if_pos hhi]

/-- Above the windows an address reaches a memory or nothing. -/
theorem decodeAddr_memories (hlo : 0x6000 ≤ addr.toNat) :
    decodeAddr capIn capOut addr =
      if Config.inBase ≤ addr.toNat ∧ addr.toNat < Config.inBase + capIn then some (.inMem (addr.toNat - Config.inBase))
      else if Config.outBase ≤ addr.toNat ∧ addr.toNat < Config.outBase + capOut then
        some (.outMem (addr.toNat - Config.outBase))
      else none := by
  simp only [decodeAddr]
  rw [if_neg (by omega), if_neg (by omega), if_neg (by omega), if_neg (by omega), if_neg (by omega), if_neg (by omega),
    if_neg (by omega)]

end Windows

/-- The control registers whose busy reads are draws (R58), by word offset. -/
theorem registerAt_drawn : ∀ k < 13, (registerAt k).map Target.drawnWhileBusy = some (decide ((3 ≤ k ∧ k ≤ 8) ∨ k = 10)) := by
  decide

/-- A mapped address reaches a target, whose busy reads are draws iff the address is one of R58's. -/
theorem decodeAddr_of_mapped {capIn capOut : Nat} {addr : Word} (h : mappedAddr capIn capOut addr.toNat) :
    ∃ tg, decodeAddr capIn capOut addr = some tg ∧
      (tg.drawnWhileBusy = true ↔ drawnAddr capIn capOut addr.toNat) := by
  obtain ⟨halign, hreg | ⟨hlo, hhi⟩ | ⟨hlo, hhi⟩ | ⟨hlo, hhi⟩ | ⟨hlo, hhi⟩ | hin | hout⟩ := h
  · obtain ⟨tg, htg, hdrawn⟩ := Option.map_eq_some_iff.1 (registerAt_drawn (addr.toNat / 4) (by omega))
    refine ⟨tg, by rw [decodeAddr_register halign (by omega), htg], ?_⟩
    rw [hdrawn, decide_eq_true_iff]
    simp only [drawnAddr, Config.inBase, Config.outBase]
    omega
  · exact ⟨_, decodeAddr_freq halign hlo (by omega), iff_of_true rfl ⟨halign, by omega⟩⟩
  · exact ⟨_, decodeAddr_codeLen halign hlo (by omega), iff_of_true rfl ⟨halign, by omega⟩⟩
  · exact ⟨_, decodeAddr_codeBits halign hlo (by omega), iff_of_true rfl ⟨halign, by omega⟩⟩
  · exact ⟨_, decodeAddr_node halign hlo (by omega), iff_of_true rfl ⟨halign, by omega⟩⟩
  · have hlo : 0x6000 ≤ addr.toNat := le_trans (by decide) hin.1
    exact ⟨_, by rw [decodeAddr_memories halign hlo, if_pos hin], iff_of_true rfl ⟨halign, by omega⟩⟩
  · have hlo : 0x6000 ≤ addr.toNat := le_trans (by decide) hout.1
    rw [decodeAddr_memories halign hlo, if_pos hout]
    split
    · exact ⟨_, rfl, iff_of_true rfl ⟨halign, by omega⟩⟩
    · exact ⟨_, rfl, iff_of_true rfl ⟨halign, by omega⟩⟩

/-! The word of each table entry stands at the address that the spec gives it. -/

theorem decodeAddr_freqEntry (capIn capOut : Nat) (x : Byte) :
    decodeAddr capIn capOut (BitVec.ofNat 32 (0x400 + 4 * x.toNat)) = some (.freq x) := by
  have hx := x.isLt
  have ha := toNat_ofNat_word (a := 0x400 + 4 * x.toNat) (by omega)
  have hidx : (0x400 + 4 * x.toNat - 0x400) / 4 = x.toNat := by omega
  rw [decodeAddr_freq (by omega) (by omega) (by omega), ha, hidx, BitVec.ofNat_toNat, BitVec.setWidth_eq]

theorem decodeAddr_codeLenEntry (capIn capOut : Nat) (x : Byte) :
    decodeAddr capIn capOut (BitVec.ofNat 32 (0x800 + 4 * x.toNat)) = some (.codeLen x) := by
  have hx := x.isLt
  have ha := toNat_ofNat_word (a := 0x800 + 4 * x.toNat) (by omega)
  have hidx : (0x800 + 4 * x.toNat - 0x800) / 4 = x.toNat := by omega
  rw [decodeAddr_codeLen (by omega) (by omega) (by omega), ha, hidx, BitVec.ofNat_toNat, BitVec.setWidth_eq]

theorem decodeAddr_codeBitsEntry (capIn capOut : Nat) (x : Byte) (k : BitVec 3) :
    decodeAddr capIn capOut (BitVec.ofNat 32 (0x2000 + 32 * x.toNat + 4 * k.toNat)) = some (.codeBits x k) := by
  have hx := x.isLt
  have hk := k.isLt
  have ha := toNat_ofNat_word (a := 0x2000 + 32 * x.toNat + 4 * k.toNat) (by omega)
  have hsym : (0x2000 + 32 * x.toNat + 4 * k.toNat - 0x2000) / 32 = x.toNat := by omega
  have hword : BitVec.ofNat 3 ((0x2000 + 32 * x.toNat + 4 * k.toNat - 0x2000) / 4) = k := by
    apply BitVec.eq_of_toNat_eq
    rw [BitVec.toNat_ofNat]
    omega
  rw [decodeAddr_codeBits (by omega) (by omega) (by omega), ha, hsym, hword, BitVec.ofNat_toNat, BitVec.setWidth_eq]

theorem decodeAddr_nodeEntry (capIn capOut : Nat) {n m : Nat} (hn : n ≤ 511) (hm : m < 4) :
    decodeAddr capIn capOut (BitVec.ofNat 32 (0x4000 + 16 * n + 4 * m)) =
      some (.node (BitVec.ofNat 9 n) (BitVec.ofNat 2 m)) := by
  have ha := toNat_ofNat_word (a := 0x4000 + 16 * n + 4 * m) (by omega)
  have hslot : (0x4000 + 16 * n + 4 * m - 0x4000) / 16 = n := by omega
  have hword : BitVec.ofNat 2 ((0x4000 + 16 * n + 4 * m - 0x4000) / 4) = BitVec.ofNat 2 m := by
    apply BitVec.eq_of_toNat_eq
    rw [BitVec.toNat_ofNat, BitVec.toNat_ofNat]
    omega
  rw [decodeAddr_node (by omega) (by omega) (by omega), ha, hslot, hword]

/-! ### Transactions (R58, R67, R214) -/

theorem busRead_drawn {addr : Word} {s : State} {tg : Target} (h : decodeAddr s.capIn s.capOut addr = some tg)
    (hbusy : s.seq ≠ .idle) (hd : tg.drawnWhileBusy = true) :
    busRead addr s = some (Config.busyRead s.draws, s.tookDraw) := by
  simp [busRead, h, State.readTarget, busy_eq_true.2 hbusy, hd]

theorem busRead_defined {addr : Word} {s : State} {tg : Target} (h : decodeAddr s.capIn s.capOut addr = some tg)
    (hd : ¬(s.seq ≠ .idle ∧ tg.drawnWhileBusy = true)) : busRead addr s = some (s.targetWord tg, s) := by
  simp only [← busy_eq_true, ← Bool.and_eq_true] at hd
  simp [busRead, h, State.readTarget, hd]

theorem busRead_of_idle {addr : Word} {s : State} {tg : Target} (h : decodeAddr s.capIn s.capOut addr = some tg)
    (hidle : s.seq = .idle) : busRead addr s = some (s.targetWord tg, s) :=
  busRead_defined h fun hd => hd.1 hidle

theorem busRead_undrawn {addr : Word} {s : State} {tg : Target} (h : decodeAddr s.capIn s.capOut addr = some tg)
    (hd : tg.drawnWhileBusy = false) : busRead addr s = some (s.targetWord tg, s) :=
  busRead_defined h fun hd' => by simp [hd] at hd'

theorem busWrite_taken {addr d : Word} {s : State} {tg : Target} (h : decodeAddr s.capIn s.capOut addr = some tg)
    (hg : ¬(s.seq ≠ .idle ∧ tg.guarded = true)) : busWrite addr d s = some (s.writeTarget tg d) := by
  simp only [← busy_eq_true, ← Bool.and_eq_true] at hg
  simp [busWrite, h, hg]

/-! ### STATUS (R25, R26, R35) -/

/-- Settles O47: STATUS is not guarded, so its write is taken in every state. -/
theorem statusWriteClearsTheNamedFlags : Obligations.StatusWriteClearsTheNamedFlags := by
  intro s v
  have hwrite : busWrite 0x004#32 v s = some (s.ackStatus v) :=
    busWrite_taken (tg := .status) (decodeAddr_status _ _) (by simp [Target.guarded])
  have hclear : ∀ b c : Bool, (b && !c) = if c = true then false else b := by decide
  simp only [hwrite, State.ackStatus, hclear]

/-- The one-bit fields of the STATUS word (R25). -/
theorem statusWord_bits (s : State) :
    s.statusWord.getLsbD 0 = s.busy ∧ s.statusWord.getLsbD 1 = s.done ∧ s.statusWord.getLsbD 2 = s.err ∧
      s.statusWord.getLsbD 3 = s.drop ∧ s.statusWord.getLsbD 4 = false ∧ s.statusWord.getLsbD 5 = s.treeValid ∧
        s.statusWord.getLsbD 6 = s.codesValid ∧ s.statusWord.getLsbD 7 = s.fatal := by
  simp only [State.statusWord, BitVec.getLsbD_append, BitVec.getLsbD_ofBool]
  simp

theorem extractLsb'_append_low {v w : Nat} (x : BitVec v) (y : BitVec w) : (x ++ y).extractLsb' 0 w = y :=
  (BitVec.extractLsb'_append_eq_of_add_le (Nat.zero_add w).le).trans BitVec.extractLsb'_eq_self

theorem extractLsb'_append_second {u v w : Nat} (x : BitVec u) (y : BitVec v) (z : BitVec w) :
    (x ++ y ++ z).extractLsb' w v = y := by
  rw [BitVec.extractLsb'_append_eq_of_le le_rfl, Nat.sub_self, extractLsb'_append_low]

/-- The wide fields of the STATUS word (R25). -/
theorem statusWord_fields (s : State) :
    s.statusWord.extractLsb' 8 4 = s.errCode ∧ s.statusWord.extractLsb' 12 4 = s.lastOp ∧
      s.statusWord.extractLsb' 16 16 = 0#16 := by
  simp only [State.statusWord]
  refine ⟨?_, ?_, ?_⟩ <;> repeat rw [BitVec.extractLsb'_append_eq_of_le (by decide)]
  · exact extractLsb'_append_low _ _
  · exact extractLsb'_append_low _ _
  · exact BitVec.extractLsb'_eq_self

/-- Settles O48: a STATUS read is no draw, and each field stands at its place in the word. -/
theorem statusWordHoldsTheFields : Obligations.StatusWordHoldsTheFields := by
  intro s
  obtain ⟨hbusy, hdone, herr, hdrop, hzero, htree, hcodes, hfatal⟩ := statusWord_bits s
  exact ⟨s.statusWord, busRead_status s, by rw [hbusy, busy_eq_true], hdone, herr, hdrop, hzero, htree, hcodes, hfatal,
    statusWord_fields s⟩

/-! ### Reads of registers and windows (R23, R36 to R51, R58) -/

/-- A register narrower than a word reads below zeros. -/
theorem setWidth_eq_zero_append {n : Nat} (m : Nat) (x : BitVec n) : x.setWidth (m + n) = 0#m ++ x := by
  apply BitVec.eq_of_toNat_eq
  have hx := x.isLt
  have hle : 2 ^ n ≤ 2 ^ (m + n) := Nat.pow_le_pow_right (by decide) (by omega)
  simp [BitVec.toNat_append, Nat.mod_eq_of_lt (Nat.lt_of_lt_of_le hx hle)]

/-- Bit `31 - j` of word `k` of a stored code is bit `32k + j` of the code, counted from the left (R51). -/
theorem getLsbD_codeWord (bits : CodeStore) (k : BitVec 3) {j : Nat} (hj : j ≤ 31) :
    (codeWord bits k).getLsbD (31 - j) = bits.getMsbD (32 * k.toNat + j) := by
  have hk := k.isLt
  have hin : 31 - j < 32 := by omega
  have hpos : 32 * k.toNat + j < 256 := by omega
  have hidx : 224 - 32 * k.toNat + (31 - j) = 256 - 1 - (32 * k.toNat + j) := by omega
  simp only [codeWord, BitVec.getLsbD_extractLsb', BitVec.getMsbD_eq_getLsbD, hin, hpos, hidx, decide_true, Bool.true_and]

/-- Settles O54: the target of a mapped address is drawn while busy iff the address is one of R58's, and each register and
window entry stands at its own address. -/
theorem busyReadsAreDraws : Obligations.BusyReadsAreDraws := by
  refine ⟨fun s addr hmap => ?_, fun s => ?_, fun s hidle => ?_⟩
  · obtain ⟨tg, htg, hdrawn⟩ := decodeAddr_of_mapped hmap
    refine ⟨fun ⟨hbusy, hd⟩ => busRead_drawn htg hbusy (hdrawn.2 hd), fun hnot => ?_⟩
    rw [← hdrawn] at hnot
    exact ⟨_, busRead_defined htg hnot⟩
  · exact ⟨busRead_undrawn (tg := .cmd) rfl rfl, busRead_undrawn (tg := .inLen) rfl rfl,
      (busRead_undrawn (tg := .irqEn) rfl rfl).trans (by rw [State.targetWord, ← setWidth_eq_zero_append]),
      busRead_undrawn (tg := .capIn) rfl rfl, busRead_undrawn (tg := .capOut) rfl rfl⟩
  · have hread {addr : Word} {tg : Target} {w : Word} (h : decodeAddr s.capIn s.capOut addr = some tg)
        (hw : s.targetWord tg = w) : busRead addr s = some (w, s) := hw ▸ busRead_of_idle h hidle
    refine ⟨hread (tg := .outLen) rfl rfl, hread (tg := .totalBits) rfl rfl,
      hread (tg := .pad) rfl (setWidth_eq_zero_append 29 _), hread (tg := .nsym) rfl (setWidth_eq_zero_append 23 _),
      hread (tg := .root) rfl (setWidth_eq_zero_append 23 _), hread (tg := .nnodes) rfl (setWidth_eq_zero_append 22 _),
      hread (tg := .errInfo) rfl rfl, fun x => ⟨hread (decodeAddr_freqEntry _ _ x) rfl,
        hread (decodeAddr_codeLenEntry _ _ x) (setWidth_eq_zero_append 23 _), fun k => ?_⟩⟩
    exact ⟨_, hread (decodeAddr_codeBitsEntry _ _ x k) rfl, fun j hj => getLsbD_codeWord _ k hj⟩

/-! ### The NODE window (R48) -/

theorem nodeKind_bit_eq (kind : NodeKind) : kind.bit.getLsbD 0 = true ↔ kind = .internal := by cases kind <;> decide

/-- The four words of a slot hold its fields and zeros (R48). -/
theorem nodeWord_fields (n : Node) :
    nodeWord n 0 = n.freq.extractLsb' 0 32 ∧
      ((nodeWord n 1).extractLsb' 0 8 = n.freq.extractLsb' 32 8 ∧ (nodeWord n 1).extractLsb' 8 24 = 0#24) ∧
        (((nodeWord n 2).getLsbD 31 = true ↔ n.kind = .internal) ∧ (nodeWord n 2).extractLsb' 0 9 = n.sym ∧
          (nodeWord n 2).extractLsb' 9 22 = 0#22) ∧
            (nodeWord n 3).extractLsb' 0 9 = n.left ∧ (nodeWord n 3).extractLsb' 16 9 = n.right ∧
              (nodeWord n 3).extractLsb' 9 7 = 0#7 ∧ (nodeWord n 3).extractLsb' 25 7 = 0#7 := by
  have h1 : nodeWord n 1 = 0#24 ++ n.freq.extractLsb' 32 8 := setWidth_eq_zero_append 24 _
  have h2 : nodeWord n 2 = n.kind.bit ++ 0#22 ++ n.sym := rfl
  have h3 : nodeWord n 3 = 0#7 ++ n.right ++ 0#7 ++ n.left := rfl
  refine ⟨rfl, ?_, ⟨?_, ?_⟩, ?_⟩
  · rw [h1]
    exact ⟨extractLsb'_append_low _ _, (BitVec.extractLsb'_append_eq_of_le (by decide)).trans BitVec.extractLsb'_eq_self⟩
  · rw [h2, ← nodeKind_bit_eq]
    simp only [BitVec.getLsbD_append]
    simp
  · rw [h2]
    exact ⟨extractLsb'_append_low _ _, extractLsb'_append_second _ _ _⟩
  · rw [h3]
    refine ⟨extractLsb'_append_low _ _, ?_, extractLsb'_append_second _ _ _, ?_⟩ <;>
      repeat rw [BitVec.extractLsb'_append_eq_of_le (by decide)]
    · exact extractLsb'_append_low _ _
    · exact BitVec.extractLsb'_eq_self

/-- A cleared slot reads 0 in all four words (R48). -/
theorem nodeWord_cleared (m : BitVec 2) : nodeWord Node.cleared m = 0#32 := by
  revert m
  decide

/-- Settles O57: word `m` of slot `n` stands at `0x4000 + 16n + 4m`; index 511 is `NIL` and reads as a cleared slot. -/
theorem nodeWindowShowsTheSlots : Obligations.NodeWindowShowsTheSlots := by
  intro s n hidle hn
  have hread (m : Nat) (hm : m < 4) : busRead (BitVec.ofNat 32 (0x4000 + 16 * n + 4 * m)) s =
      some (nodeWord (slot s.nodes n) (BitVec.ofNat 2 m), s) := busRead_of_idle (decodeAddr_nodeEntry _ _ hn hm) hidle
  obtain ⟨hw0, ⟨hw1, hw1z⟩, ⟨hw2k, hw2s, hw2z⟩, hw3l, hw3r, hw3z, hw3z'⟩ := nodeWord_fields (slot s.nodes n)
  refine ⟨_, _, _, _, hread 0 (by decide), hread 1 (by decide), hread 2 (by decide), hread 3 (by decide), hw0, hw1, hw1z,
    hw2k, hw2s, hw2z, hw3l, hw3r, hw3z, hw3z', ?_⟩
  rintro rfl
  have hnil : slot s.nodes 511 = Node.cleared := nodeAt_nil s.nodes
  simp only [hnil, nodeWord_cleared, and_self]

/-! ### Host writes (R36, R37, R44, R214) -/

/-- Settles O55: IRQ_EN is not guarded; IN_LEN and FREQ are, and an idle HCB takes their writes. -/
theorem idleHostWritesTakeEffect : Obligations.IdleHostWritesTakeEffect := by
  intro s v
  have hirq : busWrite 0x024#32 v s = some (s.setIrqEn v) :=
    busWrite_taken (tg := .irqEn) rfl (by simp [Target.guarded])
  refine ⟨hirq, fun hidle =>
    ⟨busWrite_taken (tg := .inLen) rfl fun hg => hg.1 hidle, fun x => ?_⟩⟩
  have hfreq := decodeAddr_freqEntry s.capIn s.capOut x
  refine ⟨s.setFreq x v, busWrite_taken hfreq fun hg => hg.1 hidle, rfl, rfl, tableGet_set_same _ _ _,
    fun y hy => tableGet_set_other _ _ hy, rfl, ?_⟩
  rw [busRead_of_idle (s := s.setFreq x v) hfreq hidle, State.targetWord, State.setFreq_freq, tableGet_set_same]

end Sys2Proof.Machine
end

section
/-! SUPPORT. What BUILD_TREE builds (R41 to R43, R49, R126 to R133): the leaves of the counted symbols, the invariant of the merge
loop, and the tree that it leaves. -/

namespace Sys2Proof.Machine

/-! ### The counted symbols and their leaves (R126, R129) -/

/-- The symbols with a non-zero counter, in ascending order. -/
def countedSymbols (freq : Vector Word 256) : List Byte :=
  ((List.range 256).map (BitVec.ofNat 8)).filter fun x => tableGet freq x ≠ 0#32

/-- The leaf of a counted symbol (R49 (a)). -/
def leafOf (freq : Vector Word 256) (x : Byte) : Node :=
  ⟨.leaf, (tableGet freq x).setWidth 40, x.setWidth 9, Config.nil, Config.nil⟩

/-- The slots before the first merge: the leaves, and after a single one the sentinel (R129). -/
def startNodes (freq : Vector Word 256) : List Node :=
  (countedSymbols freq).map (leafOf freq) ++ if (countedSymbols freq).length = 1 then [sentinelNode] else []

theorem mem_countedSymbols {freq : Vector Word 256} {x : Byte} : x ∈ countedSymbols freq ↔ tableGet freq x ≠ 0#32 := by
  have hx : x ∈ (List.range 256).map (BitVec.ofNat 8) := List.mem_map.2 ⟨x.toNat, List.mem_range.2 x.isLt, by simp⟩
  simp [countedSymbols, hx]

theorem countedSymbols_sorted (freq : Vector Word 256) : (countedSymbols freq).Pairwise (· < ·) := by
  refine List.Pairwise.filter _ (List.pairwise_map.2 (List.pairwise_lt_range.imp_of_mem fun {a b} ha hb hlt => ?_))
  have ha := List.mem_range.1 ha
  have hb := List.mem_range.1 hb
  rw [BitVec.lt_def, BitVec.toNat_ofNat, BitVec.toNat_ofNat]
  omega

theorem countedSymbols_length_le (freq : Vector Word 256) : (countedSymbols freq).length ≤ 256 :=
  (List.length_filter_le _ _).trans (by simp)

/-- `distinctSymbols` counts the counted symbols (R41). -/
theorem distinctSymbols_eq (freq : Vector Word 256) : distinctSymbols freq = (countedSymbols freq).length := by
  simp only [distinctSymbols, sumOverSymbols, countedSymbols]
  induction List.range 256 with
  | nil => rfl
  | cons x xs ih => by_cases h : tableGet freq (BitVec.ofNat 8 x) = 0#32 <;> simp [h, ih, Nat.add_comm]

/-- The slots that `addLeaves` adds. -/
theorem addLeaves_nodes (fs : List Word) (sym : Nat) (b : Builder) :
    (addLeaves fs sym b).nodes =
      b.nodes ++ ((fs.zipIdx sym).filter fun p => p.1 ≠ 0#32).map fun p => leafNode p.2 p.1 := by
  induction fs generalizing sym b with
  | nil => simp [addLeaves]
  | cons f fs ih =>
    rw [addLeaves, ih]
    by_cases h : f = 0#32 <;> simp [h, List.zipIdx_cons]

theorem zipIdx_counters (freq : Vector Word 256) :
    freq.toList.zipIdx = (List.range 256).map fun i => (tableGet freq (BitVec.ofNat 8 i), i) := by
  apply List.ext_getElem
  · simp
  · intro i h1 h2
    have hi : i < 256 := by simpa using h2
    simp [tableGet, Nat.mod_eq_of_lt hi]

theorem leafNode_eq_leafOf (freq : Vector Word 256) (x : Byte) : leafNode x.toNat (tableGet freq x) = leafOf freq x := by
  simp [leafNode, leafOf, BitVec.ofNat_toNat]

theorem leavesOf_nodes (freq : Vector Word 256) : (leavesOf freq).nodes = (countedSymbols freq).map (leafOf freq) := by
  rw [leavesOf, addLeaves_nodes, zipIdx_counters, countedSymbols, List.filter_map, List.filter_map, List.map_map, List.map_map]
  apply List.map_congr_left
  intro i hi
  have hi : i < 256 := List.mem_range.1 (List.mem_filter.1 hi).1
  have hsym : (BitVec.ofNat 8 i).toNat = i := Nat.mod_eq_of_lt hi
  have hleaf := leafNode_eq_leafOf freq (BitVec.ofNat 8 i)
  rwa [hsym] at hleaf

theorem addSentinel_leaves_nodes (freq : Vector Word 256) : (addSentinel (leavesOf freq)).nodes = startNodes freq := by
  unfold addSentinel startNodes
  rw [leavesOf_nodes, List.length_map]
  split
  · rw [addNode_nodes, leavesOf_nodes]
  · rw [leavesOf_nodes, List.append_nil]

theorem startNodes_length (freq : Vector Word 256) :
    (startNodes freq).length = if (countedSymbols freq).length = 1 then 2 else (countedSymbols freq).length := by
  unfold startNodes
  split <;> simp [*]

theorem mem_startNodes {freq : Vector Word 256} {n : Node} (h : n ∈ startNodes freq) :
    (∃ x ∈ countedSymbols freq, n = leafOf freq x) ∨ n = sentinelNode := by
  rcases List.mem_append.1 h with h | h
  · obtain ⟨x, hx, rfl⟩ := List.mem_map.1 h
    exact .inl ⟨x, hx, rfl⟩
  · split at h
    · exact .inr (List.mem_singleton.1 h)
    · exact absurd h List.not_mem_nil

theorem startNodes_kind {freq : Vector Word 256} {n : Node} (h : n ∈ startNodes freq) : n.kind = .leaf := by
  rcases mem_startNodes h with ⟨x, _, rfl⟩ | rfl <;> rfl

/-- The counters sum to less than 2^40 (R10): at most 256 leaves, each below 2^32. -/
theorem startNodes_freq_sum (freq : Vector Word 256) (hle : (startNodes freq).length ≤ 256) :
    ((startNodes freq).map fun n => n.freq.toNat).sum < 2 ^ 40 := by
  have hbound : ∀ m ∈ (startNodes freq).map fun n => n.freq.toNat, m ≤ 2 ^ 32 - 1 := by
    intro m hm
    obtain ⟨n, hn, rfl⟩ := List.mem_map.1 hm
    rcases mem_startNodes hn with ⟨x, _, rfl⟩ | rfl
    · have hlt := (tableGet freq x).isLt
      simp only [leafOf, BitVec.toNat_setWidth]
      omega
    · simp [sentinelNode]
  have hsum := List.sum_le_card_nsmul _ _ hbound
  rw [List.length_map, smul_eq_mul] at hsum
  omega

/-! ### The queue before the first merge -/

/-- The key of every slot (R16). -/
def keysOf (ns : List Node) : List PqKey := ns.zipIdx.map fun p => ⟨p.1.freq, BitVec.ofNat 9 p.2⟩

theorem addNode_keeps_queue (n : Node) {b : Builder} (h : b.pq.Perm (keysOf b.nodes)) :
    (addNode n b).pq.Perm (keysOf (addNode n b).nodes) := by
  have hkeys : keysOf (b.nodes ++ [n]) = keysOf b.nodes ++ [⟨n.freq, BitVec.ofNat 9 b.nodes.length⟩] := by
    simp [keysOf, List.zipIdx_append]
  rw [addNode_pq, addNode_nodes, hkeys]
  exact (pqInsert_perm _ _).trans ((h.cons _).trans (List.perm_append_singleton _ _).symm)

theorem addLeaves_keeps_queue (fs : List Word) (sym : Nat) {b : Builder} (h : b.pq.Perm (keysOf b.nodes)) :
    (addLeaves fs sym b).pq.Perm (keysOf (addLeaves fs sym b).nodes) := by
  induction fs generalizing sym b with
  | nil => exact h
  | cons f fs ih =>
    rw [addLeaves]
    split
    · exact ih _ h
    · exact ih _ (addNode_keeps_queue _ h)

/-- The queue holds the key of every slot when the merge loop begins (R127). -/
theorem start_queue (freq : Vector Word 256) : (addSentinel (leavesOf freq)).pq.Perm (keysOf (startNodes freq)) := by
  have hleaves : (leavesOf freq).pq.Perm (keysOf (leavesOf freq).nodes) := addLeaves_keeps_queue _ _ (List.Perm.refl _)
  rw [← addSentinel_leaves_nodes]
  unfold addSentinel
  split
  · exact addNode_keeps_queue _ hleaves
  · exact hleaves

theorem keysOf_freqs (ns : List Node) : (keysOf ns).map (fun k => k.freq.toNat) = ns.map fun n => n.freq.toNat := by
  have hmap : (keysOf ns).map (fun k => k.freq.toNat) = (ns.zipIdx.map Prod.fst).map fun n => n.freq.toNat := by
    rw [keysOf, List.map_map, List.map_map]
    rfl
  rw [hmap, List.zipIdx_map_fst]

theorem keysOf_indices {ns : List Node} (h : ns.length ≤ 512) :
    (keysOf ns).map (fun k => k.idx.toNat) = List.range ns.length := by
  apply List.ext_getElem
  · simp [keysOf]
  · intro i h1 h2
    have hi : i < ns.length := by simpa using h2
    simp [keysOf]
    omega

end Sys2Proof.Machine
end

section
/-! SUPPORT. The merge loop of BUILD_TREE keeps that every slot is either in the queue or the child of exactly one slot, so that
what it leaves is a strict binary tree (R49, R130, R131). -/

namespace Sys2Proof.Machine

/-! ### Slots and their children -/

/-- Slot `n` of the slots filled so far. -/
def slotOf (ns : List Node) (n : Nat) : Node := ns.getD n Node.cleared

theorem slotOf_append_left {ns : List Node} {n : Nat} (h : n < ns.length) (ms : List Node) :
    slotOf (ns ++ ms) n = slotOf ns n := List.getD_append _ _ _ _ h

theorem slotOf_append_self (ns : List Node) (m : Node) : slotOf (ns ++ [m]) ns.length = m := by simp [slotOf]

theorem slotOf_eq_getElem {ns : List Node} {n : Nat} (h : n < ns.length) : slotOf ns n = ns[n] := List.getD_eq_getElem _ _ h

theorem slotOf_of_prefix {start ns : List Node} (hpre : start <+: ns) {n : Nat} (h : n < start.length) :
    slotOf ns n = slotOf start n := by
  obtain ⟨ms, rfl⟩ := hpre
  exact slotOf_append_left h ms

/-- The children of a node, if it is Internal. -/
def Node.children (n : Node) : List Nat :=
  match n.kind with
  | .leaf => []
  | .internal => [n.left.toNat, n.right.toNat]

theorem Node.children_of_leaf {n : Node} (h : n.kind = .leaf) : n.children = [] := by simp [Node.children, h]

theorem Node.children_of_internal {n : Node} (h : n.kind = .internal) : n.children = [n.left.toNat, n.right.toNat] := by
  simp [Node.children, h]

theorem Node.mem_children {n : Node} {c : Nat} :
    c ∈ n.children ↔ n.kind = .internal ∧ (n.left.toNat = c ∨ n.right.toNat = c) := by
  cases h : n.kind <;> simp [Node.children, h, eq_comm]

/-- The children of all slots, in slot order. -/
def childrenOf (ns : List Node) : List Nat := ns.flatMap Node.children

theorem childrenOf_append (ns : List Node) (m : Node) : childrenOf (ns ++ [m]) = childrenOf ns ++ m.children := by
  simp [childrenOf]

theorem mem_childrenOf {ns : List Node} {c : Nat} : c ∈ childrenOf ns ↔ ∃ p < ns.length, c ∈ (slotOf ns p).children := by
  rw [childrenOf, List.mem_flatMap]
  constructor
  · rintro ⟨n, hn, hc⟩
    obtain ⟨p, hp, rfl⟩ := List.mem_iff_getElem.1 hn
    exact ⟨p, hp, by rwa [slotOf_eq_getElem hp]⟩
  · rintro ⟨p, hp, hc⟩
    rw [slotOf_eq_getElem hp] at hc
    exact ⟨_, List.getElem_mem hp, hc⟩

theorem childrenOf_leaves {ns : List Node} (h : ∀ n ∈ ns, n.kind = .leaf) : childrenOf ns = [] :=
  List.flatMap_eq_nil_iff.2 fun n hn => Node.children_of_leaf (h n hn)

/-- No repeat among all children: a slot has one parent, and a node two different children. -/
theorem parent_unique {ns : List Node} (h : (childrenOf ns).Nodup) {p q c : Nat} (hp : p < ns.length) (hq : q < ns.length)
    (hcp : c ∈ (slotOf ns p).children) (hcq : c ∈ (slotOf ns q).children) : q = p := by
  have hdisj := List.pairwise_iff_getElem.1 (List.nodup_flatMap.1 h).2
  rw [slotOf_eq_getElem hp] at hcp
  rw [slotOf_eq_getElem hq] at hcq
  rcases Nat.lt_trichotomy p q with hlt | heq | hlt
  · exact (hdisj p q hp hq hlt hcp hcq).elim
  · exact heq.symm
  · exact (hdisj q p hq hp hlt hcq hcp).elim

theorem children_ne {ns : List Node} (h : (childrenOf ns).Nodup) {p : Nat} (hp : p < ns.length)
    (hkind : (slotOf ns p).kind = .internal) : (slotOf ns p).left ≠ (slotOf ns p).right := by
  have hnodup := (List.nodup_flatMap.1 h).1 _ (List.getElem_mem hp)
  rw [← slotOf_eq_getElem hp, Node.children_of_internal hkind, List.nodup_cons, List.mem_singleton, BitVec.toNat_inj] at hnodup
  exact hnodup.1

/-! ### One merge -/

/-- Slot `n` is Internal, above its children, and its frequency is the sum of theirs (R49 (c), R130). -/
structure MergedAt (ns : List Node) (n : Nat) : Prop where
  kind : (slotOf ns n).kind = .internal
  sym : (slotOf ns n).sym = 0#9
  left_lt : (slotOf ns n).left.toNat < n
  right_lt : (slotOf ns n).right.toNat < n
  freq : (slotOf ns n).freq.toNat =
    (slotOf ns (slotOf ns n).left.toNat).freq.toNat + (slotOf ns (slotOf ns n).right.toNat).freq.toNat

theorem MergedAt.append {ns : List Node} {n : Nat} (h : MergedAt ns n) (hn : n < ns.length) (m : Node) :
    MergedAt (ns ++ [m]) n := by
  constructor <;> rw [slotOf_append_left hn]
  · exact h.kind
  · exact h.sym
  · exact h.left_lt
  · exact h.right_lt
  · rw [slotOf_append_left (h.left_lt.trans hn), slotOf_append_left (h.right_lt.trans hn), h.freq]

/-- The node that a merge of the keys `x` and `y` adds (R130). -/
def mergedNode (x y : PqKey) : Node := ⟨.internal, x.freq + y.freq, 0#9, x.idx, y.idx⟩

/-- What the merge loop keeps of the slots and the queue, from the slots `start` on. -/
structure MergeInv (start : List Node) (b : Builder) : Prop where
  leaves : start <+: b.nodes
  size : b.nodes.length + b.pq.length = 2 * start.length
  nonempty : b.pq ≠ []
  merged : ∀ n, start.length ≤ n → n < b.nodes.length → MergedAt b.nodes n
  keys : ∀ k ∈ b.pq, k.freq = (slotOf b.nodes k.idx.toNat).freq
  sum : (b.pq.map fun k => k.freq.toNat).sum < 2 ^ 40
  once : (childrenOf b.nodes ++ b.pq.map fun k => k.idx.toNat).Perm (List.range b.nodes.length)

/-- A merge moves two indices from the queue to the children and puts a new one in. -/
theorem perm_merge {cs l r : List Nat} {i j n : Nat} (h : (cs ++ i :: j :: l).Perm r) :
    (cs ++ [i, j] ++ n :: l).Perm (r ++ [n]) := by
  have hl : cs ++ [i, j] ++ l = cs ++ i :: j :: l := by simp
  have hfront : (cs ++ [i, j] ++ n :: l).Perm (n :: (cs ++ i :: j :: l)) := hl ▸ List.perm_middle
  exact hfront.trans ((h.cons n).trans (List.perm_append_singleton n r).symm)

namespace MergeInv

variable {start : List Node} {b : Builder}

theorem idx_lt (h : MergeInv start b) {k : PqKey} (hk : k ∈ b.pq) : k.idx.toNat < b.nodes.length :=
  List.mem_range.1 (h.once.subset (List.mem_append_right _ (List.mem_map_of_mem hk)))

/-- The slot that a merge adds sums its children: the queue's frequencies leave room for their sum (R10). -/
theorem mergedAt_new (h : MergeInv start b) {x y : PqKey} {q : List PqKey} (hq : b.pq = x :: y :: q) :
    MergedAt (b.nodes ++ [mergedNode x y]) b.nodes.length := by
  have hx : x ∈ b.pq := by simp [hq]
  have hy : y ∈ b.pq := by simp [hq]
  have hsum := h.sum
  simp only [hq, List.map_cons, List.sum_cons] at hsum
  constructor <;> rw [slotOf_append_self]
  · rfl
  · rfl
  · exact h.idx_lt hx
  · exact h.idx_lt hy
  · simp only [mergedNode]
    rw [slotOf_append_left (h.idx_lt hx), slotOf_append_left (h.idx_lt hy), ← h.keys x hx, ← h.keys y hy,
      BitVec.toNat_add, Nat.mod_eq_of_lt (by omega)]

theorem merge (h : MergeInv start b) (hle : start.length ≤ 256) {x y : PqKey} {q : List PqKey} (hq : b.pq = x :: y :: q) :
    MergeInv start (addNode (mergedNode x y) ⟨b.nodes, q⟩) := by
  have hsize : b.nodes.length + (q.length + 2) = 2 * start.length := by simpa [hq] using h.size
  have hsum : x.freq.toNat + (y.freq.toNat + (q.map fun k => k.freq.toNat).sum) < 2 ^ 40 := by simpa [hq] using h.sum
  have hidx : (BitVec.ofNat 9 b.nodes.length).toNat = b.nodes.length := by
    rw [BitVec.toNat_ofNat]
    omega
  have hnodes : (addNode (mergedNode x y) ⟨b.nodes, q⟩).nodes = b.nodes ++ [mergedNode x y] := rfl
  have hpq : (addNode (mergedNode x y) ⟨b.nodes, q⟩).pq.Perm (⟨x.freq + y.freq, BitVec.ofNat 9 b.nodes.length⟩ :: q) :=
    pqInsert_perm _ _
  have hlen := hpq.length_eq
  rw [List.length_cons] at hlen
  constructor <;> try rw [hnodes]
  case leaves => exact h.leaves.trans (List.prefix_append _ _)
  case size =>
    rw [hlen, List.length_append, List.length_singleton]
    omega
  case nonempty =>
    rw [← List.length_pos_iff]
    omega
  case merged =>
    intro n hlo hhi
    rw [List.length_append, List.length_singleton] at hhi
    rcases Nat.lt_succ_iff_lt_or_eq.1 hhi with hlt | rfl
    · exact (h.merged n hlo hlt).append hlt _
    · exact h.mergedAt_new hq
  case keys =>
    intro k hk
    rcases List.mem_cons.1 (hpq.subset hk) with rfl | hk
    · rw [hidx, slotOf_append_self]
      rfl
    · have hk : k ∈ b.pq := by simp [hq, hk]
      rw [slotOf_append_left (h.idx_lt hk), h.keys k hk]
  case sum =>
    rw [(hpq.map _).sum_eq, List.map_cons, List.sum_cons, BitVec.toNat_add, Nat.mod_eq_of_lt (by omega)]
    omega
  case once =>
    have honce := h.once
    rw [hq, List.map_cons, List.map_cons] at honce
    have hmoved := ((hpq.map fun k => k.idx.toNat).append_left _).trans (perm_merge honce)
    rw [childrenOf_append, List.length_append, List.length_singleton, List.range_succ]
    simp only [hidx] at hmoved
    exact hmoved

end MergeInv

/-! ### The tree that BUILD_TREE leaves -/

/-- The slots of a tree built from the slots `start` (R49): each slot but the last is the child of exactly one slot. -/
structure BuiltFrom (start ns : List Node) : Prop where
  leaves : start <+: ns
  size : ns.length + 1 = 2 * start.length
  merged : ∀ n, start.length ≤ n → n < ns.length → MergedAt ns n
  once : (childrenOf ns ++ [ns.length - 1]).Perm (List.range ns.length)

theorem MergedAt.children_lt {ns : List Node} {n c : Nat} (h : MergedAt ns n) (hc : c ∈ (slotOf ns n).children) : c < n := by
  obtain ⟨_, rfl | rfl⟩ := Node.mem_children.1 hc
  · exact h.left_lt
  · exact h.right_lt

/-- The last key in the queue is that of the last slot, which no slot can have as a child (R131). -/
theorem MergeInv.built {start : List Node} {b : Builder} (h : MergeInv start b) (hstart : ∀ n ∈ start, n.kind = .leaf)
    (hone : b.pq.length < 2) :
    ∃ k, b.pq = [k] ∧ k.idx.toNat + 1 = b.nodes.length ∧ BuiltFrom start b.nodes := by
  have hpos := List.length_pos_iff.2 h.nonempty
  obtain ⟨k, hk⟩ := List.length_eq_one_iff.1 (show b.pq.length = 1 by omega)
  obtain ⟨hleaves, hsize, _, hmerged, _, _, honce⟩ := h
  simp only [hk, List.length_singleton, List.map_cons, List.map_nil] at hsize honce
  have hlt : b.nodes.length - 1 < b.nodes.length := by have := hleaves.length_le; omega
  have hchild : b.nodes.length - 1 ∉ childrenOf b.nodes := by
    intro hc
    obtain ⟨p, hp, hc⟩ := mem_childrenOf.1 hc
    by_cases hps : p < start.length
    · rw [slotOf_of_prefix hleaves hps, slotOf_eq_getElem hps,
        Node.children_of_leaf (hstart _ (List.getElem_mem hps))] at hc
      exact List.not_mem_nil hc
    · have := (hmerged p (by omega) hp).children_lt hc
      omega
  have hroot : b.nodes.length - 1 = k.idx.toNat :=
    List.mem_singleton.1 ((List.mem_append.1 (honce.symm.subset (List.mem_range.2 hlt))).resolve_left hchild)
  exact ⟨k, hk, by omega, hleaves, hsize, hmerged, hroot ▸ honce⟩

/-- The invariant holds when the merge loop begins: no slot has children, and every slot's key is in the queue. -/
theorem mergeInv_start {start : List Node} {pq : List PqKey} (hpq : pq.Perm (keysOf start)) (hlen : 2 ≤ start.length)
    (hle : start.length ≤ 256) (hkind : ∀ n ∈ start, n.kind = .leaf) (hsum : (start.map fun n => n.freq.toNat).sum < 2 ^ 40) :
    MergeInv start ⟨start, pq⟩ := by
  have hpqlen : pq.length = start.length := by simpa [keysOf] using hpq.length_eq
  constructor
  case leaves => exact List.prefix_rfl
  case size => simp only [hpqlen]; omega
  case nonempty => exact List.length_pos_iff.1 (by simp only [hpqlen]; omega)
  case merged => exact fun n hlo hhi => absurd hlo (Nat.not_le.2 hhi)
  case keys =>
    intro k hk
    obtain ⟨⟨n, i⟩, hni, rfl⟩ := List.mem_map.1 (hpq.subset hk)
    obtain ⟨_, hi, hn⟩ := List.mem_zipIdx hni
    simp only [Nat.zero_add] at hi
    have hidx : (BitVec.ofNat 9 i).toNat = i := by
      rw [BitVec.toNat_ofNat]
      omega
    simp only [hidx, slotOf_eq_getElem hi, hn, Nat.sub_zero]
  case sum => rwa [(hpq.map _).sum_eq, keysOf_freqs]
  case once =>
    have hindices := keysOf_indices (ns := start) (by omega)
    rw [childrenOf_leaves hkind, List.nil_append, ← hindices]
    exact hpq.map _

theorem leavesOf_length (freq : Vector Word 256) : (leavesOf freq).nodes.length = (countedSymbols freq).length := by
  rw [leavesOf_nodes, List.length_map]

/-- Everything BUILD_TREE leaves (R127, R128, R131). -/
theorem treeOf_eq_ok {freq : Vector Word 256} {t : Tree} (h : treeOf freq = .ok t) :
    (countedSymbols freq = [] ∧ t = emptyTree) ∨
      (countedSymbols freq ≠ [] ∧ ∃ ns, BuiltFrom (startNodes freq) ns ∧
        t = ⟨nodeMemory ns, BitVec.ofNat 9 (countedSymbols freq).length, BitVec.ofNat 9 (ns.length - 1),
          BitVec.ofNat 10 ns.length⟩) := by
  simp only [treeOf, leavesOf_length] at h
  by_cases hnil : countedSymbols freq = []
  · rw [hnil, List.length_nil, if_pos rfl] at h
    exact .inl ⟨hnil, (Except.ok.inj h).symm⟩
  · have hpos := List.length_pos_iff.2 hnil
    have hle := countedSymbols_length_le freq
    have hstart := startNodes_length freq
    have hlen : 2 ≤ (startNodes freq).length ∧ (startNodes freq).length ≤ 256 := by split at hstart <;> omega
    have hinv : MergeInv (startNodes freq) (addSentinel (leavesOf freq)) := by
      have := mergeInv_start (start_queue freq) hlen.1 hlen.2 (fun n => startNodes_kind) (startNodes_freq_sum freq hlen.2)
      rwa [← addSentinel_leaves_nodes] at this ⊢
    obtain ⟨b, hloop, hinv, hone⟩ := mergeLoop_induction (MergeInv (startNodes freq))
      (fun b x y q hq hb => hb.merge hlen.2 hq) _ _ (Nat.le_succ _) hinv
    obtain ⟨k, hk, hroot, hbuilt⟩ := hinv.built (fun n => startNodes_kind) hone
    have hidx : k.idx = BitVec.ofNat 9 (b.nodes.length - 1) := by rw [← hroot]; simp
    rw [if_neg (by omega), hloop] at h
    simp only [hk, lastIndex, hidx, Except.ok.injEq] at h
    exact .inr ⟨hnil, b.nodes, hbuilt, h.symm⟩

/-! ### The tree registers and the node memory of a state with a valid tree -/

/-- The node memory and the tree registers hold a tree of at least one symbol, in the slots `ns`. -/
structure HoldsTree (s : State) (ns : List Node) : Prop where
  counted : countedSymbols s.freq ≠ []
  built : BuiltFrom (startNodes s.freq) ns
  slots : ∀ n ≤ 511, slot s.nodes n = slotOf ns n
  nsym : s.nsym.toNat = (countedSymbols s.freq).length
  root : s.root.toNat + 1 = ns.length
  nnodes : s.nnodes.toNat = ns.length

theorem slot_nodeMemory {ns : List Node} (h : ns.length ≤ 511) {n : Nat} (hn : n ≤ 511) :
    slot (nodeMemory ns) n = slotOf ns n := by
  rw [slot, nodeAt_nodeMemory ns _ h, BitVec.toNat_ofNat, Nat.mod_eq_of_lt (by omega), slotOf]

theorem nodeAt_eq_slot (nodes : Vector Node 511) (n : Idx) : nodeAt nodes n = slot nodes n.toNat := by
  rw [slot, BitVec.ofNat_toNat, BitVec.setWidth_eq]

/-- A valid tree is the empty tree or one built from the counted symbols (R127, R128). -/
theorem holdsTree_cases {s : State} (hcur : s.treeCurrent) (hvalid : s.treeValid = true) :
    (countedSymbols s.freq = [] ∧ s.nodes = nodeMemory [] ∧ s.nsym = 0#9 ∧ s.root = Config.nil ∧ s.nnodes = 0#10) ∨
      ∃ ns, HoldsTree s ns := by
  rcases treeOf_eq_ok (hcur hvalid) with ⟨hnil, ht⟩ | ⟨hne, ns, hbuilt, ht⟩ <;> rw [Tree.mk.injEq] at ht <;>
    obtain ⟨hnodes, hnsym, hroot, hnnodes⟩ := ht
  · exact .inl ⟨hnil, hnodes, hnsym, hroot, hnnodes⟩
  · have hpos := List.length_pos_iff.2 hne
    have hle := countedSymbols_length_le s.freq
    have hstart := startNodes_length s.freq
    have hlen : (startNodes s.freq).length ≤ 256 := by split at hstart <;> omega
    have hsize := hbuilt.size
    refine .inr ⟨ns, hne, hbuilt, fun n hn => hnodes ▸ slot_nodeMemory (by omega) hn, ?_, ?_, ?_⟩
    · rw [hnsym, BitVec.toNat_ofNat, Nat.mod_eq_of_lt (by omega)]
    · rw [hroot, BitVec.toNat_ofNat, Nat.mod_eq_of_lt (by omega)]
      omega
    · rw [hnnodes, BitVec.toNat_ofNat, Nat.mod_eq_of_lt (by omega)]

end Sys2Proof.Machine
end

section
/-! SUPPORT. The statements on a valid tree (R41 to R43, R49, R126, R129 to R133), read off the slots that BUILD_TREE leaves. -/

namespace Sys2Proof.Machine

namespace HoldsTree

variable {s : State} {ns : List Node}

theorem start_length (h : HoldsTree s ns) : (startNodes s.freq).length = firstInternal s := by
  have hone : s.nsym = 1#9 ↔ (countedSymbols s.freq).length = 1 := by
    rw [← h.nsym, BitVec.toNat_eq]
    rfl
  rw [startNodes_length, firstInternal, h.nsym]
  simp only [hone]

theorem start_bounds (h : HoldsTree s ns) : 2 ≤ firstInternal s ∧ firstInternal s ≤ 256 := by
  have hpos := List.length_pos_iff.2 h.counted
  have hle := countedSymbols_length_le s.freq
  have hlen := startNodes_length s.freq
  rw [h.start_length] at hlen
  split at hlen <;> omega

theorem size (h : HoldsTree s ns) : ns.length + 1 = 2 * firstInternal s := by
  rw [← h.start_length]
  exact h.built.size

theorem slot_eq (h : HoldsTree s ns) {n : Nat} (hn : n < ns.length) : slot s.nodes n = slotOf ns n := by
  have := h.size
  have := h.start_bounds
  exact h.slots n (by omega)

/-- The first slots are the leaves of the counted symbols (R126). -/
theorem slot_leaf (h : HoldsTree s ns) {k : Nat} (hk : k < (countedSymbols s.freq).length) :
    slot s.nodes k = leafOf s.freq (countedSymbols s.freq)[k] := by
  have hk' : k < (startNodes s.freq).length := by
    rw [startNodes, List.length_append, List.length_map]
    omega
  rw [h.slot_eq (hk'.trans_le h.built.leaves.length_le), slotOf_of_prefix h.built.leaves hk', startNodes,
    slotOf_append_left (by rwa [List.length_map]), slotOf_eq_getElem (by rwa [List.length_map]), List.getElem_map]

/-- After a single leaf comes the sentinel (R129). -/
theorem slot_sentinel (h : HoldsTree s ns) (hone : (countedSymbols s.freq).length = 1) : slot s.nodes 1 = sentinelNode := by
  have hstart : startNodes s.freq = (countedSymbols s.freq).map (leafOf s.freq) ++ [sentinelNode] := by
    rw [startNodes, if_pos hone]
  have hself := slotOf_append_self ((countedSymbols s.freq).map (leafOf s.freq)) sentinelNode
  rw [List.length_map, hone, ← hstart] at hself
  have hlt : 1 < (startNodes s.freq).length := by rw [startNodes_length, if_pos hone]; decide
  rw [h.slot_eq (hlt.trans_le h.built.leaves.length_le), slotOf_of_prefix h.built.leaves hlt, hself]

theorem mergedAt (h : HoldsTree s ns) {n : Nat} (hlo : firstInternal s ≤ n) (hhi : n < ns.length) : MergedAt ns n :=
  h.built.merged n (h.start_length ▸ hlo) hhi

theorem childSlot_iff (h : HoldsTree s ns) {p c : Nat} (hp : p < ns.length) :
    childSlot s.nodes p c ↔ c ∈ (slotOf ns p).children := by
  rw [Node.mem_children, ← h.slot_eq hp, childSlot]

theorem root_eq (h : HoldsTree s ns) : s.root.toNat = ns.length - 1 := by
  have := h.root
  omega

theorem children_nodup (h : HoldsTree s ns) : (childrenOf ns).Nodup ∧ s.root.toNat ∉ childrenOf ns := by
  have hnodup := h.built.once.nodup_iff.2 List.nodup_range
  rw [← h.root_eq, List.nodup_append] at hnodup
  obtain ⟨hchildren, _, hroot⟩ := hnodup
  exact ⟨hchildren, fun hc => hroot _ hc _ (List.mem_singleton_self _) rfl⟩

end HoldsTree

/-- Settles O17: the merge loop turns `L` leaves into `2L - 1` slots, the last of them the root. -/
theorem treeRegistersFollowTheSymbolCount : Obligations.TreeRegistersFollowTheSymbolCount := by
  intro s hcur hvalid
  rw [distinctSymbols_eq]
  rcases holdsTree_cases hcur hvalid with ⟨hnil, _, hnsym, hroot, hnnodes⟩ | ⟨ns, h⟩
  · rw [hnil, hnsym, hroot, hnnodes]
    simp [Config.nil]
  · have hsize := h.size
    have hstart := startNodes_length s.freq
    have hroot := h.root
    have hnnodes := h.nnodes
    rw [h.start_length] at hstart
    refine ⟨h.nsym, fun hzero => absurd (List.length_eq_zero_iff.1 hzero) h.counted, fun hone => ?_, fun htwo => ?_⟩
    · rw [if_pos hone] at hstart
      exact ⟨BitVec.eq_of_toNat_eq (by simp; omega), BitVec.eq_of_toNat_eq (by simp; omega)⟩
    · rw [if_neg (by omega)] at hstart
      omega

/-- Settles O18: slot `k` is the leaf of the `k`-th counted symbol. -/
theorem leavesAreTheCountedSymbolsInOrder : Obligations.LeavesAreTheCountedSymbolsInOrder := by
  intro s hcur hvalid
  rcases holdsTree_cases hcur hvalid with ⟨hnil, _, hnsym, _, _⟩ | ⟨ns, h⟩
  · rw [hnsym]
    refine ⟨fun k hk => absurd hk (Nat.not_lt_zero k), fun k k' _ hk' => absurd hk' (Nat.not_lt_zero k'),
      fun x hx => absurd (mem_countedSymbols.2 hx) ?_, fun hone => absurd hone (by decide)⟩
    rw [hnil]
    exact List.not_mem_nil
  · rw [h.nsym]
    refine ⟨fun k hk => ⟨_, mem_countedSymbols.1 (List.getElem_mem hk), h.slot_leaf hk⟩, fun k k' hlt hk' => ?_,
      fun x hx => ?_, fun hone => h.slot_sentinel ?_⟩
    · have hsorted := List.pairwise_iff_getElem.1 (countedSymbols_sorted s.freq) k k' (hlt.trans hk') hk' hlt
      rw [h.slot_leaf hk', h.slot_leaf (hlt.trans hk')]
      rw [BitVec.lt_def] at hsorted
      simp only [leafOf, BitVec.lt_def, BitVec.toNat_setWidth]
      omega
    · obtain ⟨k, hk, rfl⟩ := List.mem_iff_getElem.1 (mem_countedSymbols.2 hx)
      exact ⟨k, hk, by rw [h.slot_leaf hk, leafOf]⟩
    · rw [← h.nsym, hone]
      rfl

/-- Settles O19: every slot from the first merge on is `MergedAt`, the root among them. -/
theorem internalNodesSumTheirChildren : Obligations.InternalNodesSumTheirChildren := by
  intro s hcur hvalid
  rcases holdsTree_cases hcur hvalid with ⟨_, hnodes, _, hroot, hnnodes⟩ | ⟨ns, h⟩
  · refine ⟨fun n _ hn => ?_, fun hne => absurd hroot hne, fun n _ hn => ?_⟩
    · rw [hnnodes] at hn
      exact absurd hn (Nat.not_lt_zero n)
    · rw [hnodes, slot_nodeMemory (Nat.zero_le _) (by omega)]
      rfl
  · have hsize := h.size
    have hbounds := h.start_bounds
    rw [h.nnodes]
    refine ⟨fun n hlo hhi => ?_, fun _ => ?_, fun n hlo hn => ?_⟩
    · obtain ⟨hkind, hsym, hleft, hright, hfreq⟩ := h.mergedAt hlo hhi
      rw [h.slot_eq hhi, h.slot_eq (hleft.trans hhi), h.slot_eq (hright.trans hhi)]
      exact ⟨hkind, hsym, hleft, hright, hfreq⟩
    · have hroot := h.root
      rw [nodeAt_eq_slot, h.slot_eq (by omega)]
      exact (h.mergedAt (by omega) (by omega)).kind
    · rw [h.slots n (by omega), slotOf, List.getD_eq_default _ _ hlo]

/-- Settles O20: all children and the root together are all slots, without repeats. -/
theorem treeIsAStrictBinaryHierarchy : Obligations.TreeIsAStrictBinaryHierarchy := by
  intro s hcur hvalid hne
  rcases holdsTree_cases hcur hvalid with ⟨_, _, _, hroot, _⟩ | ⟨ns, h⟩
  · exact absurd hroot hne
  · obtain ⟨hnodup, hrootNot⟩ := h.children_nodup
    rw [h.nnodes]
    refine ⟨fun n hn hnr => ?_, fun p hp hkind => ?_, fun p hp hchild => ?_⟩
    · have hmem : n ∈ childrenOf ns ++ [s.root.toNat] := by
        rw [h.root_eq]
        exact h.built.once.symm.subset (List.mem_range.2 hn)
      have hmem := (List.mem_append.1 hmem).resolve_right fun hr => hnr (List.mem_singleton.1 hr)
      obtain ⟨p, hp, hc⟩ := mem_childrenOf.1 hmem
      exact ⟨p, hp, (h.childSlot_iff hp).2 hc, fun q hq hcq => parent_unique hnodup hp hq hc ((h.childSlot_iff hq).1 hcq)⟩
    · rw [h.slot_eq hp] at hkind ⊢
      exact children_ne hnodup hp hkind
    · exact hrootNot (mem_childrenOf.2 ⟨p, hp, (h.childSlot_iff hp).1 hchild⟩)

end Sys2Proof.Machine
end

section
/-! SUPPORT. Stored codes (R51): the paths of a built tree are short enough for the 256 bits of an entry, so every entry is a
left-aligned path. -/

namespace Sys2Proof.Machine

/-- Every entry of a code table is a code of at most 256 bits with its length, stored left-aligned (R51). -/
def CodeTab.aligned (t : CodeTab) : Prop :=
  ∀ x, ∃ p : Bits, p.length ≤ 256 ∧ tableGet t.len x = BitVec.ofNat 9 p.length ∧ tableGet t.bits x = leftAligned p

theorem codeTab_empty_aligned : CodeTab.empty.aligned := fun x =>
  ⟨[], by simp, by simp [CodeTab.empty], by simp [CodeTab.empty, leftAligned, bitsValue]⟩

theorem recordCode_aligned {t : CodeTab} (ht : t.aligned) {leaf : TreeSym × Bits} (hleaf : leaf.2.length ≤ 256) :
    (recordCode t leaf).aligned := by
  unfold recordCode
  split
  · intro x
    by_cases hx : x = leaf.1.setWidth 8
    · exact ⟨leaf.2, hleaf, by simp [hx], by simp [hx]⟩
    · simpa [hx] using ht x
  · exact ht

theorem foldl_recordCode_aligned {t : CodeTab} (ht : t.aligned) {leaves : List (TreeSym × Bits)}
    (hleaves : ∀ leaf ∈ leaves, leaf.2.length ≤ 256) : (leaves.foldl recordCode t).aligned := by
  induction leaves generalizing t with
  | nil => exact ht
  | cons leaf leaves ih =>
    exact ih (recordCode_aligned ht (hleaves leaf List.mem_cons_self)) fun l hl => hleaves l (List.mem_cons_of_mem _ hl)

/-- Where every Internal node is at `lo` or above and above its children, a walk from `x` takes at most `x + 1 - lo` edges. -/
theorem leafPaths_length {nodes : Vector Node 511} {lo : Nat}
    (hdown : ∀ n : Idx, (nodeAt nodes n).kind = .internal →
      lo ≤ n.toNat ∧ (nodeAt nodes n).left.toNat < n.toNat ∧ (nodeAt nodes n).right.toNat < n.toNat)
    (fuel : Nat) (x : Idx) (p : Bits) {leaf : TreeSym × Bits} (h : leaf ∈ leafPaths nodes fuel x p) :
    leaf.2.length ≤ p.length + (x.toNat + 1 - lo) := by
  induction fuel generalizing x p with
  | zero => exact absurd h List.not_mem_nil
  | succ fuel ih =>
    rw [leafPaths] at h
    cases hk : (nodeAt nodes x).kind with
    | leaf =>
      simp only [hk, List.mem_singleton] at h
      rw [h]
      exact Nat.le_add_right _ _
    | internal =>
      obtain ⟨hlo, hleft, hright⟩ := hdown x hk
      simp only [hk, List.mem_append] at h
      rcases h with h | h
      · have := ih _ _ h
        rw [List.length_append, List.length_singleton] at this
        omega
      · have := ih _ _ h
        rw [List.length_append, List.length_singleton] at this
        omega

/-- Internal nodes of a built tree lie above the leaves and above their children (R49 (c)). -/
theorem HoldsTree.internal_above {s : State} {ns : List Node} (h : HoldsTree s ns) (n : Idx)
    (hk : (nodeAt s.nodes n).kind = .internal) :
    firstInternal s ≤ n.toNat ∧ (nodeAt s.nodes n).left.toNat < n.toNat ∧ (nodeAt s.nodes n).right.toNat < n.toNat := by
  have hn := n.isLt
  rw [nodeAt_eq_slot, h.slots _ (by omega)] at hk ⊢
  have hlen : n.toNat < ns.length := by
    by_contra hge
    rw [slotOf, List.getD_eq_default _ _ (Nat.not_lt.1 hge)] at hk
    cases hk
  have hlo : firstInternal s ≤ n.toNat := by
    by_contra hlt
    rw [← h.start_length, Nat.not_le] at hlt
    rw [slotOf_of_prefix h.built.leaves hlt, slotOf_eq_getElem hlt, startNodes_kind (List.getElem_mem hlt)] at hk
    cases hk
  have hmerged := h.mergedAt hlo hlen
  exact ⟨hlo, hmerged.left_lt, hmerged.right_lt⟩

/-- The codes of a valid tree are stored left-aligned: from the root a path has at most 255 edges (R144 (e)). -/
theorem codesOf_aligned {s : State} (hcur : s.treeCurrent) (hvalid : s.treeValid = true) :
    (codesOf s.nodes s.root).aligned := by
  unfold codesOf
  split
  · exact codeTab_empty_aligned
  · rename_i hroot
    rcases holdsTree_cases hcur hvalid with ⟨_, _, _, hnil, _⟩ | ⟨ns, h⟩
    · exact absurd hnil hroot
    · refine foldl_recordCode_aligned codeTab_empty_aligned fun leaf hleaf => ?_
      have hpath := leafPaths_length h.internal_above _ _ _ hleaf
      have hrootIdx := h.root
      have hsize := h.size
      have hbounds := h.start_bounds
      rw [List.length_nil] at hpath
      omega

theorem getLsbD_codeWord_leftAligned {p : Bits} (hp : p.length ≤ 256) (k : BitVec 3) {j : Nat} (hj : j ≤ 31) :
    (codeWord (leftAligned p) k).getLsbD (31 - j) =
      if 32 * k.toNat + j + 1 ≤ p.length then p.getD (32 * k.toNat + j) false else false := by
  have hk := k.isLt
  rw [getLsbD_codeWord _ _ hj, getMsbD_leftAligned p hp _ (by omega)]
  split
  · rfl
  · exact List.getD_eq_default _ _ (by omega)

/-- Settles O27: each entry of the table is a left-aligned path, so the window shows the path and zeros after its end. -/
theorem storedCodesAreLeftAligned : Obligations.StoredCodesAreLeftAligned := by
  refine ⟨fun p k j hp hj => getLsbD_codeWord_leftAligned hp k hj, fun s hidle htree hcodes htv hcv x k =>
    ⟨_, busRead_of_idle (decodeAddr_codeBitsEntry _ _ x k) hidle, fun j hj => ?_⟩⟩
  obtain ⟨p, hp, hlen, hbits⟩ := codesOf_aligned htree htv x
  rw [hcodes hcv] at hlen hbits
  have hplen : (BitVec.ofNat 9 p.length).toNat = p.length := by
    rw [BitVec.toNat_ofNat]
    omega
  simp only [State.targetWord, State.code, hlen, hbits, storedCode_leftAligned p hp, hplen]
  exact getLsbD_codeWord_leftAligned hp k hj

end Sys2Proof.Machine
end

section
/-! SUPPORT. The host's view of the memory map (R60 to R65, R73): which transactions get OKAY, what a write to a read-only word
does, the byte order of memory words, and what the host can change while a command is pending. -/

namespace Sys2Proof.Machine

/-! ### Which addresses get OKAY (R62, R63, R65) -/

theorem registerAt_eq_some {k : Nat} {tg : Target} (h : registerAt k = some tg) : k ≤ 12 := by
  by_contra hk
  obtain ⟨k, rfl⟩ := Nat.exists_eq_add_of_le' (Nat.not_le.1 hk)
  cases h

/-- Only an address that R63 lists reaches a target; `decodeAddr_of_mapped` is the other direction. -/
theorem mapped_of_decodeAddr {capIn capOut : Nat} {addr : Word} {tg : Target} (h : decodeAddr capIn capOut addr = some tg) :
    mappedAddr capIn capOut addr.toNat := by
  simp only [decodeAddr] at h
  split_ifs at h <;> refine ⟨by omega, ?_⟩
  · have := registerAt_eq_some h
    omega
  all_goals omega

theorem decodeAddr_okay_iff {capIn capOut : Nat} {addr : Word} :
    (∃ tg, decodeAddr capIn capOut addr = some tg) ↔ mappedAddr capIn capOut addr.toNat := by
  refine ⟨fun ⟨_, h⟩ => mapped_of_decodeAddr h, fun h => ?_⟩
  obtain ⟨tg, htg, _⟩ := decodeAddr_of_mapped h
  exact ⟨tg, htg⟩

theorem busRead_okay_iff {addr : Word} {s : State} :
    (∃ r, busRead addr s = some r) ↔ mappedAddr s.capIn s.capOut addr.toNat := by
  rw [← decodeAddr_okay_iff, busRead]
  cases decodeAddr s.capIn s.capOut addr <;> simp

theorem busWrite_okay_iff {addr d : Word} {s : State} :
    (∃ t, busWrite addr d s = some t) ↔ mappedAddr s.capIn s.capOut addr.toNat := by
  rw [← decodeAddr_okay_iff, busWrite]
  cases decodeAddr s.capIn s.capOut addr <;> simp

/-- Settles O50: a transaction gets OKAY iff its address decodes to a target, and the decode answers on R63's ranges only. -/
theorem onlyMappedAddressesGetOkay : Obligations.OnlyMappedAddressesGetOkay :=
  fun _ _ _ => ⟨busRead_okay_iff, busWrite_okay_iff⟩

theorem busRead_unmapped {addr : Word} {s : State} (h : ¬ mappedAddr s.capIn s.capOut addr.toNat) : busRead addr s = none :=
  Option.eq_none_iff_forall_ne_some.2 fun r hr => h (busRead_okay_iff.1 ⟨r, hr⟩)

theorem busWrite_unmapped {addr : Word} {s : State} (h : ¬ mappedAddr s.capIn s.capOut addr.toNat) (d : Word) :
    busWrite addr d s = none :=
  Option.eq_none_iff_forall_ne_some.2 fun t ht => h (busWrite_okay_iff.1 ⟨t, ht⟩)

/-- Settles O51: a transaction at an address that is not mapped answers `none`, which the host step turns into the fault. -/
theorem errorResponseFaultsTheRun : Obligations.ErrorResponseFaultsTheRun := by
  intro s addr d ops hmap
  refine ⟨fun hscript => ?_, fun hscript => ?_⟩
  · simp only [hostStep, hscript, hostRead, busRead_unmapped hmap]
  · simp only [hostStep, hscript, busWrite_unmapped hmap d]

/-! ### Read-only registers and windows (R64) -/

/-- The read-only control registers, by word offset. -/
theorem registerAt_readOnly : ∀ k < 13, (registerAt k).map Target.readOnly = some (decide ((3 ≤ k ∧ k ≤ 8) ∨ 10 ≤ k)) := by
  decide

theorem decodeAddr_readOnlyRegister {addr : Word} (halign : addr.toNat % 4 = 0)
    (hreg : (0x00C ≤ addr.toNat ∧ addr.toNat ≤ 0x020) ∨ (0x028 ≤ addr.toNat ∧ addr.toNat ≤ 0x030)) (capIn capOut : Nat) :
    ∃ tg, decodeAddr capIn capOut addr = some tg ∧ tg.readOnly = true := by
  obtain ⟨tg, htg, hro⟩ := Option.map_eq_some_iff.1 (registerAt_readOnly (addr.toNat / 4) (by omega))
  refine ⟨tg, by rw [decodeAddr_register halign (by omega), htg], ?_⟩
  rw [hro, decide_eq_true_iff]
  omega

theorem decodeAddr_of_readOnly {addr : Word} (h : readOnlyAddr addr.toNat) (capIn capOut : Nat) :
    ∃ tg, decodeAddr capIn capOut addr = some tg ∧ tg.readOnly = true := by
  obtain ⟨halign, hreg | hreg | ⟨hlo, hhi⟩ | ⟨hlo, hhi⟩ | ⟨hlo, hhi⟩⟩ := h
  · exact decodeAddr_readOnlyRegister halign (.inl hreg) capIn capOut
  · exact decodeAddr_readOnlyRegister halign (.inr hreg) capIn capOut
  · exact ⟨_, decodeAddr_codeLen halign hlo (by omega), rfl⟩
  · exact ⟨_, decodeAddr_codeBits halign hlo (by omega), rfl⟩
  · exact ⟨_, decodeAddr_node halign hlo (by omega), rfl⟩

theorem target_readOnly_not_guarded {tg : Target} (h : tg.readOnly = true) : tg.guarded = false := by
  cases tg <;> simp [Target.readOnly] at h <;> rfl

/-- Settles O52: a read-only target is not guarded, so its write is never dropped, and the target ignores it. -/
theorem readOnlyWritesAreIgnored : Obligations.ReadOnlyWritesAreIgnored := by
  intro s addr d haddr
  obtain ⟨tg, htg, hro⟩ := decodeAddr_of_readOnly haddr s.capIn s.capOut
  rw [busWrite_taken htg (by simp [target_readOnly_not_guarded hro]), writeTarget_readOnly hro]

/-! ### Words over the memories (R54, R61) -/

theorem decodeAddr_inMemWord {capIn j : Nat} (hcap : legalMemBytes capIn = true) (hj : 4 * j < capIn) (capOut : Nat) :
    decodeAddr capIn capOut (BitVec.ofNat 32 (0x100000 + 4 * j)) = some (.inMem (4 * j)) := by
  obtain ⟨_, _, hmax⟩ := legalMemBytes_iff.1 hcap
  have ha := toNat_ofNat_word (a := 0x100000 + 4 * j) (by omega)
  rw [decodeAddr_memories (by omega) (by omega), ha, Config.inBase, if_pos (by omega), Nat.add_sub_cancel_left]

/-- `IN_MEM` ends below `OUT_BASE` (R8, R9), so no address of `OUT_MEM` reaches it. -/
theorem decodeAddr_outMemWord {capIn capOut j : Nat} (hin : legalMemBytes capIn = true) (hout : legalMemBytes capOut = true)
    (hj : 4 * j < capOut) : decodeAddr capIn capOut (BitVec.ofNat 32 (0x200000 + 4 * j)) = some (.outMem (4 * j)) := by
  obtain ⟨_, _, hinMax⟩ := legalMemBytes_iff.1 hin
  obtain ⟨_, _, houtMax⟩ := legalMemBytes_iff.1 hout
  have ha := toNat_ofNat_word (a := 0x200000 + 4 * j) (by omega)
  rw [decodeAddr_memories (by omega) (by omega), ha, Config.inBase, Config.outBase, if_neg (by omega), if_pos (by omega),
    Nat.add_sub_cancel_left]

theorem wordBytes_getElem (d : Word) : ∀ (m : Nat) (h : m < 4), (wordBytes d)[m]'h = d.extractLsb' (8 * m) 8
  | 0, _ | 1, _ | 2, _ | 3, _ => rfl

/-- Byte `m` of a stored word is at its address plus `m` (R61). -/
theorem memory_get?_writeWord (mem : Memory) (a : Nat) (d : Word) {m : Nat} (h : m < 4) :
    Memory.get? (Memory.writeBytes mem a (wordBytes d)) (a + m) = some (d.extractLsb' (8 * m) 8) := by
  rw [memory_get?_writeBytes_inside mem a (wordBytes d) h, wordBytes_getElem d m h]

theorem storeIn_word_inByte (s : State) (a : Nat) (d : Word) {m : Nat} (h : m < 4) :
    (s.storeIn a (wordBytes d)).inByte (a + m) = d.extractLsb' (8 * m) 8 := by
  simp only [State.inByte, State.storeIn_inMem, memory_get?_writeWord _ a d h]

theorem storeIn_inByte_outside (s : State) {a x : Nat} {bs : List Byte} (h : x < a ∨ a + bs.length ≤ x) :
    (s.storeIn a bs).inByte x = s.inByte x := by
  simp only [State.inByte, State.storeIn_inMem, State.storeIn_inEpoch, memory_get?_writeBytes_outside _ a bs h]

theorem storeOut_word_outByte (s : State) (a : Nat) (d : Word) {m : Nat} (h : m < 4) :
    (s.storeOut a (wordBytes d)).outByte (a + m) = d.extractLsb' (8 * m) 8 := by
  simp only [State.outByte, State.storeOut_outMem, memory_get?_writeWord _ a d h]

theorem storeOut_outByte_outside (s : State) {a x : Nat} {bs : List Byte} (h : x < a ∨ a + bs.length ≤ x) :
    (s.storeOut a bs).outByte x = s.outByte x := by
  simp only [State.outByte, State.storeOut_outMem, State.storeOut_outEpoch, memory_get?_writeBytes_outside _ a bs h]

/-- Settles O56: an idle HCB reads the word at the decoded address and stores the four bytes of `d` there, in ascending order. -/
theorem memoryWordsAreLittleEndian : Obligations.MemoryWordsAreLittleEndian := by
  rintro s j d ⟨hin, hout⟩ hidle
  refine ⟨fun hj => ?_, fun hj => ?_⟩
  · have haddr := decodeAddr_inMemWord hin hj s.capOut
    exact ⟨busRead_of_idle haddr hidle, s.storeIn (4 * j) (wordBytes d), busWrite_taken haddr fun hg => hg.1 hidle, rfl,
      fun _ hm => storeIn_word_inByte s _ d hm, fun _ ha => storeIn_inByte_outside s ha⟩
  · have haddr := decodeAddr_outMemWord hin hout hj
    exact ⟨busRead_of_idle haddr hidle, s.storeOut (4 * j) (wordBytes d), busWrite_taken haddr fun hg => hg.1 hidle, rfl,
      fun _ hm => storeOut_word_outByte s _ d hm, fun _ ha => storeOut_outByte_outside s ha⟩

/-! ### Host operations while a command is pending (R73, R77, R214) -/

/-- `t` differs from `s` only in what the host may change while `BUSY = 1`: the flags that it acknowledges, `DROP`, `IRQ_EN`
and the model's own bookkeeping. -/
def onlyHostSideChanged (s t : State) : Prop :=
  t = { s with
    done := t.done, err := t.err, drop := t.drop, irqEn := t.irqEn
    draws := t.draws, script := t.script, reads := t.reads }

namespace onlyHostSideChanged

variable {s t : State}

theorem popScript (h : onlyHostSideChanged s t) : onlyHostSideChanged s t.popScript := congrArg State.popScript h

theorem logRead (h : onlyHostSideChanged s t) (addr v : Word) : onlyHostSideChanged s (t.logRead addr v) :=
  congrArg (State.logRead addr v) h

theorem waitPoll (h : onlyHostSideChanged s t) (v : Word) : onlyHostSideChanged s (waitPoll v t) := by
  unfold Machine.waitPoll
  split
  · exact h
  · exact h.popScript

/-- A busy HCB drops a write to a guarded word, and of the others it takes those to `STATUS` and `IRQ_EN` only. -/
theorem of_busWrite {addr d : Word} (hbusy : s.seq ≠ .idle) (h : busWrite addr d s = some t) : onlyHostSideChanged s t := by
  obtain ⟨tg, _, ⟨_, _, rfl⟩ | ⟨hg, rfl⟩⟩ := busWrite_eq_some h
  · rfl
  · rcases target_guarded_or_readOnly tg with hguard | hro | rfl | rfl
    · exact absurd ⟨hbusy, hguard⟩ hg
    · rw [writeTarget_readOnly hro]
      rfl
    · rfl
    · rfl

theorem of_busRead {addr v : Word} (h : busRead addr s = some (v, t)) : onlyHostSideChanged s t := by
  obtain ⟨_, _, ⟨_, _, _, rfl⟩ | ⟨_, _, rfl⟩⟩ := busRead_eq_some h <;> rfl

theorem of_hostStep (hbusy : s.seq ≠ .idle) (hrst : ∀ ops, s.script ≠ .rst :: ops) (h : hostStep s = .next t) :
    onlyHostSideChanged s t := by
  rcases hostStep_eq_next h with ⟨_, rfl⟩ | ⟨addr, d, _, u, _, hb, rfl⟩ | ⟨addr, _, v, u, _, hb, rfl⟩ |
    ⟨_, v, u, _, hb, rfl⟩ | ⟨ops, hscript, _⟩
  · rfl
  · exact (of_busWrite hbusy hb).popScript
  · exact ((of_busRead hb).logRead addr v).popScript
  · exact ((of_busRead hb).logRead offStatus v).waitPoll v
  · exact absurd hscript (hrst ops)

end onlyHostSideChanged

/-- Settles O58: no field that a pending command reads or writes is on the host's side. -/
theorem pendingCommandKeepsItsInputs : Obligations.PendingCommandKeepsItsInputs := by
  intro s t hbusy hrst h
  rw [onlyHostSideChanged.of_hostStep hbusy hrst h]
  exact ⟨rfl, rfl, rfl, rfl, rfl, rfl, rfl, rfl, rfl, ⟨rfl, rfl, rfl, rfl⟩, ⟨rfl, rfl⟩, ⟨rfl, rfl, rfl⟩, ⟨rfl, rfl⟩,
    fun _ => ⟨rfl, rfl⟩⟩

end Sys2Proof.Machine
end

section
/-! SUPPORT. Command words (R80 to R82, R85): the decoder reads the two fields of a word, and the fields are the whole word. -/

namespace Sys2Proof

theorem legalEncoding : ∀ i : Instr, Laws.LegalEncoding.Statement i
  | .nop => Laws.LegalEncoding.nop
  | .freqCount => Laws.LegalEncoding.freqCount
  | .buildTree => Laws.LegalEncoding.buildTree
  | .genCodes => Laws.LegalEncoding.genCodes
  | .encode => Laws.LegalEncoding.encode
  | .decode => Laws.LegalEncoding.decode
  | .clear => Laws.LegalEncoding.clear

theorem decodeWord_encodeWord (i : Instr) : decodeWord (encodeWord i) = .ok i := by
  obtain ⟨_, _, _, _, hdecode⟩ := legalEncoding i
  exact hdecode

/-- The two fields of R80 are the whole word. -/
theorem rsvdField_append_opField (w : Word) : rsvdField w ++ opField w = w :=
  (BitVec.extractLsb'_append_extractLsb'_eq_extractLsb' (Nat.zero_add 4).symm).trans BitVec.extractLsb'_eq_self

/-- The opcode map names each command by one opcode only (R81). -/
theorem opcode_of_decodeOp {op : BitVec 4} {i : Instr} : decodeOp op = some i → op = opcode i := by
  cases i <;> revert op <;> decide

/-- The opcode map ends at 6 (R81, R85). -/
theorem decodeOp_eq_none_iff : ∀ op : BitVec 4, decodeOp op = none ↔ 7 ≤ op.toNat := by decide

theorem decodeWord_eq_ok_iff {w : Word} {i : Instr} :
    decodeWord w = .ok i ↔ rsvdField w = 0#28 ∧ decodeOp (opField w) = some i := by
  by_cases hrsvd : rsvdField w = 0#28
  · cases hop : decodeOp (opField w) <;> simp [decodeWord, hrsvd, hop]
  · simp [decodeWord, hrsvd]

theorem decodeWord_eq_error_iff {w : Word} :
    (∃ e, decodeWord w = .error e) ↔ rsvdField w ≠ 0#28 ∨ decodeOp (opField w) = none := by
  by_cases hrsvd : rsvdField w = 0#28
  · cases hop : decodeOp (opField w) <;> simp [decodeWord, hrsvd, hop]
  · simp [decodeWord, hrsvd]

/-- Settles O1: the seven words are those of the commands; the four others are read by their fields. -/
theorem specWordsDecodeAsTheOpcodeMapSays : Obligations.SpecWordsDecodeAsTheOpcodeMapSays :=
  ⟨decodeWord_encodeWord .nop, decodeWord_encodeWord .freqCount, decodeWord_encodeWord .buildTree,
    decodeWord_encodeWord .genCodes, decodeWord_encodeWord .encode, decodeWord_encodeWord .decode,
    decodeWord_encodeWord .clear, by decide, by decide, by decide, by decide⟩

/-- Settles O2: a word that decodes to a command has that command's fields, so it is that command's word. -/
theorem everyWordIsOneCommandOrIllegal : Obligations.EveryWordIsOneCommandOrIllegal := by
  intro w
  refine ⟨fun i => ⟨fun h => ?_, fun h => h ▸ decodeWord_encodeWord i⟩, ?_⟩
  · obtain ⟨hrsvd, hop⟩ := decodeWord_eq_ok_iff.1 h
    rw [← rsvdField_append_opField w, hrsvd, opcode_of_decodeOp hop, encodeWord]
  · rw [decodeWord_eq_error_iff, decodeOp_eq_none_iff]
    rfl

end Sys2Proof
end

section
/-! SUPPORT. Runs of host programs (R89, R90, R218): what the agent that moves does, the end of a `wait`, and `load_in`. -/

namespace Sys2Proof.Machine

/-! ### Runs and turns -/

/-- A run takes its first step, then the others. -/
theorem run_succ {s t : State} (h : step s = .next t) (n : Nat) :
    Host.Core.run core (n + 1) s = Host.Core.run core n t := by
  have h' : Host.Core.step core s = .next t := h
  simp only [Host.Core.run, h']

/-- A run of `m` steps that answers goes on from its last state. -/
theorem run_add {m : Nat} {s t : State} (h : Host.Core.run core m s = .next t) (n : Nat) :
    Host.Core.run core (m + n) s = Host.Core.run core n t := by
  induction m generalizing s with
  | zero =>
    obtain rfl := Host.Outcome.next.inj h
    rw [Nat.zero_add]
  | succ m ih =>
    cases hs : step s with
    | next u =>
      rw [Nat.succ_add, run_succ hs]
      exact ih ((run_succ hs m).symm.trans h)
    | fault r | refused r =>
      have hs' : Host.Core.step core s = _ := hs
      simp [Host.Core.run, hs'] at h

theorem nextAgent_of_turn {s : State} {a : Agent} {as : List Agent} (h : s.turns = a :: as) : s.nextAgent = a := by
  simp [State.nextAgent, h]

theorem nextAgent_of_busy {s : State} (h : s.turns = []) (hbusy : s.seq ≠ .idle) : s.nextAgent = .core := by
  simp [State.nextAgent, h, busy_eq_true.2 hbusy]

theorem nextAgent_of_idle {s : State} (h : s.turns = []) (hidle : s.seq = .idle) : s.nextAgent = .host := by
  simp [State.nextAgent, h, busy_eq_false.2 hidle]

theorem step_of_core {s : State} (h : s.nextAgent = .core) : step s = coreStep s.takeTurn := by
  simp [step, agentStep, h]

theorem step_of_host {s : State} (h : s.nextAgent = .host) : step s = hostStep s.takeTurn := by
  simp [step, agentStep, h]

theorem runCommand_seq (i : Instr) (body : State → Except Raise State) (s : State) : (s.runCommand i body).seq = .idle := by
  rcases runCommand_cases i body s with ⟨_, _, h⟩ | ⟨_, _, _, h⟩ | ⟨r, _, _, h⟩ <;> rw [h]
  · rfl
  · rfl
  · rcases failCommand_cases i r s with h | ⟨_, _, h⟩ <;> rw [h] <;> rfl

/-- The Core's step completes whatever is pending (R97, R206) and leaves the outside as it is. -/
theorem coreStep_completes (s : State) :
    ∃ t, coreStep s = .next t ∧ t.seq = .idle ∧ t.script = s.script ∧ t.turns = s.turns ∧ t.reads = s.reads := by
  rcases coreStep_cases s with ⟨hidle, h⟩ | ⟨_, h⟩ | ⟨_, i, _, _, h⟩ | ⟨_, _, _, _, h⟩
  · exact ⟨_, h, hidle, rfl, rfl, rfl⟩
  · exact ⟨_, h, rfl, rfl, rfl, rfl⟩
  · have hin := sameInputs_runCommand i s
    exact ⟨_, h, runCommand_seq i _ s, hin.script, hin.turns, hin.reads⟩
  · exact ⟨_, h, rfl, rfl, rfl, rfl⟩

/-! ### The end of a `wait` (R89, R219) -/

/-- From `s`, the `wait` before `ops` is done within `k` steps, and the last read was one of `STATUS` with `BUSY = 0`. -/
def waitEndsWithin (k : Nat) (ops : List HostOp) (s : State) : Prop :=
  ∃ n t v, n ≤ k ∧ Host.Core.run core n s = .next t ∧ t.script = ops ∧ t.reads.head? = some (offStatus, v) ∧
    v.getLsbD 0 = false

theorem waitEndsWithin.mono {k l : Nat} {ops : List HostOp} {s : State} (h : waitEndsWithin k ops s) (hkl : k ≤ l) :
    waitEndsWithin l ops s := by
  obtain ⟨n, t, v, hn, hend⟩ := h
  exact ⟨n, t, v, hn.trans hkl, hend⟩

theorem waitEndsWithin.of_step {k : Nat} {ops : List HostOp} {s u : State} (hs : step s = .next u)
    (h : waitEndsWithin k ops u) : waitEndsWithin (k + 1) ops s := by
  obtain ⟨n, t, v, hn, hrun, hend⟩ := h
  exact ⟨n + 1, t, v, Nat.succ_le_succ hn, (run_succ hs n).trans hrun, hend⟩

section Wait

variable {s : State} {ops : List HostOp} (hscript : s.script = .wait :: ops)
include hscript

theorem hostStep_wait : hostStep s = .next (waitPoll s.statusWord (s.logRead offStatus s.statusWord)) := by
  simp only [hostStep, hscript, hostRead, busRead_status]

theorem hostStep_wait_idle (hidle : s.seq = .idle) :
    hostStep s = .next (s.logRead offStatus s.statusWord).popScript := by
  rw [hostStep_wait hscript, waitPoll, (statusWord_bits s).1, busy_eq_false.2 hidle]
  rfl

theorem hostStep_wait_busy (hbusy : s.seq ≠ .idle) : hostStep s = .next (s.logRead offStatus s.statusWord) := by
  rw [hostStep_wait hscript, waitPoll, (statusWord_bits s).1, busy_eq_true.2 hbusy]
  rfl

theorem waitEndsWithin_of_idle (hagent : s.nextAgent = .host) (hidle : s.seq = .idle) : waitEndsWithin 1 ops s := by
  have hstep := (step_of_host hagent).trans (hostStep_wait_idle (s := s.takeTurn) hscript hidle)
  exact ⟨1, _, _, le_rfl, run_succ hstep 0, congrArg List.tail hscript, rfl,
    (statusWord_bits _).1.trans (busy_eq_false.2 hidle)⟩

end Wait

/-- A turn of the Host polls once more or ends the `wait`; one of the Core makes the HCB idle, and the last two steps are
the Core's completion and the poll that sees it. -/
theorem waitEndsWithin_turns {s : State} {ops : List HostOp} (hscript : s.script = .wait :: ops) :
    waitEndsWithin (s.turns.length + 2) ops s := by
  induction hturns : s.turns generalizing s with
  | nil =>
    by_cases hidle : s.seq = .idle
    · exact (waitEndsWithin_of_idle hscript (nextAgent_of_idle hturns hidle) hidle).mono (by simp)
    · obtain ⟨t, ht, htidle, htscript, htturns, _⟩ := coreStep_completes s.takeTurn
      have htturns : t.turns = [] := htturns.trans (congrArg List.tail hturns)
      exact .of_step ((step_of_core (nextAgent_of_busy hturns hidle)).trans ht)
        (waitEndsWithin_of_idle (htscript.trans hscript) (nextAgent_of_idle htturns htidle) htidle)
  | cons a as ih =>
    have hagent := nextAgent_of_turn hturns
    have htail : s.takeTurn.turns = as := congrArg List.tail hturns
    cases a with
    | core =>
      obtain ⟨t, ht, _, htscript, htturns, _⟩ := coreStep_completes s.takeTurn
      exact .of_step ((step_of_core hagent).trans ht) (ih (htscript.trans hscript) (htturns.trans htail))
    | host =>
      by_cases hidle : s.seq = .idle
      · exact (waitEndsWithin_of_idle hscript hagent hidle).mono (by simp)
      · exact .of_step ((step_of_host hagent).trans (hostStep_wait_busy (s := s.takeTurn) hscript hidle)) (ih hscript htail)

/-- Settles O59: induction on the turns named. -/
theorem waitTerminates : Obligations.WaitTerminates := fun _ _ hscript => waitEndsWithin_turns hscript

/-! ### `load_in` (R90) -/

/-- With `SEQ = IDLE` and no turn named, a host write is the next step and its target takes the word. -/
theorem step_write {s : State} {addr d : Word} {ops : List HostOp} {tg : Target} (hidle : s.seq = .idle) (hturns : s.turns = [])
    (hscript : s.script = .wr addr d :: ops) (htg : decodeAddr s.capIn s.capOut addr = some tg) :
    step s = .next (s.writeTarget tg d).popScript := by
  have htake : s.takeTurn = s := by rw [State.takeTurn, hturns, List.tail_nil, ← hturns]
  have hwrite : busWrite addr d s = some (s.writeTarget tg d) := busWrite_taken htg fun hg => hg.1 hidle
  simp only [step_of_host (nextAgent_of_idle hturns hidle), htake, hostStep, hscript, hwrite]

theorem decodeAddr_inLen (capIn capOut : Nat) : decodeAddr capIn capOut offInLen = some .inLen :=
  decodeAddr_register (by decide) (by decide)

/-- `s` when bytes `bs` have been written from byte `a` of `IN_MEM` on and the operations `ops` are still to do. -/
def State.loaded (a : Nat) (bs : List Byte) (ops : List HostOp) (s : State) : State :=
  { s with inMem := Memory.writeBytes s.inMem a bs, script := ops }

/-- One word write of `load_in` stores its four bytes in ascending order (R61, R90). -/
theorem step_loadWord {s : State} {j : Nat} {b0 b1 b2 b3 : Byte} {ops : List HostOp} (hcap : legalMemBytes s.capIn = true)
    (hidle : s.seq = .idle) (hturns : s.turns = []) (hj : 4 * j < s.capIn)
    (hscript : s.script = .wr (offInMem j) (bytesWord b0 b1 b2 b3) :: ops) :
    step s = .next (s.loaded (4 * j) [b0, b1, b2, b3] ops) := by
  rw [step_write hidle hturns hscript (decodeAddr_inMemWord hcap hj _), State.writeTarget, wordBytes_bytesWord,
    State.popScript, State.storeIn_script, hscript]
  rfl

/-- The word writes of `load_in` store the bytes from byte `4j` on; `pad` is what fills up the last word. -/
theorem run_loadWords {s : State} {j : Nat} {bytes : List Byte} {ops : List HostOp} (hcap : legalMemBytes s.capIn = true)
    (hidle : s.seq = .idle) (hturns : s.turns = []) (hfit : 4 * j + bytes.length ≤ s.capIn)
    (hscript : s.script = loadWords j bytes ++ ops) :
    ∃ n pad, Host.Core.run core n s = .next (s.loaded (4 * j) (bytes ++ pad) ops) := by
  induction j, bytes using loadWords.induct generalizing s with
  | case1 j =>
    have hops : s.script = ops := hscript
    exact ⟨0, [], by rw [← hops]; rfl⟩
  | case2 j b0 b1 b2 b3 bs ih =>
    have hstep := step_loadWord hcap hidle hturns (hfit.trans_lt' (by simp)) hscript
    have hrest : 4 * (j + 1) + bs.length ≤ s.capIn := by simp only [List.length_cons] at hfit; omega
    obtain ⟨n, pad, hrun⟩ :=
      ih (s := s.loaded (4 * j) [b0, b1, b2, b3] (loadWords (j + 1) bs ++ ops)) hcap hidle hturns hrest rfl
    exact ⟨n + 1, pad, (run_succ hstep n).trans hrun⟩
  | case3 j b0 b1 b2 =>
    exact ⟨1, [0#8], run_succ (step_loadWord hcap hidle hturns (hfit.trans_lt' (by simp)) hscript) 0⟩
  | case4 j b0 b1 =>
    exact ⟨1, [0#8, 0#8], run_succ (step_loadWord hcap hidle hturns (hfit.trans_lt' (by simp)) hscript) 0⟩
  | case5 j b0 =>
    exact ⟨1, [0#8, 0#8, 0#8], run_succ (step_loadWord hcap hidle hturns (hfit.trans_lt' (by simp)) hscript) 0⟩

/-- The Core reads as its input what was written at the start of `IN_MEM`, up to `IN_LEN` (R36, R71). -/
theorem inputBytes_of_writeBytes {s : State} {m : Memory} {bytes pad : List Byte}
    (hmem : s.inMem = Memory.writeBytes m 0 (bytes ++ pad)) (hlen : s.inLen.toNat = bytes.length) : s.inputBytes = bytes := by
  refine List.ext_getElem (by simp [State.inputBytes, hlen]) fun i _ hi => ?_
  have hread := memory_get?_writeBytes_inside m 0 (bytes ++ pad) (i := i) (by rw [List.length_append]; omega)
  rw [Nat.zero_add, ← hmem, List.getElem_append_left hi] at hread
  simp [State.inputBytes, State.coreByte, hread]

/-- `load_in` runs to the state in which its bytes are stored from byte 0 of `IN_MEM` on and `IN_LEN` is their number. -/
theorem run_loadIn {s : State} {bytes : List Byte} {ops : List HostOp} (hcap : legalMemBytes s.capIn = true)
    (hidle : s.seq = .idle) (hturns : s.turns = []) (hfit : bytes.length ≤ s.capIn) (hscript : s.script = loadIn bytes ++ ops) :
    ∃ n pad, Host.Core.run core n s = .next ((s.loaded 0 (bytes ++ pad) ops).setInLen (BitVec.ofNat 32 bytes.length)) := by
  rw [loadIn, List.append_assoc] at hscript
  obtain ⟨n, pad, hrun⟩ := run_loadWords (j := 0) hcap hidle hturns (by omega) hscript
  have hstep := step_write (s := s.loaded 0 (bytes ++ pad) (.wr offInLen (BitVec.ofNat 32 bytes.length) :: ops))
    hidle hturns rfl (decodeAddr_inLen _ _)
  exact ⟨n + 1, pad, (run_add hrun 1).trans (run_succ hstep 0)⟩

/-- Settles O60: the word writes store the bytes from byte 0 on, and the last write sets `IN_LEN` to their number. -/
theorem loadInPlacesTheInput : Obligations.LoadInPlacesTheInput := by
  rintro s bytes ops ⟨hcap, _⟩ hidle hturns hfit hscript
  obtain ⟨_, _, hmax⟩ := legalMemBytes_iff.1 hcap
  obtain ⟨n, pad, hrun⟩ := run_loadIn hcap hidle hturns hfit hscript
  have hinput := inputBytes_of_writeBytes (s := (s.loaded 0 (bytes ++ pad) ops).setInLen (BitVec.ofNat 32 bytes.length)) rfl
    (toNat_ofNat_word (by omega))
  exact ⟨n, _, hrun, rfl, hidle, rfl, hinput, ⟨rfl, rfl, rfl, rfl⟩, ⟨rfl, rfl⟩, ⟨rfl, rfl⟩, rfl, fun _ => rfl⟩

end Sys2Proof.Machine
end

section
/-! SUPPORT. The life of a command (R96 to R101, R103 to R108): acceptance, what each failing check answers, and NOP and CLEAR. -/

namespace Sys2Proof.Machine

/-! ### Acceptance and the accepted word (R96, R97, R103) -/

theorem decodeAddr_cmd (capIn capOut : Nat) : decodeAddr capIn capOut offCmd = some .cmd :=
  decodeAddr_register (by decide) (by decide)

theorem busWrite_dropped {addr d : Word} {s : State} {tg : Target} (h : decodeAddr s.capIn s.capOut addr = some tg)
    (hbusy : s.seq ≠ .idle) (hg : tg.guarded = true) : busWrite addr d s = some s.dropWrite := by
  simp [busWrite, h, busy_eq_true.2 hbusy, hg]

theorem coreStep_of_legal {s : State} {w : Word} {i : Instr} (hbusy : s.seq = .busy w) (hword : decodeWord w = .ok i) :
    coreStep s = exec i s := by
  simp only [coreStep, hbusy, hword]

theorem coreStep_of_illegal {s : State} {w : Word} {e : IllegalWord} (hbusy : s.seq = .busy w)
    (hword : decodeWord w = .error e) : coreStep s = .next (s.failIllegal w) := by
  simp only [coreStep, hbusy, hword]

/-- Settles O6: the Core's step is the stutter, the initialisation, a command's run or the illegal word's completion. -/
theorem coreStepAlwaysCompletes : Obligations.CoreStepAlwaysCompletes := coreStep_completes

/-- Settles O3: the turn is used up first, and it is no part of `SEQ`. -/
theorem stepRunsTheDecodedCommand : Obligations.StepRunsTheDecodedCommand := fun s _ _ hbusy hword hagent =>
  (step_of_core hagent).trans (coreStep_of_legal (s := s.takeTurn) hbusy hword)

/-- Settles O5: CMD is guarded, so its write is dropped exactly while the HCB is not idle. -/
theorem commandWriteIsAcceptedOrDropped : Obligations.CommandWriteIsAcceptedOrDropped := by
  intro s w
  have haddr := decodeAddr_cmd s.capIn s.capOut
  by_cases hidle : s.seq = .idle
  · rw [if_pos hidle]
    exact busWrite_taken haddr fun hg => hg.1 hidle
  · rw [if_neg hidle]
    exact busWrite_dropped haddr hidle rfl

/-! ### Error completion without a change of `FATAL` (R99, R101) -/

/-- `FATAL` keeps its value unless the error is `EmptyStructure`, which sets it (R32, R99). -/
theorem raiseError_of_fatal_kept {s : State} {r : Raise} (h : r.err = .emptyStructure → s.fatal = true) :
    s.raiseError r = { s with
      seq := .idle, err := true, errCode := r.err.code, errInfo := r.info, draws := s.draws + 1 } := by
  have hfatal : (s.fatal || decide (r.err = .emptyStructure)) = s.fatal := by
    by_cases hr : r.err = .emptyStructure
    · rw [h hr, Bool.true_or]
    · rw [decide_eq_false hr, Bool.or_false]
  rw [State.raiseError, hfatal]

/-- Settles O4: an illegal word fails check 1 with `IllegalCommand`, whatever `FATAL` is. -/
theorem illegalWordCompletesWithIllegalCommand : Obligations.IllegalWordCompletesWithIllegalCommand := by
  intro s w e hbusy hword hagent
  rw [step_of_core hagent, coreStep_of_illegal (s := s.takeTurn) hbusy hword, State.failIllegal,
    raiseError_of_fatal_kept fun hr => by cases hr]
  rfl

section Checks

variable {i : Instr} {s : State}

theorem checkCommand_of_fatal (hfatal : s.fatal = true) : checkCommand i s = some ⟨.emptyStructure, 0#32⟩ := by
  simp [checkCommand, hfatal]

theorem checkCommand_of_stale (hfatal : s.fatal = false) (hstale : sequenceOk i s = false) :
    checkCommand i s = some ⟨.sequenceError, (opcode i).setWidth 32⟩ := by
  simp [checkCommand, hfatal, hstale]

theorem checkCommand_of_overlong (hfatal : s.fatal = false) (hseq : sequenceOk i s = true)
    (hreads : readsInputCommand i = true) (hlong : s.capIn < s.inLen.toNat) :
    checkCommand i s = some ⟨.lengthError, s.inLen⟩ := by
  simp [checkCommand, hfatal, hseq, hreads, hlong]

/-- Only check 2 raises `EmptyStructure`, and it fails only when `FATAL` is set already. -/
theorem fatal_of_checkCommand {r : Raise} (h : checkCommand i s = some r) (hr : r.err = .emptyStructure) :
    s.fatal = true := by
  rcases checkCommand_eq_some h with ⟨hfatal, _⟩ | ⟨_, _, rfl⟩ | ⟨_, _, _, _, rfl⟩
  · exact hfatal
  · cases hr
  · cases hr

/-- A failing check completes the command with its error and changes nothing else (R99, R101). -/
theorem exec_of_failed_check {r : Raise} (h : checkCommand i s = some r) :
    exec i s = .next { s with
      seq := .idle, err := true, errCode := r.err.code, errInfo := r.info, draws := s.draws + 1 } := by
  rw [exec_eq_runCommand, runCommand_of_check h, raiseError_of_fatal_kept (fatal_of_checkCommand h)]

/-- A command whose checks pass and whose pseudocode raises nothing completes with success (R98). -/
theorem exec_of_ok {t : State} (h : checkCommand i s = none) (hbody : bodyOf i s = .ok t) : exec i s = .next t.succeed := by
  rw [exec_eq_runCommand, runCommand_of_ok h hbody]

/-- With `FATAL = 0` a command that needs no structure and reads no input passes every check. -/
theorem checkCommand_of_no_operand (hfatal : s.fatal = false) (hseq : sequenceOk i s = true)
    (hreads : readsInputCommand i = false) : checkCommand i s = none :=
  checkCommand_eq_none.2 ⟨hfatal, hseq, fun h => absurd (hreads.symm.trans h) Bool.false_ne_true⟩

end Checks

/-- Settles O7: check 2 comes before every check that reads the command. -/
theorem fatalLocksEveryCommand : Obligations.FatalLocksEveryCommand :=
  fun _ _ hfatal => exec_of_failed_check (checkCommand_of_fatal hfatal)

/-- Settles O8: check 3 fails on the valid flag of the structure that each command needs. -/
theorem staleStructureGivesSequenceError : Obligations.StaleStructureGivesSequenceError := fun _ hfatal =>
  ⟨fun htree => ⟨exec_of_failed_check (checkCommand_of_stale (i := .genCodes) hfatal htree),
      exec_of_failed_check (checkCommand_of_stale (i := .decode) hfatal htree)⟩,
    fun hcodes => exec_of_failed_check (checkCommand_of_stale (i := .encode) hfatal hcodes)⟩

/-- Settles O9: check 4 fails once check 3 has passed, which it does for FREQ_COUNT in every state. -/
theorem overlongInputGivesLengthError : Obligations.OverlongInputGivesLengthError := fun _ hfatal hlong =>
  ⟨exec_of_failed_check (checkCommand_of_overlong hfatal rfl rfl hlong),
    fun hcodes => exec_of_failed_check (checkCommand_of_overlong (i := .encode) hfatal hcodes rfl hlong),
    fun htree => exec_of_failed_check (checkCommand_of_overlong (i := .decode) hfatal htree rfl hlong)⟩

/-! ### NOP and CLEAR (R104, R105) -/

/-- Settles O10: the pseudocode of NOP is empty. -/
theorem nopOnlyCompletes : Obligations.NopOnlyCompletes :=
  fun _ hfatal => exec_of_ok (checkCommand_of_no_operand hfatal rfl rfl) rfl

/-- Settles O11: the pseudocode of CLEAR is `State.clearAll`. -/
theorem clearZeroesTablesAndResults : Obligations.ClearZeroesTablesAndResults :=
  fun s hfatal => exec_of_ok (t := s.clearAll) (checkCommand_of_no_operand hfatal rfl rfl) rfl

/-- `t` differs from `s` only in what a completion writes (R98, R99) and in the draw it takes. -/
def onlyCompletionChanged (s t : State) : Prop :=
  t = { s with
    seq := t.seq, done := t.done, err := t.err, errCode := t.errCode, errInfo := t.errInfo, draws := t.draws }

/-- A command whose pseudocode raises nothing completes from the state at acceptance, when a check fails, or from the one its
pseudocode leaves. -/
theorem onlyCompletionChanged_of_exec {i : Instr} {s t u : State} (hbody : bodyOf i s = .ok u) (h : exec i s = .next t) :
    onlyCompletionChanged s t ∨ onlyCompletionChanged u t := by
  cases hcheck : checkCommand i s with
  | some r =>
    obtain rfl := Host.Outcome.next.inj ((exec_of_failed_check hcheck).symm.trans h)
    exact .inl rfl
  | none =>
    obtain rfl := Host.Outcome.next.inj ((exec_of_ok hcheck hbody).symm.trans h)
    exact .inr rfl

/-- The frame of a completion that installs nothing (R98, R99). -/
theorem onlyCompletionChanged.frame {s t : State} (h : onlyCompletionChanged s t) :
    sameMemories s t ∧ sameHostSide s t ∧ sameTree s t ∧ sameCodes s t ∧ sameResults s t ∧ sameValid s t ∧
      t.freq = s.freq ∧ t.pq = s.pq ∧ t.walk = s.walk := by
  rw [h]
  exact ⟨fun _ => ⟨rfl, rfl⟩, ⟨rfl, rfl, rfl, rfl, rfl, rfl, rfl, rfl, rfl, rfl⟩, ⟨rfl, rfl, rfl, rfl⟩, ⟨rfl, rfl⟩,
    ⟨rfl, rfl, rfl⟩, ⟨rfl, rfl⟩, rfl, rfl, rfl⟩

/-- Settles O36: NOP changes only what a completion writes, and so does CLEAR once its tables and results are zeroed. -/
theorem controlCommandsFrame : Obligations.ControlCommandsFrame := by
  intro s t
  refine ⟨fun h => ?_, fun h => ?_⟩
  · exact ((onlyCompletionChanged_of_exec (u := s) rfl h).elim id id).frame
  · rcases onlyCompletionChanged_of_exec (u := s.clearAll) rfl h with hkept | hcleared
    · obtain ⟨hmem, hhost, _, _, _, _, _, hpq, hwalk⟩ := hkept.frame
      exact ⟨hmem, hhost, hpq, hwalk⟩
    · obtain ⟨hmem, hhost, _, _, _, _, _, hpq, hwalk⟩ := hcleared.frame
      exact ⟨hmem, hhost, hpq, hwalk⟩

end Sys2Proof.Machine
end

section
/-! SUPPORT. FREQ_COUNT (R111, R112): the counts of an input and their sum, and what the three commands that build a structure leave
unchanged (R111, R127, R141). -/

namespace Sys2Proof.Machine

/-! ### The counts of an input (R111, R112) -/

theorem inputBytes_length (s : State) : s.inputBytes.length = s.inLen.toNat := by
  rw [State.inputBytes, List.length_map, List.length_range]

theorem mem_inputBytes {s : State} {x : Byte} : x ∈ s.inputBytes ↔ ∃ a < s.inLen.toNat, s.coreByte a = x := by
  simp only [State.inputBytes, List.mem_map, List.mem_range]

theorem tableGet_countsOf (input : List Byte) (x : Byte) :
    tableGet (countsOf input) x = BitVec.ofNat 32 (input.count x) := by
  simp [tableGet, countsOf]

/-- A counter never wraps around: a count is at most `IN_LEN`, a 32-bit word (R10). -/
theorem tableGet_countsOf_inputBytes (s : State) (x : Byte) :
    (tableGet (countsOf s.inputBytes) x).toNat = s.inputBytes.count x := by
  have hle : s.inputBytes.count x ≤ s.inLen.toNat := inputBytes_length s ▸ List.count_le_length
  rw [tableGet_countsOf, BitVec.toNat_ofNat, Nat.mod_eq_of_lt (hle.trans_lt s.inLen.isLt)]

/-- The sum lists every symbol exactly once. -/
theorem sumOverSymbols_eq_sum (f : Byte → Nat) : sumOverSymbols f = ∑ x : Byte, f x := by
  have hinj : ∀ a ∈ List.range 256, ∀ b ∈ List.range 256, BitVec.ofNat 8 a = BitVec.ofNat 8 b → a = b := by
    intro a ha b hb hab
    have hmod := congrArg BitVec.toNat hab
    rwa [BitVec.toNat_ofNat, BitVec.toNat_ofNat, Nat.mod_eq_of_lt (List.mem_range.1 ha),
      Nat.mod_eq_of_lt (List.mem_range.1 hb)] at hmod
  have hall : ((List.range 256).map (BitVec.ofNat 8)).toFinset = Finset.univ :=
    Finset.eq_univ_of_forall fun x =>
      List.mem_toFinset.2 (List.mem_map.2 ⟨x.toNat, List.mem_range.2 x.isLt, by simp⟩)
  rw [← hall, List.sum_toFinset f (List.nodup_range.map_on hinj), List.map_map]
  rfl

theorem sumOverSymbols_count (input : List Byte) : sumOverSymbols (fun x => input.count x) = input.length := by
  rw [sumOverSymbols_eq_sum]
  simpa only [Multiset.coe_count, Multiset.coe_card] using
    Multiset.sum_count_eq_card (m := (input : Multiset Byte)) fun x _ => Finset.mem_univ x

/-! ### FREQ_COUNT -/

/-- FREQ_COUNT passes every check when `FATAL = 0` and the input fits (R101), and then installs the counts (R98, R111). -/
theorem exec_freqCount {s : State} (hfatal : s.fatal = false) (hlen : s.inLen.toNat ≤ s.capIn) :
    exec .freqCount s = .next (s.installCounts (countsOf s.inputBytes)).succeed :=
  exec_of_ok (checkCommand_eq_none.2 ⟨hfatal, rfl, fun _ => hlen⟩) rfl

/-- Settles O12: the table that FREQ_COUNT installs is `countsOf`. -/
theorem freqCountInstallsTheCounts : Obligations.FreqCountInstallsTheCounts := fun s hfatal hlen =>
  ⟨countsOf s.inputBytes, tableGet_countsOf s.inputBytes, exec_freqCount hfatal hlen⟩

/-- Settles O13: the counts of all symbols add up to the length of the input, and a count is positive iff the symbol occurs. -/
theorem freqCountSumsToTheInputLength : Obligations.FreqCountSumsToTheInputLength := by
  intro s _ hfatal hlen
  refine ⟨_, exec_freqCount hfatal hlen, ?_, fun x => ?_⟩
  · calc sumOverSymbols (fun x => (tableGet (countsOf s.inputBytes) x).toNat)
        = sumOverSymbols (fun x => s.inputBytes.count x) := by simp only [tableGet_countsOf_inputBytes]
      _ = s.inputBytes.length := sumOverSymbols_count s.inputBytes
      _ = s.inLen.toNat := inputBytes_length s
  · change 1 ≤ (tableGet (countsOf s.inputBytes) x).toNat ↔ _
    rw [tableGet_countsOf_inputBytes, List.one_le_count_iff, mem_inputBytes]

/-! ### The frame of FREQ_COUNT, BUILD_TREE and GEN_CODES -/

/-- BUILD_TREE raises nothing: the merge loop never extracts from an empty queue (R124). -/
theorem treeOf_isOk (freq : Vector Word 256) : ∃ tr, treeOf freq = .ok tr := by
  by_cases hnone : (leavesOf freq).nodes.length = 0
  · exact ⟨emptyTree, by simp only [treeOf, if_pos hnone]⟩
  · obtain ⟨b, hloop, _, _⟩ := mergeLoop_induction (fun _ => True) (fun _ _ _ _ _ _ => trivial) _
      (addSentinel (leavesOf freq)) (Nat.le_succ _) trivial
    simp only [treeOf, if_neg hnone, hloop, Except.ok.injEq, exists_eq']

theorem bodyOf_buildTree {s : State} {tr : Tree} (h : treeOf s.freq = .ok tr) :
    bodyOf .buildTree s = .ok (s.installTree tr.nodes tr.nsym tr.root tr.nnodes) := by
  simp only [bodyOf, buildTreeBody, h]

/-- Settles O37: a completion changes nothing else, neither of the state at acceptance nor of the one with the counts, the tree or
the codes installed. -/
theorem structureCommandsFrame : Obligations.StructureCommandsFrame := by
  intro s t
  refine ⟨fun h => ?_, fun h => ?_, fun h => ?_⟩
  · rcases onlyCompletionChanged_of_exec rfl h with hend | hend
    all_goals
      obtain ⟨hmem, hhost, htree, hcodes, hresults, _, _, hpq, hwalk⟩ := hend.frame
      exact ⟨hmem, hhost, htree, hcodes, hresults, hpq, hwalk⟩
  · obtain ⟨tr, htr⟩ := treeOf_isOk s.freq
    rcases onlyCompletionChanged_of_exec (bodyOf_buildTree htr) h with hend | hend
    all_goals
      obtain ⟨hmem, hhost, _, hcodes, hresults, _, hfreq, _, hwalk⟩ := hend.frame
      exact ⟨hmem, hhost, hcodes, hresults, hfreq, hwalk⟩
  · rcases onlyCompletionChanged_of_exec rfl h with hend | hend
    all_goals
      obtain ⟨hmem, hhost, htree, _, hresults, ⟨hvalid, _⟩, hfreq, hpq, hwalk⟩ := hend.frame
      exact ⟨hmem, hhost, htree, hresults, hfreq, hvalid, hpq, hwalk⟩

end Sys2Proof.Machine
end

section
/-! SUPPORT. BUILD_TREE completes with the tree of `FREQ` (R124, R127), the empty tree without a counted symbol (R128) and the
sentinel tree with one (R129). -/

namespace Sys2Proof.Machine

/-- BUILD_TREE passes every check when `FATAL = 0` (R101), and then installs the tree of `FREQ` (R98, R127). -/
theorem exec_buildTree {s : State} {tr : Tree} (hfatal : s.fatal = false) (h : treeOf s.freq = .ok tr) :
    exec .buildTree s = .next (s.installTree tr.nodes tr.nsym tr.root tr.nnodes).succeed :=
  exec_of_ok (checkCommand_of_no_operand hfatal rfl rfl) (bodyOf_buildTree h)

/-- Settles O14: every FrequencyMap has a tree, as no merge meets an empty queue. -/
theorem buildTreeInstallsTheTreeOfFreq : Obligations.BuildTreeInstallsTheTreeOfFreq := by
  intro s hfatal
  obtain ⟨tr, htr⟩ := treeOf_isOk s.freq
  exact ⟨tr, htr, exec_buildTree hfatal htr⟩

/-! ### No symbol (R128) -/

theorem nodeMemory_nil : nodeMemory [] = Vector.replicate 511 Node.cleared :=
  Vector.ext fun i hi => by simp [nodeMemory]

theorem countedSymbols_eq_nil {freq : Vector Word 256} (h : ∀ x, tableGet freq x = 0#32) : countedSymbols freq = [] :=
  List.eq_nil_iff_forall_not_mem.2 fun x hx => mem_countedSymbols.1 hx (h x)

theorem treeOf_no_symbol {freq : Vector Word 256} (h : countedSymbols freq = []) : treeOf freq = .ok emptyTree := by
  obtain ⟨tr, htr⟩ := treeOf_isOk freq
  rcases treeOf_eq_ok htr with ⟨_, rfl⟩ | ⟨hne, _⟩
  · exact htr
  · exact absurd h hne

/-- Settles O15: the empty tree has every slot cleared. -/
theorem noSymbolGivesTheEmptyTree : Obligations.NoSymbolGivesTheEmptyTree := by
  intro s hfatal hzero
  rw [exec_buildTree hfatal (treeOf_no_symbol (countedSymbols_eq_nil hzero)), ← nodeMemory_nil]
  rfl

/-! ### One symbol (R129) -/

theorem countedSymbols_eq_singleton {freq : Vector Word 256} {x : Byte} (hx : tableGet freq x ≠ 0#32)
    (h : ∀ y, y ≠ x → tableGet freq y = 0#32) : countedSymbols freq = [x] := by
  have hnodup : (countedSymbols freq).Nodup := (countedSymbols_sorted freq).imp fun hlt => BitVec.ne_of_lt hlt
  refine List.perm_singleton.1 ((List.perm_ext_iff_of_nodup hnodup (List.nodup_singleton x)).2 fun y => ?_)
  rw [mem_countedSymbols, List.mem_singleton]
  exact ⟨not_imp_comm.1 (h y), fun hy => hy ▸ hx⟩

/-- The slots of the sentinel tree of symbol `x`. -/
def sentinelTreeNodes (freq : Vector Word 256) (x : Byte) : List Node :=
  [leafOf freq x, sentinelNode, ⟨.internal, (leafOf freq x).freq, 0#9, 1#9, 0#9⟩]

/-- The queue holds the keys of the leaves (R126). -/
theorem leavesOf_queue (freq : Vector Word 256) : (leavesOf freq).pq.Perm (keysOf (leavesOf freq).nodes) :=
  addLeaves_keeps_queue _ _ (List.Perm.refl _)

theorem leavesOf_one_symbol {freq : Vector Word 256} {x : Byte} (h : countedSymbols freq = [x]) :
    leavesOf freq = ⟨[leafOf freq x], [⟨(leafOf freq x).freq, 0#9⟩]⟩ := by
  have hnodes : (leavesOf freq).nodes = [leafOf freq x] := by rw [leavesOf_nodes, h, List.map_singleton]
  have hqueue := leavesOf_queue freq
  rw [hnodes] at hqueue
  exact congrArg₂ Builder.mk hnodes (List.perm_singleton.1 hqueue)

/-- The sentinel's key is the lesser one, so the sentinel becomes LEFT (R129). -/
theorem addSentinel_one_symbol {freq : Vector Word 256} {x : Byte} (hx : tableGet freq x ≠ 0#32) :
    addSentinel ⟨[leafOf freq x], [⟨(leafOf freq x).freq, 0#9⟩]⟩ =
      ⟨[leafOf freq x, sentinelNode], [⟨0#40, 1#9⟩, ⟨(leafOf freq x).freq, 0#9⟩]⟩ := by
  have hpos : 0 < (tableGet freq x).toNat := Nat.pos_of_ne_zero fun h => hx (BitVec.eq_of_toNat_eq h)
  have hfreq : (leafOf freq x).freq.toNat = (tableGet freq x).toNat := BitVec.toNat_setWidth_of_le (by decide)
  have hlt : pqLt ⟨0#40, 1#9⟩ ⟨(leafOf freq x).freq, 0#9⟩ = true := pqLt_iff.2 (.inl (hfreq ▸ hpos))
  exact congrArg (Builder.mk [leafOf freq x, sentinelNode]) (if_pos hlt)

theorem treeOf_one_symbol {freq : Vector Word 256} {x : Byte} (hx : tableGet freq x ≠ 0#32)
    (h : ∀ y, y ≠ x → tableGet freq y = 0#32) :
    treeOf freq = .ok ⟨nodeMemory (sentinelTreeNodes freq x), 1#9, 2#9, 3#10⟩ := by
  have hloop : mergeLoop 2 ⟨[leafOf freq x, sentinelNode], [⟨0#40, 1#9⟩, ⟨(leafOf freq x).freq, 0#9⟩]⟩ =
      .ok ⟨sentinelTreeNodes freq x, [⟨(leafOf freq x).freq, 2#9⟩]⟩ := by
    rw [mergeLoop_merge rfl, BitVec.zero_add]
    exact mergeLoop_done (Nat.lt_succ_self 1)
  rw [treeOf, leavesOf_one_symbol (countedSymbols_eq_singleton hx h), addSentinel_one_symbol hx]
  simp only [List.length_cons, List.length_nil, hloop]
  rfl

/-- Settles O16: the only merge takes the sentinel, whose frequency is 0, before the real leaf. -/
theorem oneSymbolGivesTheSentinelTree : Obligations.OneSymbolGivesTheSentinelTree := by
  intro s x hfatal hx hzero
  have hslot (n : Nat) (hn : n ≤ 511) :
      slot (nodeMemory (sentinelTreeNodes s.freq x)) n = slotOf (sentinelTreeNodes s.freq x) n :=
    slot_nodeMemory (by simp [sentinelTreeNodes]) hn
  refine ⟨_, exec_buildTree hfatal (treeOf_one_symbol hx hzero), rfl, rfl, rfl, rfl, hslot 0 (by decide), hslot 1 (by decide),
    hslot 2 (by decide), fun n hlo hhi => ?_⟩
  exact (hslot n (by omega)).trans (List.getD_eq_default _ _ hlo)

end Sys2Proof.Machine
end

section
/-! SUPPORT. The merge loop of BUILD_TREE keeps the queue ordered, so every merge takes the two least keys (R16, R122, R130). -/

namespace Sys2Proof.Machine

/-! ### The ordered queue -/

/-- A new slot's key goes into an ordered queue of keys of earlier slots. -/
theorem addNode_sorted (n : Node) {b : Builder} (hq : b.pq.Pairwise fun x y => pqLt x y = true)
    (hidx : ∀ k ∈ b.pq, k.idx.toNat < b.nodes.length) (hlen : b.nodes.length < 512) :
    (addNode n b).pq.Pairwise fun x y => pqLt x y = true := by
  refine pqInsert_sorted hq fun k hk heq => (hidx k hk).ne ?_
  rw [heq, BitVec.toNat_ofNat, Nat.mod_eq_of_lt hlen]

theorem idx_lt_of_perm_keysOf {ns : List Node} {pq : List PqKey} (h : pq.Perm (keysOf ns)) (hlen : ns.length ≤ 512)
    {k : PqKey} (hk : k ∈ pq) : k.idx.toNat < ns.length :=
  List.mem_range.1 (keysOf_indices hlen ▸ List.mem_map_of_mem (h.subset hk))

theorem addLeaves_sorted (fs : List Word) (sym : Nat) {b : Builder} (hqueue : b.pq.Perm (keysOf b.nodes))
    (hlen : b.nodes.length + fs.length ≤ 512) (hq : b.pq.Pairwise fun x y => pqLt x y = true) :
    (addLeaves fs sym b).pq.Pairwise fun x y => pqLt x y = true := by
  induction fs generalizing sym b with
  | nil => exact hq
  | cons f fs ih =>
    rw [List.length_cons] at hlen
    rw [addLeaves]
    split
    · exact ih _ hqueue (by omega) hq
    · refine ih _ (addNode_keeps_queue _ hqueue) ?_
        (addNode_sorted _ hq (fun k hk => idx_lt_of_perm_keysOf hqueue (by omega) hk) (by omega))
      rw [addNode_nodes, List.length_append, List.length_singleton]
      omega

/-- The queue is ordered when the merge loop begins. -/
theorem start_sorted (freq : Vector Word 256) :
    (addSentinel (leavesOf freq)).pq.Pairwise fun x y => pqLt x y = true := by
  have hqueue := leavesOf_queue freq
  have hleaves : (leavesOf freq).pq.Pairwise fun x y => pqLt x y = true :=
    addLeaves_sorted _ _ (List.Perm.refl _) (by simp) List.Pairwise.nil
  unfold addSentinel
  split
  · rename_i hone
    exact addNode_sorted _ hleaves (fun k hk => idx_lt_of_perm_keysOf hqueue (by omega) hk) (by omega)
  · exact hleaves

/-! ### Every merge takes the two least keys -/

/-- The key of slot `n` (R16). -/
def keyOf (ns : List Node) (n : Nat) : PqKey := ⟨(slotOf ns n).freq, BitVec.ofNat 9 n⟩

theorem keyOf_append_left {ns : List Node} {n : Nat} (h : n < ns.length) (ms : List Node) :
    keyOf (ns ++ ms) n = keyOf ns n := by
  rw [keyOf, slotOf_append_left h, keyOf]

/-- An entry of the queue is the key of its slot. -/
theorem MergeInv.keyOf_idx {start : List Node} {b : Builder} (h : MergeInv start b) {k : PqKey} (hk : k ∈ b.pq) :
    keyOf b.nodes k.idx.toNat = k := by
  rw [keyOf, ← h.keys k hk, BitVec.ofNat_toNat, BitVec.setWidth_eq]

/-- A slot that no slot has as a child is in the queue. -/
theorem MergeInv.mem_queue {start : List Node} {b : Builder} (h : MergeInv start b) {c : Nat} (hc : c < b.nodes.length)
    (hfree : c ∉ childrenOf b.nodes) : ∃ k ∈ b.pq, k.idx.toNat = c :=
  List.mem_map.1 ((List.mem_append.1 (h.once.symm.subset (List.mem_range.2 hc))).resolve_left hfree)

/-- LEFT of slot `n` has a lesser key than RIGHT, and RIGHT a lesser key than every earlier slot that no slot up to `n` has as a
child (R122, R130). -/
structure LeastMerge (ns : List Node) (n : Nat) : Prop where
  left_lt_right : pqLt (keyOf ns (slotOf ns n).left.toNat) (keyOf ns (slotOf ns n).right.toNat) = true
  right_lt_free : ∀ c < n, (∀ q ≤ n, c ∉ (slotOf ns q).children) → pqLt (keyOf ns (slotOf ns n).right.toNat) (keyOf ns c) = true

/-- Later slots do not matter. -/
theorem LeastMerge.append {ns : List Node} {n : Nat} (h : LeastMerge ns n) (hmerged : MergedAt ns n) (hn : n < ns.length)
    (m : Node) : LeastMerge (ns ++ [m]) n := by
  have hright := keyOf_append_left (hmerged.right_lt.trans hn) [m]
  constructor <;> rw [slotOf_append_left hn, hright]
  · rw [keyOf_append_left (hmerged.left_lt.trans hn)]
    exact h.left_lt_right
  · intro c hc hfree
    rw [keyOf_append_left (hc.trans hn)]
    refine h.right_lt_free c hc fun q hq => ?_
    rw [← slotOf_append_left (hq.trans_lt hn) [m]]
    exact hfree q hq

/-- What the merge loop keeps besides `MergeInv`: the order of the queue, and that every merge so far took the least keys. -/
structure LeastMerges (start : List Node) (b : Builder) : Prop where
  sorted : b.pq.Pairwise fun x y => pqLt x y = true
  least : ∀ n, start.length ≤ n → n < b.nodes.length → LeastMerge b.nodes n

/-- The merge of the two first keys of an ordered queue: the slots that are still free are those of the other keys. -/
theorem MergeInv.leastMerge_new {start : List Node} {b : Builder} (h : MergeInv start b)
    (hsorted : b.pq.Pairwise fun x y => pqLt x y = true) {x y : PqKey} {q : List PqKey} (hq : b.pq = x :: y :: q) :
    LeastMerge (b.nodes ++ [mergedNode x y]) b.nodes.length := by
  have hx : x ∈ b.pq := by simp [hq]
  have hy : y ∈ b.pq := by simp [hq]
  rw [hq, List.pairwise_cons, List.pairwise_cons] at hsorted
  obtain ⟨hleast, hnext, _⟩ := hsorted
  have hkey (k : PqKey) (hk : k ∈ b.pq) : keyOf (b.nodes ++ [mergedNode x y]) k.idx.toNat = k := by
    rw [keyOf_append_left (h.idx_lt hk), h.keyOf_idx hk]
  constructor <;> rw [slotOf_append_self]
  · change pqLt (keyOf _ x.idx.toNat) (keyOf _ y.idx.toNat) = true
    rw [hkey x hx, hkey y hy]
    exact hleast y List.mem_cons_self
  · intro c hc hfree
    have hnot : c ∉ childrenOf b.nodes := by
      intro hmem
      obtain ⟨p, hp, hcp⟩ := mem_childrenOf.1 hmem
      exact hfree p hp.le (by rwa [slotOf_append_left hp])
    obtain ⟨k, hk, rfl⟩ := h.mem_queue hc hnot
    have hnew := hfree b.nodes.length le_rfl
    rw [slotOf_append_self, Node.mem_children] at hnew
    change pqLt (keyOf _ y.idx.toNat) (keyOf _ k.idx.toNat) = true
    rw [hkey y hy, hkey k hk]
    rw [hq, List.mem_cons, List.mem_cons] at hk
    rcases hk with rfl | rfl | hk
    · exact absurd ⟨rfl, .inl rfl⟩ hnew
    · exact absurd ⟨rfl, .inr rfl⟩ hnew
    · exact hnext k hk

theorem LeastMerges.merge {start : List Node} {b : Builder} (h : LeastMerges start b) (hinv : MergeInv start b)
    (hle : start.length ≤ 256) {x y : PqKey} {q : List PqKey} (hq : b.pq = x :: y :: q) :
    LeastMerges start (addNode (mergedNode x y) ⟨b.nodes, q⟩) := by
  have hsize : b.nodes.length + (q.length + 2) = 2 * start.length := by simpa [hq] using hinv.size
  have hsub : q ⊆ b.pq := by simp [hq]
  constructor
  case sorted =>
    have hrest := h.sorted
    rw [hq, List.pairwise_cons, List.pairwise_cons] at hrest
    exact addNode_sorted _ hrest.2.2 (fun k hk => hinv.idx_lt (hsub hk)) (show b.nodes.length < 512 by omega)
  case least =>
    intro n hlo hhi
    rw [addNode_nodes, List.length_append, List.length_singleton] at hhi
    rcases Nat.lt_succ_iff_lt_or_eq.1 hhi with hlt | rfl
    · exact (h.least n hlo hlt).append (hinv.merged n hlo hlt) hlt _
    · exact hinv.leastMerge_new h.sorted hq

/-! ### The tree that BUILD_TREE leaves -/

theorem startNodes_bounds {freq : Vector Word 256} (h : countedSymbols freq ≠ []) :
    2 ≤ (startNodes freq).length ∧ (startNodes freq).length ≤ 256 := by
  have hpos := List.length_pos_iff.2 h
  have hle := countedSymbols_length_le freq
  have hstart := startNodes_length freq
  split at hstart <;> omega

theorem start_mergeInv {freq : Vector Word 256} (h : countedSymbols freq ≠ []) :
    MergeInv (startNodes freq) (addSentinel (leavesOf freq)) := by
  obtain ⟨htwo, hle⟩ := startNodes_bounds h
  have hinv := mergeInv_start (start_queue freq) htwo hle (fun n => startNodes_kind) (startNodes_freq_sum freq hle)
  rwa [← addSentinel_leaves_nodes] at hinv ⊢

theorem start_leastMerges (freq : Vector Word 256) : LeastMerges (startNodes freq) (addSentinel (leavesOf freq)) :=
  ⟨start_sorted freq, fun _ hlo hhi => absurd (addSentinel_leaves_nodes freq ▸ hhi) (Nat.not_lt.2 hlo)⟩

/-- With a counted symbol, the node memory of the tree holds slots that are all merges of least keys. -/
theorem treeOf_leastMerge {freq : Vector Word 256} {t : Tree} (h : treeOf freq = .ok t) (hne : countedSymbols freq ≠ []) :
    ∃ ns, t.nodes = nodeMemory ns ∧ BuiltFrom (startNodes freq) ns ∧
      ∀ n, (startNodes freq).length ≤ n → n < ns.length → LeastMerge ns n := by
  have hle := (startNodes_bounds hne).2
  obtain ⟨b, hloop, ⟨hinv, hleast⟩, hone⟩ :=
    mergeLoop_induction (fun b => MergeInv (startNodes freq) b ∧ LeastMerges (startNodes freq) b)
      (fun b x y q hq hb => ⟨hb.1.merge hle hq, hb.2.merge hb.1 hle hq⟩) _ _ (Nat.le_succ _)
      ⟨start_mergeInv hne, start_leastMerges freq⟩
  obtain ⟨_, _, _, hbuilt⟩ := hinv.built (fun n => startNodes_kind) hone
  have hsome : (leavesOf freq).nodes.length ≠ 0 := by rwa [leavesOf_length, ne_eq, List.length_eq_zero_iff]
  simp only [treeOf, if_neg hsome, hloop, Except.ok.injEq] at h
  exact ⟨b.nodes, h ▸ rfl, hbuilt, hleast.least⟩

namespace HoldsTree

variable {s : State} {ns : List Node}

/-- The slots of a tree are those of its node memory. -/
theorem of_nodeMemory (h : HoldsTree s ns) {ns' : List Node} (hbuilt : BuiltFrom (startNodes s.freq) ns')
    (hnodes : s.nodes = nodeMemory ns') : HoldsTree s ns' := by
  have hsize := hbuilt.size
  have hsize' := h.built.size
  have hlen : ns.length = ns'.length := by omega
  have hbounds := startNodes_bounds h.counted
  exact ⟨h.counted, hbuilt, fun n hn => hnodes ▸ slot_nodeMemory (by omega) hn, h.nsym, hlen ▸ h.root, hlen ▸ h.nnodes⟩

theorem slotKeyLt_iff (h : HoldsTree s ns) {m n : Nat} (hm : m ≤ 511) (hn : n ≤ 511) :
    slotKeyLt s.nodes m n ↔ pqLt (keyOf ns m) (keyOf ns n) = true := by
  rw [pqLt_iff, slotKeyLt, h.slots m hm, h.slots n hn]
  simp only [keyOf, BitVec.toNat_ofNat, Nat.mod_eq_of_lt (Nat.lt_succ_of_le hm), Nat.mod_eq_of_lt (Nat.lt_succ_of_le hn)]

/-- The slots before the first merge have no children. -/
theorem children_of_start (h : HoldsTree s ns) {q : Nat} (hq : q < firstInternal s) : (slotOf ns q).children = [] := by
  rw [← h.start_length] at hq
  rw [slotOf_of_prefix h.built.leaves hq, slotOf_eq_getElem hq]
  exact Node.children_of_leaf (startNodes_kind (List.getElem_mem hq))

end HoldsTree

/-- Settles O21: the merge loop keeps the queue ordered and takes its two first keys, and the queue holds the keys of all slots
that have no parent yet. -/
theorem mergesTakeTheTwoLeastKeys : Obligations.MergesTakeTheTwoLeastKeys := by
  intro s hcur hvalid n hlo hhi
  rcases holdsTree_cases hcur hvalid with ⟨_, _, _, _, hnnodes⟩ | ⟨_, h⟩
  · rw [hnnodes] at hhi
    exact absurd hhi (Nat.not_lt_zero n)
  · obtain ⟨ns, hnodes, hbuilt, hleast⟩ := treeOf_leastMerge (hcur hvalid) h.counted
    replace h := h.of_nodeMemory hbuilt hnodes
    have hsize := h.size
    have hbounds := h.start_bounds
    rw [h.nnodes] at hhi
    have hmerged := h.mergedAt hlo hhi
    obtain ⟨hleft, hright⟩ := hleast n (h.start_length ▸ hlo) hhi
    have hl := hmerged.left_lt
    have hr := hmerged.right_lt
    rw [h.slot_eq hhi]
    refine ⟨(h.slotKeyLt_iff (by omega) (by omega)).2 hleft, fun c hc hcl hcr hfree => ?_⟩
    refine (h.slotKeyLt_iff (by omega) (by omega)).2 (hright c hc fun q hq hcq => ?_)
    rcases Nat.lt_or_ge q (firstInternal s) with hstart | hinternal
    · rw [h.children_of_start hstart] at hcq
      exact List.not_mem_nil hcq
    · rcases Nat.lt_or_eq_of_le hq with hlt | rfl
      · exact hfree q hinternal hlt ((h.childSlot_iff (hlt.trans hhi)).2 hcq)
      · obtain ⟨_, rfl | rfl⟩ := Node.mem_children.1 hcq
        · exact hcl rfl
        · exact hcr rfl

end Sys2Proof.Machine
end

section
/-! SUPPORT. Walks over a node memory by the bits of a path (R142), and the walks to leaves that the visit of R141 lists. -/

namespace Sys2Proof.Machine

/-! ### Symbols as they stand in leaves (R9, R47) -/

theorem setWidth_symbol_inj {x y : Byte} : (x.setWidth 9 : TreeSym) = y.setWidth 9 ↔ x = y := by
  refine ⟨fun h => ?_, congrArg _⟩
  have hback := congrArg (BitVec.setWidth 8) h
  simpa using hback

theorem symbol_ne_sent (x : Byte) : x.setWidth 9 ≠ Config.sent := by
  have hx := x.isLt
  rw [ne_eq, BitVec.toNat_eq, Config.sent, BitVec.toNat_setWidth, BitVec.toNat_ofNat]
  omega

/-! ### Walks -/

section Walks

variable {nodes : Vector Node 511}

@[simp] theorem follow_nil (x : Idx) : follow nodes x [] = some x := rfl

theorem follow_cons_eq_some {x n : Idx} {b : Bool} {p : Bits} :
    follow nodes x (b :: p) = some n ↔ (nodeAt nodes x).kind = .internal ∧ follow nodes (childOf nodes x b) p = some n := by
  simp [follow]

theorem follow_append_eq_some {x n : Idx} {p q : Bits} :
    follow nodes x (p ++ q) = some n ↔ ∃ m, follow nodes x p = some m ∧ follow nodes m q = some n := by
  induction p generalizing x with
  | nil => simp [follow]
  | cons b p ih => simp only [List.cons_append, follow_cons_eq_some, ih, and_assoc, exists_and_left]

theorem follow_concat_eq_some {x n : Idx} {p : Bits} {b : Bool} :
    follow nodes x (p ++ [b]) = some n ↔
      ∃ m, follow nodes x p = some m ∧ (nodeAt nodes m).kind = .internal ∧ childOf nodes m b = n := by
  simp only [follow_append_eq_some, follow_cons_eq_some, follow_nil, Option.some.injEq]

/-- No edge leaves a leaf. -/
theorem follow_of_leaf {x n : Idx} {p : Bits} (hk : (nodeAt nodes x).kind = .leaf) (h : follow nodes x p = some n) :
    p = [] := by
  cases p with
  | nil => rfl
  | cons b p => exact absurd (hk.symm.trans (follow_cons_eq_some.1 h).1) NodeKind.noConfusion

/-- No path to a leaf begins a path to another leaf (R144 (c), (d)). -/
theorem leafPath_symbol_eq_of_isPrefix {root : Idx} {p q : Bits} {x y : Byte} (hp : leafPath nodes root p x)
    (hq : leafPath nodes root q y) (hpre : p <+: q) : x = y := by
  obtain ⟨r, rfl⟩ := hpre
  obtain ⟨_, n, hn, hleaf, hx⟩ := hp
  obtain ⟨_, m, hm, _, hy⟩ := hq
  obtain ⟨n', hn', hr⟩ := follow_append_eq_some.1 hm
  obtain rfl := Option.some.inj (hn.symm.trans hn')
  obtain rfl := follow_of_leaf hleaf hr
  obtain rfl := Option.some.inj hr
  exact setWidth_symbol_inj.1 (hx.symm.trans hy)

theorem leafPaths_of_leaf {x : Idx} (hk : (nodeAt nodes x).kind = .leaf) (fuel : Nat) (p : Bits) :
    leafPaths nodes (fuel + 1) x p = [((nodeAt nodes x).sym, p)] := by
  simp only [leafPaths, hk]

theorem leafPaths_of_internal {x : Idx} (hk : (nodeAt nodes x).kind = .internal) (fuel : Nat) (p : Bits) :
    leafPaths nodes (fuel + 1) x p =
      leafPaths nodes fuel (childOf nodes x false) (p ++ [false]) ++ leafPaths nodes fuel (childOf nodes x true) (p ++ [true]) := by
  simp only [leafPaths, hk, childOf, Bool.false_eq_true, if_false, if_true]

end Walks

/-! ### Walks that go down -/

section Descent

variable {nodes : Vector Node 511} {lo : Nat}
  (hdown : ∀ n : Idx, (nodeAt nodes n).kind = .internal →
    lo ≤ n.toNat ∧ (nodeAt nodes n).left.toNat < n.toNat ∧ (nodeAt nodes n).right.toNat < n.toNat)
include hdown

theorem childOf_lt {x : Idx} (hk : (nodeAt nodes x).kind = .internal) (b : Bool) : (childOf nodes x b).toNat < x.toNat := by
  obtain ⟨_, hleft, hright⟩ := hdown x hk
  cases b
  · exact hleft
  · exact hright

theorem follow_le {x n : Idx} {p : Bits} (h : follow nodes x p = some n) : n.toNat ≤ x.toNat := by
  induction p generalizing x with
  | nil => exact (congrArg BitVec.toNat (Option.some.inj h)).ge
  | cons b p ih =>
    obtain ⟨hk, h⟩ := follow_cons_eq_some.1 h
    exact (ih h).trans (childOf_lt hdown hk b).le

/-- With enough fuel, the depth-first visit of R141 lists exactly the walks from `x` that end at a leaf. -/
theorem mem_leafPaths {fuel : Nat} {x : Idx} (hfuel : x.toNat < fuel) {p q : Bits} {sym : TreeSym} :
    (sym, q) ∈ leafPaths nodes fuel x p ↔
      ∃ r n, q = p ++ r ∧ follow nodes x r = some n ∧ (nodeAt nodes n).kind = .leaf ∧ (nodeAt nodes n).sym = sym := by
  induction fuel generalizing x p with
  | zero => exact absurd hfuel (Nat.not_lt_zero _)
  | succ fuel ih =>
    cases hk : (nodeAt nodes x).kind with
    | leaf =>
      rw [leafPaths_of_leaf hk, List.mem_singleton, Prod.mk.injEq]
      constructor
      · rintro ⟨rfl, rfl⟩
        exact ⟨[], x, by simp, rfl, hk, rfl⟩
      · rintro ⟨r, n, rfl, hn, _, rfl⟩
        obtain rfl := follow_of_leaf hk hn
        obtain rfl := Option.some.inj hn
        exact ⟨rfl, by simp⟩
    | internal =>
      have hlt (b : Bool) : (childOf nodes x b).toNat < fuel :=
        (childOf_lt hdown hk b).trans_le (Nat.le_of_lt_succ hfuel)
      rw [leafPaths_of_internal hk, List.mem_append, ih (hlt false), ih (hlt true)]
      constructor
      · rintro (⟨r, n, rfl, hn, hleaf⟩ | ⟨r, n, rfl, hn, hleaf⟩)
        · exact ⟨false :: r, n, by simp, follow_cons_eq_some.2 ⟨hk, hn⟩, hleaf⟩
        · exact ⟨true :: r, n, by simp, follow_cons_eq_some.2 ⟨hk, hn⟩, hleaf⟩
      · rintro ⟨_ | ⟨b, r⟩, n, rfl, hn, hleaf⟩
        · obtain rfl := Option.some.inj hn
          exact absurd (hk.symm.trans hleaf.1) NodeKind.noConfusion
        · obtain ⟨_, hn⟩ := follow_cons_eq_some.1 hn
          cases b
          · exact .inl ⟨r, n, by simp, hn, hleaf⟩
          · exact .inr ⟨r, n, by simp, hn, hleaf⟩

theorem leafPaths_nodup {fuel : Nat} {x : Idx} (hfuel : x.toNat < fuel) (p : Bits) : (leafPaths nodes fuel x p).Nodup := by
  induction fuel generalizing x p with
  | zero => exact List.nodup_nil
  | succ fuel ih =>
    cases hk : (nodeAt nodes x).kind with
    | leaf =>
      rw [leafPaths_of_leaf hk]
      exact List.nodup_singleton _
    | internal =>
      have hlt (b : Bool) : (childOf nodes x b).toNat < fuel :=
        (childOf_lt hdown hk b).trans_le (Nat.le_of_lt_succ hfuel)
      rw [leafPaths_of_internal hk, List.nodup_append]
      refine ⟨ih (hlt false) _, ih (hlt true) _, ?_⟩
      rintro ⟨sym, q⟩ hq _ hq' rfl
      obtain ⟨r, _, rfl, _⟩ := (mem_leafPaths hdown (hlt false)).1 hq
      obtain ⟨r', _, hr, _⟩ := (mem_leafPaths hdown (hlt true)).1 hq'
      simp at hr

/-- A node's leaves weigh as much as the node: each Internal node shares its weight between its two edges (R145). -/
theorem leafPaths_kraft {fuel : Nat} {x : Idx} (hfuel : x.toNat < fuel) {p : Bits} (hlen : p.length + (x.toNat + 1 - lo) ≤ 255) :
    ((leafPaths nodes fuel x p).map fun leaf => 2 ^ (255 - leaf.2.length)).sum = 2 ^ (255 - p.length) := by
  induction fuel generalizing x p with
  | zero => exact absurd hfuel (Nat.not_lt_zero _)
  | succ fuel ih =>
    cases hk : (nodeAt nodes x).kind with
    | leaf => simp [leafPaths_of_leaf hk]
    | internal =>
      have hlo := (hdown x hk).1
      have hedge (b : Bool) :
          ((leafPaths nodes fuel (childOf nodes x b) (p ++ [b])).map fun leaf => 2 ^ (255 - leaf.2.length)).sum =
            2 ^ (255 - (p.length + 1)) := by
        have hlt := childOf_lt hdown hk b
        rw [ih (by omega) (by rw [List.length_append, List.length_singleton]; omega), List.length_append,
          List.length_singleton]
      rw [leafPaths_of_internal hk, List.map_append, List.sum_append, hedge, hedge, ← two_mul, ← Nat.pow_succ']
      congr 1
      omega

end Descent

end Sys2Proof.Machine
end

section
/-! SUPPORT. The walks of a built tree (R49, R142): one leads from the root to each slot, and those to real leaves are the paths of
the counted symbols. -/

namespace Sys2Proof.Machine

theorem countedSymbols_nodup (freq : Vector Word 256) : (countedSymbols freq).Nodup :=
  (countedSymbols_sorted freq).imp fun {_ _} hlt => ne_of_apply_ne BitVec.toNat (Nat.ne_of_lt hlt)

namespace HoldsTree

variable {s : State} {ns : List Node}

theorem nodeAt_eq (h : HoldsTree s ns) (n : Idx) : nodeAt s.nodes n = slotOf ns n.toNat := by
  have hn := n.isLt
  rw [nodeAt_eq_slot, h.slots _ (by omega)]

/-- The root is an Internal slot, and every slot has an index (R47, R131). -/
theorem root_bounds (h : HoldsTree s ns) :
    firstInternal s ≤ s.root.toNat ∧ s.root.toNat < ns.length ∧ ns.length ≤ Config.nodeSlots := by
  have := h.root
  have := h.size
  have := h.start_bounds
  rw [Config.nodeSlots]
  omega

theorem toNat_ofNat_slot (h : HoldsTree s ns) {m : Nat} (hm : m < ns.length) : (BitVec.ofNat 9 m).toNat = m := by
  obtain ⟨_, _, hslots⟩ := h.root_bounds
  exact Nat.mod_eq_of_lt ((hm.trans_le hslots).trans (by decide))

theorem root_lt (h : HoldsTree s ns) : s.root.toNat < Config.nodeSlots := by
  obtain ⟨_, hlt, hslots⟩ := h.root_bounds
  exact hlt.trans_le hslots

theorem follow_lt (h : HoldsTree s ns) {p : Bits} {n : Idx} (hn : follow s.nodes s.root p = some n) :
    n.toNat < ns.length := by
  obtain ⟨_, hlt, _⟩ := h.root_bounds
  exact (follow_le h.internal_above hn).trans_lt hlt

theorem root_internal (h : HoldsTree s ns) : (nodeAt s.nodes s.root).kind = .internal := by
  obtain ⟨hlo, hlt, _⟩ := h.root_bounds
  rw [h.nodeAt_eq]
  exact (h.mergedAt hlo hlt).kind

theorem childOf_mem_children (h : HoldsTree s ns) {n : Idx} (hk : (nodeAt s.nodes n).kind = .internal) (b : Bool) :
    (childOf s.nodes n b).toNat ∈ (slotOf ns n.toNat).children := by
  rw [← h.nodeAt_eq, Node.children_of_internal hk]
  cases b <;> simp [childOf]

theorem childOf_inj (h : HoldsTree s ns) {n : Idx} (hn : n.toNat < ns.length) (hk : (nodeAt s.nodes n).kind = .internal)
    {b c : Bool} (hbc : childOf s.nodes n b = childOf s.nodes n c) : b = c := by
  have hne : (nodeAt s.nodes n).left ≠ (nodeAt s.nodes n).right := by
    rw [h.nodeAt_eq] at hk ⊢
    exact children_ne h.children_nodup.1 hn hk
  cases b <;> cases c
  · rfl
  · exact absurd hbc hne
  · exact absurd hbc.symm hne
  · rfl

/-- One walk leads from the root to a slot: a slot has one parent and is one of its two children, and the root has no parent. -/
theorem walk_unique (h : HoldsTree s ns) {p q : Bits} {n : Idx} (hp : follow s.nodes s.root p = some n)
    (hq : follow s.nodes s.root q = some n) : p = q := by
  obtain ⟨hnodup, hroot⟩ := h.children_nodup
  have hroot_last {r : Bits} {b : Bool} : follow s.nodes s.root (r ++ [b]) ≠ some s.root := by
    intro hr
    obtain ⟨m, hm, hk, hchild⟩ := follow_concat_eq_some.1 hr
    exact hroot (mem_childrenOf.2 ⟨_, h.follow_lt hm, hchild ▸ h.childOf_mem_children hk b⟩)
  induction p using List.reverseRecOn generalizing q n with
  | nil =>
    obtain rfl := Option.some.inj hp
    rcases List.eq_nil_or_concat q with rfl | ⟨q, c, rfl⟩
    · rfl
    · exact absurd hq (List.concat_eq_append ▸ hroot_last)
  | append_singleton p b ih =>
    rcases List.eq_nil_or_concat q with rfl | ⟨q, c, rfl⟩
    · obtain rfl := Option.some.inj hq
      exact absurd hp hroot_last
    · rw [List.concat_eq_append] at hq ⊢
      obtain ⟨m, hm, hmk, rfl⟩ := follow_concat_eq_some.1 hp
      obtain ⟨m', hm', hmk', hchild⟩ := follow_concat_eq_some.1 hq
      obtain rfl : m' = m := BitVec.eq_of_toNat_eq (parent_unique hnodup (h.follow_lt hm) (h.follow_lt hm')
        (h.childOf_mem_children hmk b) (hchild ▸ h.childOf_mem_children hmk' c))
      rw [ih hm hm', h.childOf_inj (h.follow_lt hm) hmk hchild]

/-- Every slot but the root is the child of a slot above it. -/
theorem exists_parent (h : HoldsTree s ns) {n : Idx} (hn : n.toNat < ns.length) (hroot : n ≠ s.root) :
    ∃ m b, m.toNat < ns.length ∧ (nodeAt s.nodes m).kind = .internal ∧ childOf s.nodes m b = n := by
  have hmem : n.toNat ∈ childrenOf ns ++ [ns.length - 1] := h.built.once.symm.subset (List.mem_range.2 hn)
  rw [← h.root_eq, List.mem_append, List.mem_singleton, BitVec.toNat_inj] at hmem
  obtain ⟨m, hm, hchild⟩ := mem_childrenOf.1 (hmem.resolve_right hroot)
  have hidx := h.toNat_ofNat_slot hm
  rw [← hidx, ← h.nodeAt_eq] at hchild
  obtain ⟨hk, hleft | hright⟩ := Node.mem_children.1 hchild
  · exact ⟨_, false, hidx.symm ▸ hm, hk, BitVec.eq_of_toNat_eq hleft⟩
  · exact ⟨_, true, hidx.symm ▸ hm, hk, BitVec.eq_of_toNat_eq hright⟩

/-- Every slot is reached from the root, by way of its parent. -/
theorem exists_walk (h : HoldsTree s ns) {n : Idx} (hn : n.toNat < ns.length) : ∃ p, follow s.nodes s.root p = some n := by
  by_cases hroot : n = s.root
  · exact ⟨[], congrArg some hroot.symm⟩
  · obtain ⟨m, b, hm, hk, rfl⟩ := h.exists_parent hn hroot
    have habove := childOf_lt h.internal_above hk b
    obtain ⟨p, hp⟩ := h.exists_walk hm
    exact ⟨p ++ [b], follow_concat_eq_some.2 ⟨m, hp, hk, rfl⟩⟩
termination_by ns.length - n.toNat

/-- A leaf slot is that of a counted symbol, in order, or the sentinel that follows a single one (R126, R129). -/
theorem leaf_cases (h : HoldsTree s ns) {n : Idx} (hn : n.toNat < ns.length) (hk : (nodeAt s.nodes n).kind = .leaf) :
    (∃ hlt : n.toNat < (countedSymbols s.freq).length, nodeAt s.nodes n = leafOf s.freq (countedSymbols s.freq)[n.toNat]) ∨
      ((countedSymbols s.freq).length = 1 ∧ nodeAt s.nodes n = sentinelNode) := by
  have hstart : n.toNat < firstInternal s := by
    by_contra hge
    rw [h.nodeAt_eq, (h.mergedAt (Nat.not_lt.1 hge) hn).kind] at hk
    cases hk
  rw [nodeAt_eq_slot]
  by_cases hlt : n.toNat < (countedSymbols s.freq).length
  · exact .inl ⟨hlt, h.slot_leaf hlt⟩
  · rw [← h.start_length, startNodes_length] at hstart
    have hpos := List.length_pos_iff.2 h.counted
    split at hstart
    next hone =>
      have hn1 : n.toNat = 1 := by omega
      exact .inr ⟨hone, hn1 ▸ h.slot_sentinel hone⟩
    next => exact absurd hstart hlt

theorem counted_of_leaf (h : HoldsTree s ns) {n : Idx} (hn : n.toNat < ns.length) (hk : (nodeAt s.nodes n).kind = .leaf)
    {x : Byte} (hx : (nodeAt s.nodes n).sym = x.setWidth 9) : (countedSymbols s.freq)[n.toNat]? = some x := by
  rcases h.leaf_cases hn hk with ⟨hlt, hleaf⟩ | ⟨_, hsent⟩
  · rw [hleaf, leafOf, setWidth_symbol_inj] at hx
    rw [List.getElem?_eq_getElem hlt, hx]
  · rw [hsent] at hx
    exact absurd hx.symm (symbol_ne_sent x)

/-- Exactly the counted symbols have a path (R144 (a)). -/
theorem exists_leafPath_iff (h : HoldsTree s ns) {x : Byte} :
    (∃ p, leafPath s.nodes s.root p x) ↔ x ∈ countedSymbols s.freq := by
  constructor
  · rintro ⟨p, _, n, hn, hk, hx⟩
    exact List.mem_of_getElem? (h.counted_of_leaf (h.follow_lt hn) hk hx)
  · intro hx
    obtain ⟨k, hk, rfl⟩ := List.mem_iff_getElem.1 hx
    have hleaf := h.slot_leaf hk
    have hslot : k < ns.length := by
      refine hk.trans_le (le_trans ?_ h.built.leaves.length_le)
      rw [startNodes, List.length_append, List.length_map]
      exact Nat.le_add_right _ _
    obtain ⟨p, hp⟩ := h.exists_walk (n := BitVec.ofNat 9 k) (by rwa [h.toNat_ofNat_slot hslot])
    refine ⟨p, ?_, _, hp, congrArg Node.kind hleaf, congrArg Node.sym hleaf⟩
    rintro rfl
    have hroot := h.root_internal
    rw [Option.some.inj hp] at hroot
    exact absurd (hroot.symm.trans (congrArg Node.kind hleaf)) NodeKind.noConfusion

theorem leafPath_unique (h : HoldsTree s ns) {x : Byte} {p q : Bits} (hp : leafPath s.nodes s.root p x)
    (hq : leafPath s.nodes s.root q x) : p = q := by
  obtain ⟨_, n, hn, hnk, hnx⟩ := hp
  obtain ⟨_, m, hm, hmk, hmx⟩ := hq
  have hnc := h.counted_of_leaf (h.follow_lt hn) hnk hnx
  have hmc := h.counted_of_leaf (h.follow_lt hm) hmk hmx
  obtain ⟨hlt, _⟩ := List.getElem?_eq_some_iff.1 hnc
  obtain rfl : n = m := BitVec.eq_of_toNat_eq ((List.getElem?_inj hlt (countedSymbols_nodup _)).1 (hnc.trans hmc.symm))
  exact h.walk_unique hn hm

theorem mem_leafPaths_root (h : HoldsTree s ns) {sym : TreeSym} {p : Bits} :
    (sym, p) ∈ leafPaths s.nodes Config.nodeSlots s.root [] ↔
      ∃ n, follow s.nodes s.root p = some n ∧ (nodeAt s.nodes n).kind = .leaf ∧ (nodeAt s.nodes n).sym = sym := by
  rw [mem_leafPaths h.internal_above h.root_lt]
  constructor
  · rintro ⟨r, n, rfl, hn⟩
    exact ⟨n, hn⟩
  · rintro ⟨n, hn⟩
    exact ⟨p, n, rfl, hn⟩

theorem mem_leafPaths_symbol (h : HoldsTree s ns) {x : Byte} {p : Bits} :
    (x.setWidth 9, p) ∈ leafPaths s.nodes Config.nodeSlots s.root [] ↔ leafPath s.nodes s.root p x := by
  rw [h.mem_leafPaths_root, leafPath, and_iff_right_of_imp]
  rintro ⟨n, hn, hk, _⟩ rfl
  rw [← Option.some.inj hn, h.root_internal] at hk
  cases hk

/-- From the root each edge of a path leaves another Internal node (R144 (e)). -/
theorem leafPaths_root_length (h : HoldsTree s ns) {leaf : TreeSym × Bits}
    (hleaf : leaf ∈ leafPaths s.nodes Config.nodeSlots s.root []) : leaf.2.length + 1 ≤ firstInternal s := by
  have hlen := leafPaths_length h.internal_above _ _ _ hleaf
  have := h.root
  have := h.size
  have := h.start_bounds
  rw [List.length_nil] at hlen
  omega

end HoldsTree

end Sys2Proof.Machine
end

section
/-! SUPPORT. The code table (R141 to R145): GEN_CODES completes, what it records for each symbol, and the Kraft sum of the codes. -/

namespace Sys2Proof.Machine

/-- Settles O22: GEN_CODES reads no input and its check 3 is `TREE_VALID`, so it installs the codes of the tree. -/
theorem genCodesInstallsTheCodesOfTheTree : Obligations.GenCodesInstallsTheCodesOfTheTree := fun _ hfatal htree =>
  exec_of_ok (checkCommand_of_no_operand (i := .genCodes) hfatal htree rfl) rfl

/-! ### The recorded codes (R141) -/

/-- The code of symbol `x` in a table, as ENCODE reads it (R150). -/
def CodeTab.code (t : CodeTab) (x : Byte) : Bits := storedCode (tableGet t.len x) (tableGet t.bits x)

theorem codeTab_empty_code (x : Byte) : CodeTab.empty.code x = [] := by
  simp [CodeTab.code, CodeTab.empty, storedCode]

theorem recordCode_code_same (t : CodeTab) (x : Byte) {p : Bits} (hp : p.length ≤ 256) :
    (recordCode t (x.setWidth 9, p)).code x = p := by
  have hx := x.isLt
  have hsym : ((x.setWidth 9 : TreeSym)).toNat < 256 := by
    rw [BitVec.toNat_setWidth]
    omega
  have hback : (x.setWidth 9 : TreeSym).setWidth 8 = x := by simp
  rw [recordCode, if_pos hsym, hback, CodeTab.code, tableGet_set_same, tableGet_set_same, storedCode_leftAligned p hp]

theorem recordCode_code_other (t : CodeTab) {x : Byte} {leaf : TreeSym × Bits} (hx : leaf.1 ≠ x.setWidth 9) :
    (recordCode t leaf).code x = t.code x := by
  unfold recordCode
  split
  next hsym =>
    have hne : x ≠ leaf.1.setWidth 8 := by
      rintro rfl
      refine hx (BitVec.eq_of_toNat_eq ?_)
      rw [BitVec.toNat_setWidth, BitVec.toNat_setWidth]
      omega
    rw [CodeTab.code, tableGet_set_other _ _ hne, tableGet_set_other _ _ hne, CodeTab.code]
  next => rfl

/-- What a table holds for `x` after leaves are recorded in it: the path of one with this symbol, or what it held before. -/
theorem foldl_recordCode_code {leaves : List (TreeSym × Bits)} (hlen : ∀ leaf ∈ leaves, leaf.2.length ≤ 256) (t : CodeTab)
    (x : Byte) :
    (x.setWidth 9, (leaves.foldl recordCode t).code x) ∈ leaves ∨
      ((∀ p, (x.setWidth 9, p) ∉ leaves) ∧ (leaves.foldl recordCode t).code x = t.code x) := by
  induction leaves generalizing t with
  | nil => exact .inr ⟨fun _ => List.not_mem_nil, rfl⟩
  | cons leaf leaves ih =>
    obtain ⟨sym, p⟩ := leaf
    rcases ih (fun l hl => hlen l (List.mem_cons_of_mem _ hl)) (recordCode t (sym, p)) with hlater | ⟨hnone, hkept⟩
    · exact .inl (List.mem_cons_of_mem _ hlater)
    · rw [List.foldl_cons, hkept]
      by_cases hx : sym = x.setWidth 9
      · rw [hx, recordCode_code_same t x (hlen _ List.mem_cons_self)]
        exact .inl List.mem_cons_self
      · refine .inr ⟨fun q hq => ?_, recordCode_code_other t hx⟩
        rcases List.mem_cons.1 hq with heq | hq
        · exact hx (congrArg Prod.fst heq).symm
        · exact hnone q hq

/-- The code of `x` in the table of a built tree: the path to its leaf, or no code without one. -/
theorem HoldsTree.code_cases {s : State} {ns : List Node} (h : HoldsTree s ns) (x : Byte) :
    leafPath s.nodes s.root ((codesOf s.nodes s.root).code x) x ∨
      ((∀ p, ¬ leafPath s.nodes s.root p x) ∧ (codesOf s.nodes s.root).code x = []) := by
  have hroot : s.root ≠ Config.nil := fun hnil => absurd h.root_lt (by rw [hnil]; decide)
  have hlen : ∀ leaf ∈ leafPaths s.nodes Config.nodeSlots s.root [], leaf.2.length ≤ 256 := by
    intro leaf hleaf
    have := h.leafPaths_root_length hleaf
    have := h.start_bounds
    omega
  have hrecorded := foldl_recordCode_code hlen CodeTab.empty x
  rw [codeTab_empty_code] at hrecorded
  rw [codesOf, if_neg hroot]
  simpa only [h.mem_leafPaths_symbol] using hrecorded

/-! ### The statements on a valid code table (R142, R144) -/

theorem code_eq_codesOf {s : State} (hcodes : s.codesCurrent) (hvalid : s.codesValid = true) (x : Byte) :
    s.code x = (codesOf s.nodes s.root).code x := by
  rw [hcodes hvalid]
  rfl

theorem codeLen_ne_zero_iff {s : State} {x : Byte} : tableGet s.codeLen x ≠ 0#9 ↔ s.code x ≠ [] := by
  rw [not_iff_not, ← List.length_eq_zero_iff, code_length, BitVec.toNat_eq]
  rfl

/-- The empty tree has no path to a leaf. -/
theorem not_leafPath_nil (nodes : Vector Node 511) (p : Bits) (x : Byte) : ¬ leafPath nodes Config.nil p x := by
  rintro ⟨hne, n, hn, _⟩
  exact hne (follow_of_leaf (by rw [nodeAt_nil]; rfl) hn)

/-- Settles O23: a symbol has at most one path, and GEN_CODES records it if there is one. -/
theorem codesAreThePathsToTheLeaves : Obligations.CodesAreThePathsToTheLeaves := by
  intro s htree hcodes htv hcv x p hp
  rw [code_eq_codesOf hcodes hcv]
  rcases holdsTree_cases htree htv with ⟨_, _, _, hroot, _⟩ | ⟨ns, h⟩
  · rw [hroot, codesOf, if_pos rfl, codeTab_empty_code]
    exact iff_of_false hp.symm (not_leafPath_nil _ _ _)
  · rcases h.code_cases x with hpath | ⟨hnone, hcode⟩
    · exact ⟨fun heq => heq ▸ hpath, h.leafPath_unique hpath⟩
    · rw [hcode]
      exact iff_of_false hp.symm (hnone p)

section ValidCodes

variable {s : State} (htree : s.treeCurrent) (hcodes : s.codesCurrent) (htv : s.treeValid = true) (hcv : s.codesValid = true)
include htree hcodes htv hcv

theorem leafPath_code {x : Byte} (hx : tableGet s.codeLen x ≠ 0#9) : leafPath s.nodes s.root (s.code x) x :=
  (codesAreThePathsToTheLeaves s htree hcodes htv hcv x _ (codeLen_ne_zero_iff.1 hx)).1 rfl

theorem codeLen_ne_zero_iff_leafPath {x : Byte} : tableGet s.codeLen x ≠ 0#9 ↔ ∃ p, leafPath s.nodes s.root p x := by
  refine ⟨fun hx => ⟨_, leafPath_code htree hcodes htv hcv hx⟩, fun ⟨p, hpath⟩ => codeLen_ne_zero_iff.2 ?_⟩
  have hcode := (codesAreThePathsToTheLeaves s htree hcodes htv hcv x p hpath.1).2 hpath
  exact hcode ▸ hpath.1

theorem codeLen_ne_zero_iff_counted {x : Byte} : tableGet s.codeLen x ≠ 0#9 ↔ x ∈ countedSymbols s.freq := by
  rw [codeLen_ne_zero_iff_leafPath htree hcodes htv hcv]
  rcases holdsTree_cases htree htv with ⟨hnil, _, _, hroot, _⟩ | ⟨ns, h⟩
  · rw [hnil, hroot]
    exact iff_of_false (fun ⟨p, hp⟩ => not_leafPath_nil _ _ _ hp) List.not_mem_nil
  · exact h.exists_leafPath_iff

/-- A code has fewer bits than the tree has leaves. -/
theorem codeLen_lt_firstInternal {x : Byte} (hx : tableGet s.codeLen x ≠ 0#9) {ns : List Node} (h : HoldsTree s ns) :
    (tableGet s.codeLen x).toNat + 1 ≤ firstInternal s := by
  rw [← code_length]
  exact h.leafPaths_root_length (h.mem_leafPaths_symbol.2 (leafPath_code htree hcodes htv hcv hx))

/-- Only the counted symbols weigh in a sum over the symbols with a code. -/
theorem sumOverSymbols_coded (w : Byte → Nat) :
    sumOverSymbols (fun x => if tableGet s.codeLen x = 0#9 then 0 else w x) = ((countedSymbols s.freq).map w).sum := by
  have hcounted {x : Byte} := codeLen_ne_zero_iff_counted htree hcodes htv hcv (x := x)
  rw [sumOverSymbols_eq_sum, ← List.sum_toFinset w (countedSymbols_nodup _), ← Finset.sum_subset (Finset.subset_univ _)]
  · exact Finset.sum_congr rfl fun x hx => if_neg (hcounted.2 (List.mem_toFinset.1 hx))
  · exact fun x _ hx => if_pos (not_not.1 fun hne => hx (List.mem_toFinset.2 (hcounted.1 hne)))

/-- With two symbols or more every leaf is that of a counted symbol, so that the visit of R141 lists just the codes. -/
theorem leafPaths_perm_codes {ns : List Node} (h : HoldsTree s ns) (htwo : (countedSymbols s.freq).length ≠ 1) :
    (leafPaths s.nodes Config.nodeSlots s.root []).Perm
      ((countedSymbols s.freq).map fun x => ((x.setWidth 9 : TreeSym), s.code x)) := by
  refine (List.perm_ext_iff_of_nodup (leafPaths_nodup h.internal_above h.root_lt []) ((countedSymbols_nodup _).map fun x y hxy =>
    setWidth_symbol_inj.1 (congrArg Prod.fst hxy))).2 fun ⟨sym, p⟩ => ?_
  rw [List.mem_map]
  constructor
  · intro hleaf
    obtain ⟨n, hn, hk, hsym⟩ := h.mem_leafPaths_root.1 hleaf
    rcases h.leaf_cases (h.follow_lt hn) hk with ⟨hlt, hnode⟩ | ⟨hone, _⟩
    · rw [hnode, leafOf] at hsym
      subst hsym
      have hpath := h.mem_leafPaths_symbol.1 hleaf
      exact ⟨_, List.getElem_mem hlt, by rw [(codesAreThePathsToTheLeaves s htree hcodes htv hcv _ p hpath.1).2 hpath]⟩
    · exact absurd hone htwo
  · rintro ⟨x, hx, heq⟩
    rw [← heq, h.mem_leafPaths_symbol]
    exact leafPath_code htree hcodes htv hcv ((codeLen_ne_zero_iff_counted htree hcodes htv hcv).2 hx)

end ValidCodes

/-- Settles O24: the symbols with a path are the counted ones, and a tree has at most 256 leaves. -/
theorem countedSymbolsHaveShortCodes : Obligations.CountedSymbolsHaveShortCodes := by
  intro s htree hcodes htv hcv x
  have hcounted := codeLen_ne_zero_iff_counted htree hcodes htv hcv (x := x)
  refine ⟨hcounted.trans mem_countedSymbols, ?_⟩
  by_cases hx : tableGet s.codeLen x = 0#9
  · rw [hx]
    exact Nat.zero_le _
  · rcases holdsTree_cases htree htv with ⟨hnil, _⟩ | ⟨ns, h⟩
    · exact absurd (hcounted.1 hx) (hnil ▸ List.not_mem_nil)
    · have := codeLen_lt_firstInternal htree hcodes htv hcv hx h
      have := h.start_bounds
      omega

/-- Settles O25: codes are paths to leaves, and a leaf ends every path that reaches it. -/
theorem codesArePrefixFree : Obligations.CodesArePrefixFree := fun _ htree hcodes htv hcv _ _ hne hx hy hpre =>
  hne (leafPath_symbol_eq_of_isPrefix (leafPath_code htree hcodes htv hcv hx) (leafPath_code htree hcodes htv hcv hy) hpre)

/-! ### The Kraft sum (R145) -/

/-- Settles O26: with two symbols or more the codes are the paths to all leaves, whose weights add up to the root's; a single
symbol has a code of one bit. -/
theorem kraftSumOfTheCodeTable : Obligations.KraftSumOfTheCodeTable := by
  intro s htree hcodes htv hcv
  rw [sumOverSymbols_coded htree hcodes htv hcv]
  rcases holdsTree_cases htree htv with ⟨hnil, _, hnsym, _⟩ | ⟨ns, h⟩
  · rw [hnil, hnsym]
    rfl
  · have hroot := h.root
    have hsize := h.size
    have hbounds := h.start_bounds
    have hpos := List.length_pos_iff.2 h.counted
    have hzero : s.nsym ≠ 0#9 := fun hz => hpos.ne' (h.nsym ▸ congrArg BitVec.toNat hz)
    rw [if_neg hzero]
    split
    next hone =>
      obtain ⟨x, hx⟩ := List.length_eq_one_iff.1 (h.nsym ▸ congrArg BitVec.toNat hone)
      have hcoded := (codeLen_ne_zero_iff_counted htree hcodes htv hcv).2 (hx ▸ List.mem_singleton_self x)
      have hshort := codeLen_lt_firstInternal htree hcodes htv hcv hcoded h
      rw [firstInternal, if_pos hone] at hshort
      have hne : (tableGet s.codeLen x).toNat ≠ 0 := fun hz => hcoded (BitVec.eq_of_toNat_eq hz)
      have hbit : (tableGet s.codeLen x).toNat = 1 := by omega
      rw [hx, List.map_singleton, List.sum_singleton, hbit]
    next hmany =>
      have htwo : (countedSymbols s.freq).length ≠ 1 := fun hone => hmany (BitVec.eq_of_toNat_eq (h.nsym.trans hone))
      have hperm := (leafPaths_perm_codes htree hcodes htv hcv h htwo).map fun leaf => 2 ^ (255 - leaf.2.length)
      have hkraft := leafPaths_kraft h.internal_above h.root_lt (p := []) (by rw [List.length_nil]; omega)
      rw [hperm.sum_eq, List.map_map] at hkraft
      simpa only [Function.comp_def, code_length, List.length_nil] using hkraft

end Sys2Proof.Machine
end

section
/-! SUPPORT. The output of a codec command (R150, R158, R166, R178), what ENCODE and DECODE leave unchanged, and ENCODE (R150 to
R156): the packed codes, the two data errors and the size of the EncodedBuffer. -/

namespace Sys2Proof.Machine

/-! ### The bytes that a successful codec command stores (R158, R178) -/

@[simp] theorem succeed_outByte (s : State) (a : Nat) : s.succeed.outByte a = s.outByte a := rfl

section Output

variable (s : State) {out : List Byte} {n : Nat} {p : BitVec 3}

/-- The bytes past the output keep their values. -/
theorem installOutput_outByte_above {a : Nat} (h : out.length ≤ a) : (s.installOutput out n p).outByte a = s.outByte a :=
  storeOut_outByte_outside s (.inr (by omega))

theorem installOutput_outByte_below {a : Nat} (h : a < out.length) : (s.installOutput out n p).outByte a = out[a] := by
  have hget := memory_get?_writeBytes_inside s.outMem 0 out h
  rw [Nat.zero_add] at hget
  simp only [State.outByte, State.installOutput_outMem, hget]

/-- From `OUT_MEM[k]` to its end the output reads as it was stored. -/
theorem installOutput_outBytes_from (k : Nat) :
    ((List.range (out.length - k)).map fun j => (s.installOutput out n p).outByte (k + j)) = out.drop k := by
  refine List.ext_getElem (by simp) fun j _ hj => ?_
  rw [List.length_drop] at hj
  rw [List.getElem_map, List.getElem_range, List.getElem_drop, installOutput_outByte_below]

end Output

/-! ### Data errors (R99, R100) -/

/-- A data error of a codec command discards the output and changes nothing else but the completion. -/
theorem exec_of_data_error {i : Instr} {s : State} {r : Raise} (hi : isCodecCommand i = true) (hcheck : checkCommand i s = none)
    (hbody : bodyOf i s = .error r) (hr : r.err.isData = true) :
    exec i s = .next { s with
      outLen := 0#32, totalBits := 0#32, pad := 0#3, outMem := [], outEpoch := s.outEpoch + 1
      seq := .idle, err := true, errCode := r.err.code, errInfo := r.info, draws := s.draws + 1 } := by
  rw [exec_eq_runCommand, runCommand_of_error hcheck hbody, failCommand_of_data s hi hr,
    raiseError_of_fatal_kept fun he => by rw [he] at hr; cases hr]
  rfl

/-- No error has code 0, which stands for success (R33, R186). -/
theorem errorCode_ne_zero (e : HcbError) : e.code ≠ 0#4 := by
  cases e <;> decide

/-- The codes 1, 6 and 7 are those of the checks (R101, R186). -/
theorem errorCode_of_isData {e : HcbError} (h : e.isData = true) : ¬(e.code = 1#4 ∨ e.code = 6#4 ∨ e.code = 7#4) := by
  revert h
  cases e <;> decide

/-- An uncoded byte and a buffer that does not fit are data errors (R155, R186). -/
theorem encodeBody_error_isData {s : State} {r : Raise} (h : encodeBody s = .error r) : r.err.isData = true := by
  unfold encodeBody at h
  cases hf : firstUncoded s.codeLen s.inputBytes 0 with
  | some i =>
    simp only [hf, Except.error.injEq] at h
    exact h ▸ rfl
  | none =>
    simp only [hf] at h
    split at h
    · exact Except.error.inj h ▸ rfl
    · cases h

section Walk

variable {nodes : Vector Node 511} {root : Idx} {capOut : Nat} {r : Raise}

/-- The walk fails with `CorruptStream` or `OutputOverflow` (R169). -/
theorem walkBit_error_isData {bit : Bool} {w : Walk} (h : walkBit nodes root capOut bit w = .error r) :
    r.err.isData = true := by
  unfold walkBit at h
  split at h
  · exact Except.error.inj h ▸ rfl
  · simp only at h
    cases hk : (nodeAt nodes (childOf nodes w.pos bit)).kind with
    | internal => simp [hk] at h
    | leaf =>
      simp only [hk] at h
      split at h
      · exact Except.error.inj h ▸ rfl
      · split at h
        · exact Except.error.inj h ▸ rfl
        · cases h

theorem walkBits_error_isData {bits : Bits} {w : Walk} (h : walkBits nodes root capOut bits w = .error r) :
    r.err.isData = true := by
  induction bits generalizing w with
  | nil => cases h
  | cons bit bits ih =>
    rw [walkBits] at h
    cases hbit : walkBit nodes root capOut bit w with
    | error r' =>
      simp only [hbit, Except.error.injEq] at h
      exact h ▸ walkBit_error_isData hbit
    | ok step =>
      simp only [hbit] at h
      cases hrest : walkBits nodes root capOut bits step.1 with
      | error r' =>
        simp only [hrest, Except.error.injEq] at h
        exact ih (h ▸ hrest)
      | ok _ => simp [hrest] at h

theorem decodeBits_error_isData {bits : Bits} (h : decodeBits nodes root capOut bits = .error r) : r.err.isData = true := by
  unfold decodeBits at h
  cases hwalk : walkBits nodes root capOut bits ⟨root, 0, 0⟩ with
  | error r' =>
    simp only [hwalk, Except.error.injEq] at h
    exact h ▸ walkBits_error_isData hwalk
  | ok last =>
    simp only [hwalk] at h
    split at h
    · exact Except.error.inj h ▸ rfl
    · cases h

end Walk

theorem decodeBody_error_isData {s : State} {r : Raise} (h : decodeBody s = .error r) : r.err.isData = true := by
  unfold decodeBody at h
  cases hin : s.inputBytes with
  | nil =>
    simp only [hin, Except.error.injEq] at h
    exact h ▸ rfl
  | cons p payload =>
    simp only [hin] at h
    split at h
    · exact Except.error.inj h ▸ rfl
    · cases hbits : decodeBits s.nodes s.root s.capOut (trimmedBits payload p.toNat) with
      | error r' =>
        simp only [hbits, Except.error.injEq] at h
        exact h ▸ decodeBits_error_isData hbits
      | ok _ => simp [hbits] at h

/-- The pseudocode of ENCODE and DECODE raises data errors only (R150, R166, R186). -/
theorem bodyOf_error_isData {i : Instr} {s : State} {r : Raise} (hi : isCodecCommand i = true)
    (h : bodyOf i s = .error r) : r.err.isData = true := by
  cases i with
  | encode => exact encodeBody_error_isData h
  | decode => exact decodeBody_error_isData h
  | nop | freqCount | buildTree | genCodes | clear => cases hi

/-! ### The frame of ENCODE and DECODE -/

/-- `ERR_CODE = 0` after a command means that its pseudocode ran to the end (R98). -/
theorem bodyOf_eq_ok_of_errCode_zero {i : Instr} {s t : State} (h : exec i s = .next t) (hcode : t.errCode = 0#4) :
    ∃ u, bodyOf i s = .ok u ∧ t = u.succeed := by
  rw [exec_eq_runCommand, Host.Outcome.next.injEq] at h
  rcases runCommand_cases i (bodyOf i) s with ⟨r, _, hrun⟩ | ⟨u, _, hbody, hrun⟩ | ⟨r, _, _, hrun⟩
  · rw [← h, hrun] at hcode
    exact absurd hcode (errorCode_ne_zero r.err)
  · exact ⟨u, hbody, h.symm.trans hrun⟩
  · rw [← h, hrun] at hcode
    rcases failCommand_cases i r s with hfail | ⟨_, _, hfail⟩ <;> rw [hfail] at hcode <;>
      exact absurd hcode (errorCode_ne_zero r.err)

/-- `t` differs from `s` only in what a completion writes, in `OUT_MEM` and the results, and in the walk state. -/
def onlyOutputChanged (s t : State) : Prop :=
  t = { s with
    outMem := t.outMem, outEpoch := t.outEpoch, outLen := t.outLen, totalBits := t.totalBits, pad := t.pad, walk := t.walk
    seq := t.seq, done := t.done, err := t.err, errCode := t.errCode, errInfo := t.errInfo, draws := t.draws }

theorem onlyOutputChanged.frame {s t : State} (h : onlyOutputChanged s t) :
    (∀ a, t.inByte a = s.inByte a) ∧ sameHostSide s t ∧ sameTree s t ∧ sameCodes s t ∧ sameValid s t ∧ t.freq = s.freq ∧
      t.pq = s.pq := by
  rw [h]
  exact ⟨fun _ => rfl, ⟨rfl, rfl, rfl, rfl, rfl, rfl, rfl, rfl, rfl, rfl⟩, ⟨rfl, rfl, rfl, rfl⟩, ⟨rfl, rfl⟩, ⟨rfl, rfl⟩, rfl,
    rfl⟩

/-- A codec command that raises nothing installs an output. -/
theorem onlyOutputChanged_of_ok {i : Instr} {s u : State} (hi : isCodecCommand i = true) (h : bodyOf i s = .ok u) :
    onlyOutputChanged s u.succeed := by
  cases i with
  | encode =>
    obtain ⟨_, _, rfl⟩ := encodeBody_eq_ok h
    rfl
  | decode =>
    obtain ⟨_, _, _, _, _, _, _, rfl⟩ := decodeBody_eq_ok h
    rfl
  | nop | freqCount | buildTree | genCodes | clear => cases hi

/-- Whatever way it completes, a codec command changes its output at most; a code of the checks says that it wrote none. -/
theorem codec_exec_frame {i : Instr} {s t : State} (hi : isCodecCommand i = true) (h : exec i s = .next t) :
    onlyOutputChanged s t ∧ (t.errCode = 1#4 ∨ t.errCode = 6#4 ∨ t.errCode = 7#4 → onlyCompletionChanged s t) := by
  cases hcheck : checkCommand i s with
  | some r =>
    obtain rfl := Host.Outcome.next.inj ((exec_of_failed_check hcheck).symm.trans h)
    exact ⟨rfl, fun _ => rfl⟩
  | none =>
    cases hbody : bodyOf i s with
    | ok u =>
      obtain rfl := Host.Outcome.next.inj ((exec_of_ok hcheck hbody).symm.trans h)
      exact ⟨onlyOutputChanged_of_ok hi hbody, fun hcode => absurd hcode (by rw [State.succeed_errCode]; decide)⟩
    | error r =>
      have hr := bodyOf_error_isData hi hbody
      obtain rfl := Host.Outcome.next.inj ((exec_of_data_error hi hcheck hbody hr).symm.trans h)
      exact ⟨rfl, fun hcode => absurd hcode (errorCode_of_isData hr)⟩

/-- Settles O38: a codec command changes its output at most, by no failed check, and a success stores just the EncodedBuffer or
the decoded bytes. -/
theorem codecCommandsFrame : Obligations.CodecCommandsFrame := by
  intro i s t hi h
  have hcodec : isCodecCommand i = true := by rcases hi with rfl | rfl <;> rfl
  obtain ⟨houtput, hcheck⟩ := codec_exec_frame hcodec h
  obtain ⟨hin, hhost, htree, hcodes, hvalid, hfreq, hpq⟩ := houtput.frame
  refine ⟨hin, hhost, htree, hcodes, hvalid, hfreq, hpq, fun hcode => ?_, ?_, ?_⟩
  · obtain ⟨hmem, _, _, _, hresults, _⟩ := (hcheck hcode).frame
    exact ⟨hmem, hresults⟩
  · rintro rfl hcode a ha
    obtain ⟨_, hbody, rfl⟩ := bodyOf_eq_ok_of_errCode_zero h hcode
    obtain ⟨_, _, rfl⟩ := encodeBody_eq_ok hbody
    rw [succeed_outByte, installOutput_outByte_above s (encodedBuffer_length s _ ▸ ha)]
  · rintro rfl hcode p payload out hinput hout a ha
    obtain ⟨_, hbody, rfl⟩ := bodyOf_eq_ok_of_errCode_zero h hcode
    obtain ⟨p', payload', out', hinput', _, _, hout', rfl⟩ := decodeBody_eq_ok hbody
    obtain ⟨rfl, rfl⟩ := List.cons.inj (hinput.symm.trans hinput')
    obtain rfl := Except.ok.inj (hout.symm.trans hout')
    rw [succeed_outByte, installOutput_outByte_above s ha]

/-! ### ENCODE (R150 to R155) -/

section Encode

variable {s : State} (hfatal : s.fatal = false) (hcodes : s.codesValid = true) (hlen : s.inLen.toNat ≤ s.capIn)

/-- An input whose bytes all have a code passes the scan of R155. -/
theorem firstUncoded_of_coded (hcoded : ∀ j < s.inLen.toNat, tableGet s.codeLen (s.coreByte j) ≠ 0#9) :
    firstUncoded s.codeLen s.inputBytes 0 = none :=
  firstUncoded_eq_none.2 fun x hx => by
    obtain ⟨j, hj, rfl⟩ := mem_inputBytes.1 hx
    exact hcoded j hj

/-- The scan of R155 ends at the lowest index whose byte has no code. -/
theorem firstUncoded_of_uncoded {i : Nat} (hi : i < s.inLen.toNat) (huncoded : tableGet s.codeLen (s.coreByte i) = 0#9)
    (hcoded : ∀ j < i, tableGet s.codeLen (s.coreByte j) ≠ 0#9) : firstUncoded s.codeLen s.inputBytes 0 = some i := by
  have hget {j : Nat} (hj : j < s.inputBytes.length) : s.inputBytes[j] = s.coreByte j := by
    simp only [State.inputBytes, List.getElem_map, List.getElem_range]
  refine firstUncoded_eq_some.2 ⟨i, inputBytes_length s ▸ hi, (Nat.zero_add i).symm, ?_, fun j hj => ?_⟩
  · rwa [hget]
  · rw [hget]
    exact hcoded j hj

include hfatal hcodes hlen

theorem checkCommand_encode : checkCommand .encode s = none :=
  checkCommand_eq_none.2 ⟨hfatal, hcodes, fun _ => hlen⟩

/-- The lowest uncoded byte ends ENCODE with `SymbolNotInTable` (R155). -/
theorem exec_encode_of_uncoded {i : Nat} (hscan : firstUncoded s.codeLen s.inputBytes 0 = some i) :
    exec .encode s = .next { s with
      outLen := 0#32, totalBits := 0#32, pad := 0#3, outMem := [], outEpoch := s.outEpoch + 1
      seq := .idle, err := true, errCode := 9#4, errInfo := BitVec.ofNat 32 i, draws := s.draws + 1 } := by
  have hbody : encodeBody s = .error ⟨.symbolNotInTable, BitVec.ofNat 32 i⟩ := by simp only [encodeBody, hscan]
  exact exec_of_data_error rfl (checkCommand_encode hfatal hcodes hlen) hbody rfl

/-- With every byte coded, a buffer that does not fit ends ENCODE with `OutputOverflow` (R151). -/
theorem exec_encode_of_oversize (hscan : firstUncoded s.codeLen s.inputBytes 0 = none)
    (hsize : s.capOut < encodedSize (codeBitCount s.codeLen s.inputBytes)) :
    exec .encode s = .next { s with
      outLen := 0#32, totalBits := 0#32, pad := 0#3, outMem := [], outEpoch := s.outEpoch + 1
      seq := .idle, err := true, errCode := 8#4
      errInfo := BitVec.ofNat 32 (encodedSize (codeBitCount s.codeLen s.inputBytes)), draws := s.draws + 1 } := by
  have hbody : encodeBody s = .error ⟨.outputOverflow, BitVec.ofNat 32 (encodedSize (codeBitCount s.codeLen s.inputBytes))⟩ := by
    simp only [encodeBody, hscan, if_pos hsize]
  exact exec_of_data_error rfl (checkCommand_encode hfatal hcodes hlen) hbody rfl

/-- ENCODE of coded bytes that fit installs the EncodedBuffer (R98, R150). -/
theorem exec_encode (hcoded : ∀ x ∈ s.inputBytes, tableGet s.codeLen x ≠ 0#9)
    (hsize : encodedSize (codeBitCount s.codeLen s.inputBytes) ≤ s.capOut) :
    exec .encode s = .next (s.installOutput (encodedBuffer s s.inputBytes) (codeBitCount s.codeLen s.inputBytes)
      (BitVec.ofNat 3 (paddingOf (codeBitCount s.codeLen s.inputBytes)))).succeed :=
  exec_of_ok (checkCommand_encode hfatal hcodes hlen) (by
    simp only [bodyOf, encodeBody, firstUncoded_eq_none.2 hcoded, if_neg (Nat.not_lt.2 hsize)])

end Encode

/-- The payload of the EncodedBuffer unpacks to the codes in order and the padding (R152, R153). -/
theorem unpackBits_encodedBuffer_payload (s : State) (input : List Byte) :
    unpackBits ((encodedBuffer s input).drop 1) =
      input.flatMap s.code ++ List.replicate (paddingOf (codeBitCount s.codeLen input)) false :=
  unpackBits_packBits (codeStream s input _) (by rw [codeStream_length, add_paddingOf_mod])

/-- Settles O28: the EncodedBuffer is the header, then the packed codes and padding. -/
theorem encodeWritesThePackedCodes : Obligations.EncodeWritesThePackedCodes := by
  intro s hfatal hcodes hlen hcoded hsize
  have hbuffer := encodedBuffer_length s s.inputBytes
  refine ⟨_, exec_encode hfatal hcodes hlen hcoded hsize, rfl, rfl, rfl, rfl, congrArg (BitVec.ofNat 32) hbuffer, rfl, rfl, ?_,
    ?_, fun a ha => ?_⟩
  · exact (succeed_outByte _ 0).trans (installOutput_outByte_below s (Nat.succ_pos _))
  · simp only [succeed_outByte]
    rw [← hbuffer, installOutput_outBytes_from, unpackBits_encodedBuffer_payload]
  · rw [succeed_outByte, installOutput_outByte_above s (hbuffer ▸ ha)]

/-- Settles O29: the scan for uncoded bytes comes first and the size check second; both raise data errors. -/
theorem encodeReportsUncodedBytesThenOverflow : Obligations.EncodeReportsUncodedBytesThenOverflow := by
  intro s hfatal hcodes hlen
  exact ⟨fun i hi huncoded hbefore =>
      exec_encode_of_uncoded hfatal hcodes hlen (firstUncoded_of_uncoded hi huncoded hbefore),
    fun hcoded hsize => exec_encode_of_oversize hfatal hcodes hlen (firstUncoded_of_coded hcoded) hsize⟩

/-! ### The size of the EncodedBuffer (R156) -/

/-- The payload is whole bytes: the code bits and the padding. -/
theorem encodedSize_payload (t : Nat) : 8 * (encodedSize t - 1) = t + paddingOf t := by
  have := add_paddingOf_mod t
  unfold encodedSize
  omega

/-- The code bits of an input, summed symbol by symbol. -/
theorem codeBitCount_eq_sumOverSymbols (codeLen : Vector (BitVec 9) 256) (input : List Byte) :
    codeBitCount codeLen input = sumOverSymbols fun x => input.count x * (tableGet codeLen x).toNat := by
  rw [codeBitCount, Finset.sum_list_map_count, sumOverSymbols_eq_sum]
  refine Finset.sum_subset (Finset.subset_univ _) fun x _ hx => ?_
  rw [List.count_eq_zero.2 fun hmem => hx (List.mem_toFinset.2 hmem), zero_smul]

/-- Settles O30: the three results are small enough for their registers, so they hold the sizes themselves. -/
theorem encodedSizeMatchesTheCodeLengths : Obligations.EncodedSizeMatchesTheCodeLengths := by
  rintro s ⟨_, hout⟩ hfatal hcodes hlen hcoded hsize
  obtain ⟨_, _, hmax⟩ := legalMemBytes_iff.1 hout
  refine ⟨_, exec_encode hfatal hcodes hlen hcoded hsize, ?_⟩
  rw [← codeBitCount_eq_sumOverSymbols]
  have hpayload := encodedSize_payload (codeBitCount s.codeLen s.inputBytes)
  have hpad := paddingOf_lt (codeBitCount s.codeLen s.inputBytes)
  simp only [State.succeed_outLen, State.succeed_pad, State.succeed_totalBits, State.installOutput_outLen,
    State.installOutput_pad, State.installOutput_totalBits, encodedBuffer_length, BitVec.toNat_ofNat]
  omega

end Sys2Proof.Machine
end

section
/-! SUPPORT. DECODE (R165 to R178): the walk over paths to leaves, the header, the decoded bytes, the data errors, and decoding of
an EncodedBuffer. -/

namespace Sys2Proof.Machine

/-! ### The walk along a path (R166, R169) -/

section PathWalk

variable {nodes : Vector Node 511} {root : Idx} {capOut : Nat}

theorem root_ne_nil_of_leafPath {q : Bits} {x : Byte} (h : leafPath nodes root q x) : root ≠ Config.nil := by
  rintro rfl
  exact not_leafPath_nil _ _ _ h

/-- On the empty tree the first bit ends the walk (R174). -/
theorem walkBits_cons_of_root_nil (hroot : root = Config.nil) (b : Bool) (bits : Bits) (w : Walk) :
    walkBits nodes root capOut (b :: bits) w = .error ⟨.corruptStream, BitVec.ofNat 32 w.k⟩ := by
  simp only [walkBits, walkBit, if_pos hroot]

/-- A bit that leads to an Internal node moves the walk there and emits nothing. -/
theorem walkBits_cons_of_internal (hroot : root ≠ Config.nil) {b : Bool} {w : Walk}
    (hk : (nodeAt nodes (childOf nodes w.pos b)).kind = .internal) (bits : Bits) :
    walkBits nodes root capOut (b :: bits) w = walkBits nodes root capOut bits ⟨childOf nodes w.pos b, w.k + 1, w.o⟩ := by
  simp only [walkBits, walkBit, if_neg hroot, hk]
  cases walkBits nodes root capOut bits ⟨childOf nodes w.pos b, w.k + 1, w.o⟩ <;> rfl

/-- What the walk answers when the bit at cursor `k` reaches leaf `n` after `o` symbols (R169, R171, R172). -/
def leafOutcome (nodes : Vector Node 511) (root : Idx) (capOut : Nat) (n : Idx) (k o : Nat) : Except Raise (Walk × List Byte) :=
  if (nodeAt nodes n).sym = Config.sent then .error ⟨.corruptStream, BitVec.ofNat 32 k⟩
  else if o = capOut then .error ⟨.outputOverflow, BitVec.ofNat 32 k⟩
  else .ok (⟨root, k + 1, o + 1⟩, [(nodeAt nodes n).sym.setWidth 8])

theorem walkBits_singleton_of_leaf (hroot : root ≠ Config.nil) {b : Bool} {w : Walk}
    (hk : (nodeAt nodes (childOf nodes w.pos b)).kind = .leaf) :
    walkBits nodes root capOut [b] w = leafOutcome nodes root capOut (childOf nodes w.pos b) w.k w.o := by
  simp only [walkBits, walkBit, leafOutcome, if_neg hroot, hk]
  by_cases hsent : (nodeAt nodes (childOf nodes w.pos b)).sym = Config.sent
  · simp only [if_pos hsent]
  · by_cases hfull : w.o = capOut
    · simp only [if_neg hsent, if_pos hfull]
    · simp only [if_neg hsent, if_neg hfull, Option.toList_some, List.append_nil]

/-- A path to an Internal node moves the walk there and emits nothing. -/
theorem walkBits_of_follow_internal (hroot : root ≠ Config.nil) {q : Bits} {m n : Idx} (hq : follow nodes m q = some n)
    (hn : (nodeAt nodes n).kind = .internal) (k o : Nat) :
    walkBits nodes root capOut q ⟨m, k, o⟩ = .ok (⟨n, k + q.length, o⟩, []) := by
  induction q generalizing m k with
  | nil =>
    obtain rfl := Option.some.inj hq
    rfl
  | cons b q ih =>
    obtain ⟨_, hrest⟩ := follow_cons_eq_some.1 hq
    have hchild : (nodeAt nodes (childOf nodes m b)).kind = .internal := by
      cases q with
      | nil => rwa [Option.some.inj hrest]
      | cons c q => exact (follow_cons_eq_some.1 hrest).1
    rw [walkBits_cons_of_internal hroot hchild, ih hrest, List.length_cons, Nat.add_assoc, Nat.add_comm 1]

/-- A path to a leaf takes the walk to the leaf's outcome at the cursor of the path's last bit. -/
theorem walkBits_of_follow_leaf (hroot : root ≠ Config.nil) {q : Bits} {m n : Idx} (hne : q ≠ [])
    (hq : follow nodes m q = some n) (hn : (nodeAt nodes n).kind = .leaf) {k c : Nat} (hc : c + 1 = k + q.length) (o : Nat) :
    walkBits nodes root capOut q ⟨m, k, o⟩ = leafOutcome nodes root capOut n c o := by
  rcases List.eq_nil_or_concat q with rfl | ⟨p, b, rfl⟩
  · exact absurd rfl hne
  · rw [List.concat_eq_append] at hq hc ⊢
    rw [List.length_append, List.length_singleton] at hc
    obtain ⟨m', hp, hk, rfl⟩ := follow_concat_eq_some.1 hq
    obtain rfl : c = k + p.length := by omega
    rw [walkBits_append, walkBits_of_follow_internal hroot hp hk]
    simp only [walkBits_singleton_of_leaf (w := ⟨m', k + p.length, o⟩) hroot hn, List.nil_append]
    cases leafOutcome nodes root capOut (childOf nodes m' b) (k + p.length) o <;> rfl

/-- The walk on a path to a real leaf: it emits the symbol and goes back to the root, if the symbol still fits (R171). -/
theorem walkBits_of_leafPath {q : Bits} {x : Byte} (h : leafPath nodes root q x) {k c : Nat} (hc : c + 1 = k + q.length)
    (o : Nat) :
    walkBits nodes root capOut q ⟨root, k, o⟩ =
      if o = capOut then .error ⟨.outputOverflow, BitVec.ofNat 32 c⟩ else .ok (⟨root, c + 1, o + 1⟩, [x]) := by
  have hroot := root_ne_nil_of_leafPath h
  obtain ⟨hne, n, hq, hk, hx⟩ := h
  have hback : (x.setWidth 9 : TreeSym).setWidth 8 = x := by simp
  rw [walkBits_of_follow_leaf hroot hne hq hk hc, leafOutcome, hx, if_neg (symbol_ne_sent x), hback]

/-- Paths to real leaves whose symbols fit: the walk emits the symbols and is back at the root (R166). -/
theorem walkBits_of_leafPaths {parts : List (Bits × Byte)} (h : ∀ c ∈ parts, leafPath nodes root c.1 c.2) (k : Nat) {o : Nat}
    (hfits : o + parts.length ≤ capOut) :
    walkBits nodes root capOut (parts.flatMap Prod.fst) ⟨root, k, o⟩ =
      .ok (⟨root, k + (parts.flatMap Prod.fst).length, o + parts.length⟩, parts.map Prod.snd) := by
  induction parts generalizing k o with
  | nil => rfl
  | cons c parts ih =>
    obtain ⟨hc, hparts⟩ := List.forall_mem_cons.1 h
    rw [List.length_cons] at hfits
    have hpos := List.length_pos_iff.2 hc.1
    have hlast : k + c.1.length - 1 + 1 = k + c.1.length := by omega
    rw [List.flatMap_cons, walkBits_append, walkBits_of_leafPath hc hlast, if_neg (by omega)]
    simp only [ih hparts _ (show o + 1 + parts.length ≤ capOut by omega), hlast, List.length_append, List.length_cons,
      List.map_cons, List.singleton_append, Nat.add_assoc, Nat.add_comm 1]

/-- An error on the bits after the paths ends the whole walk. -/
theorem decodeBits_of_leafPaths_error {parts : List (Bits × Byte)} (h : ∀ c ∈ parts, leafPath nodes root c.1 c.2)
    (hfits : parts.length ≤ capOut) {q : Bits} {r : Raise}
    (hq : walkBits nodes root capOut q ⟨root, (parts.flatMap Prod.fst).length, parts.length⟩ = .error r) (rest : Bits) :
    decodeBits nodes root capOut (parts.flatMap Prod.fst ++ q ++ rest) = .error r := by
  rw [decodeBits, List.append_assoc, walkBits_append, walkBits_of_leafPaths h 0 (by rwa [Nat.zero_add])]
  simp only [Nat.zero_add, walkBits_append nodes root capOut q, hq]

/-- Paths to real leaves and nothing else decode to their symbols (R166, R175). -/
theorem decodeBits_of_leafPaths {parts : List (Bits × Byte)} (h : ∀ c ∈ parts, leafPath nodes root c.1 c.2)
    (hfits : parts.length ≤ capOut) : decodeBits nodes root capOut (parts.flatMap Prod.fst) = .ok (parts.map Prod.snd) := by
  rw [decodeBits, walkBits_of_leafPaths h 0 (by rwa [Nat.zero_add])]
  exact if_neg (not_not.2 rfl)

/-- Bits that end at an Internal node below the root are no sequence of codes (R173). -/
theorem decodeBits_of_end_inside_code {parts : List (Bits × Byte)} (h : ∀ c ∈ parts, leafPath nodes root c.1 c.2)
    (hfits : parts.length ≤ capOut) (hroot : root ≠ Config.nil) {q : Bits} {n : Idx} (hq : follow nodes root q = some n)
    (hk : (nodeAt nodes n).kind = .internal) (hn : n ≠ root) :
    decodeBits nodes root capOut (parts.flatMap Prod.fst ++ q) =
      .error ⟨.corruptStream, BitVec.ofNat 32 (parts.flatMap Prod.fst ++ q).length⟩ := by
  rw [decodeBits, walkBits_append, walkBits_of_leafPaths h 0 (by rwa [Nat.zero_add])]
  simp only [walkBits_of_follow_internal hroot hq hk]
  exact if_pos hn

/-- Only the empty sequence consists of paths of the empty tree. -/
theorem leafPaths_eq_nil_of_root_nil {parts : List (Bits × Byte)} (h : ∀ c ∈ parts, leafPath nodes root c.1 c.2)
    (hroot : root = Config.nil) : parts = [] :=
  List.eq_nil_iff_forall_not_mem.2 fun c hc => root_ne_nil_of_leafPath (h c hc) hroot

end PathWalk

/-! ### The header (R170) -/

theorem inputBytes_eq_nil {s : State} (h : s.inLen = 0#32) : s.inputBytes = [] := by
  rw [State.inputBytes, h]
  rfl

/-- A nonempty input is its first byte and a payload of the other bytes (R166). -/
theorem inputBytes_eq_cons {s : State} (h : s.inLen ≠ 0#32) :
    ∃ payload, s.inputBytes = s.coreByte 0 :: payload ∧ payload.length = s.inLen.toNat - 1 := by
  have hpos : s.inLen.toNat ≠ 0 := fun hz => h (BitVec.eq_of_toNat_eq hz)
  obtain ⟨n, hn⟩ := Nat.exists_eq_succ_of_ne_zero hpos
  refine ⟨(List.range n).map fun a => s.coreByte (a + 1), ?_, by rw [List.length_map, List.length_range, hn, Nat.succ_sub_one]⟩
  rw [State.inputBytes, hn, List.range_succ_eq_map, List.map_cons, List.map_map]
  rfl

section Decode

variable {s : State}

theorem checkCommand_decode (hfatal : s.fatal = false) (htree : s.treeValid = true) (hlen : s.inLen.toNat ≤ s.capIn) :
    checkCommand .decode s = none :=
  checkCommand_eq_none.2 ⟨hfatal, htree, fun _ => hlen⟩

theorem decodeBody_of_empty_input (h : s.inputBytes = []) : decodeBody s = .error ⟨.malformedHeader, 0#32⟩ := by
  simp only [decodeBody, h]

variable {p : Byte} {payload : List Byte} (hin : s.inputBytes = p :: payload)
include hin

theorem decodeBody_of_bad_header (h : 7 < p.toNat ∨ 8 * payload.length < p.toNat) :
    decodeBody s = .error ⟨.invalidPadding, p.setWidth 32⟩ := by
  simp only [decodeBody, hin, if_pos h]

variable (hmax : p.toNat ≤ 7) (hbits : p.toNat ≤ 8 * payload.length)
include hmax hbits

theorem decodeBody_of_decoded {out : List Byte}
    (h : decodeBits s.nodes s.root s.capOut (trimmedBits payload p.toNat) = .ok out) :
    decodeBody s = .ok (s.installOutput out (8 * payload.length - p.toNat) (p.setWidth 3)) := by
  simp only [decodeBody, hin, if_neg (not_or.2 ⟨Nat.not_lt.2 hmax, Nat.not_lt.2 hbits⟩), h]

theorem decodeBody_of_undecodable {r : Raise}
    (h : decodeBits s.nodes s.root s.capOut (trimmedBits payload p.toNat) = .error r) : decodeBody s = .error r := by
  simp only [decodeBody, hin, if_neg (not_or.2 ⟨Nat.not_lt.2 hmax, Nat.not_lt.2 hbits⟩), h]

end Decode

theorem trimmedBits_length (payload : List Byte) (p : Nat) : (trimmedBits payload p).length = 8 * payload.length - p := by
  rw [trimmedBits, List.length_take, unpackBits_length, Nat.min_eq_left (Nat.sub_le _ _)]

/-! ### The statements on DECODE -/

/-- Settles O31: the header is checked before any bit is read, and both errors are data errors. -/
theorem decodeChecksTheHeader : Obligations.DecodeChecksTheHeader := by
  intro s hfatal htree hlen
  have hcheck := checkCommand_decode hfatal htree hlen
  refine ⟨fun hzero => ?_, fun hne hbad => ?_⟩
  · exact exec_of_data_error rfl hcheck (decodeBody_of_empty_input (inputBytes_eq_nil hzero)) rfl
  · obtain ⟨payload, hin, hpayload⟩ := inputBytes_eq_cons hne
    exact exec_of_data_error rfl hcheck (decodeBody_of_bad_header hin (hpayload ▸ hbad)) rfl

/-- Settles O32: each path takes the walk from the root to its leaf and back, and the symbols are installed as the output. -/
theorem decodeEmitsTheSymbolsOfThePaths : Obligations.DecodeEmitsTheSymbolsOfThePaths := by
  intro s p payload parts hfatal htree hlen hin hmax hbits hparts hpaths hfits
  have hdecoded : decodeBits s.nodes s.root s.capOut (trimmedBits payload p.toNat) = .ok (parts.map Prod.snd) := by
    rw [trimmedBits, hparts]
    exact decodeBits_of_leafPaths hpaths hfits
  have hout : (parts.map Prod.snd).length = parts.length := List.length_map _
  refine ⟨_, exec_of_ok (checkCommand_decode hfatal htree hlen) (decodeBody_of_decoded hin hmax hbits hdecoded), rfl, rfl, rfl,
    rfl, congrArg (BitVec.ofNat 32) hout, rfl, rfl, fun i hi => ?_, fun a ha => ?_⟩
  · rw [succeed_outByte, installOutput_outByte_below s (hout.symm ▸ hi), List.getElem_map]
  · rw [succeed_outByte, installOutput_outByte_above s (hout.symm ▸ ha)]

/-- Settles O33: after the paths the walk stands at the root, and each of the three ways on ends in `CorruptStream`. -/
theorem decodeReportsCorruptStreams : Obligations.DecodeReportsCorruptStreams := by
  intro s p payload parts q rest n k hfatal htree hlen hin hmax hbits htrim hpaths hfits hne hcase
  have hcorrupt : decodeBits s.nodes s.root s.capOut (trimmedBits payload p.toNat) =
      .error ⟨.corruptStream, BitVec.ofNat 32 k⟩ := by
    have hnbits := trimmedBits_length payload p.toNat
    rw [trimmedBits, htrim] at hnbits ⊢
    rcases hcase with ⟨hroot, hq, hk, hsent, hlast⟩ | ⟨hroot, hq, hk, hn, rfl, rfl⟩ | ⟨hroot, rfl⟩
    · refine decodeBits_of_leafPaths_error hpaths hfits ?_ rest
      exact (walkBits_of_follow_leaf hroot hne hq hk (List.length_append ▸ hlast) _).trans (if_pos hsent)
    · rw [← hnbits, List.append_nil]
      exact decodeBits_of_end_inside_code hpaths hfits hroot hq hk hn
    · obtain ⟨b, q, rfl⟩ := List.exists_cons_of_ne_nil hne
      refine decodeBits_of_leafPaths_error hpaths hfits ?_ rest
      rw [walkBits_cons_of_root_nil hroot, leafPaths_eq_nil_of_root_nil hpaths hroot]
      rfl
  exact exec_of_data_error rfl (checkCommand_decode hfatal htree hlen) (decodeBody_of_undecodable hin hmax hbits hcorrupt) rfl

/-- Settles O34: a full OUT_MEM is noticed at the next real leaf, before any later bit. -/
theorem decodeReportsOutputOverflow : Obligations.DecodeReportsOutputOverflow := by
  intro s p payload parts q rest x k hfatal htree hlen hin hmax hbits htrim hpaths hfull hq hlast
  have hoverflow : decodeBits s.nodes s.root s.capOut (trimmedBits payload p.toNat) =
      .error ⟨.outputOverflow, BitVec.ofNat 32 k⟩ := by
    rw [trimmedBits, htrim]
    refine decodeBits_of_leafPaths_error hpaths hfull.le ?_ rest
    rw [walkBits_of_leafPath hq (List.length_append ▸ hlast), if_pos hfull]
  exact exec_of_data_error rfl (checkCommand_decode hfatal htree hlen) (decodeBody_of_undecodable hin hmax hbits hoverflow) rfl

/-! ### Decoding an EncodedBuffer (R176) -/

/-- The input bytes, each with its code. -/
def codedParts (s : State) : List (Bits × Byte) := s.inputBytes.map fun x => (s.code x, x)

theorem codedParts_length (s : State) : (codedParts s).length = s.inLen.toNat := by
  rw [codedParts, List.length_map, inputBytes_length]

theorem codedParts_flatMap_fst (s : State) : (codedParts s).flatMap Prod.fst = s.inputBytes.flatMap s.code :=
  List.flatMap_map (fun x => (s.code x, x)) Prod.fst _

theorem codedParts_getElem_snd (s : State) {a : Nat} (ha : a < (codedParts s).length) : (codedParts s)[a].2 = s.coreByte a := by
  simp only [codedParts, State.inputBytes, List.getElem_map, List.getElem_range]

section CountedInput

variable {s : State} (hok : s.structuresOk) (hcv : s.codesValid = true)
  (hcounted : ∀ x ∈ s.inputBytes, tableGet s.freq x ≠ 0#32)
include hok hcv hcounted

/-- Every byte of a counted input has a code (R144 (a)). -/
theorem coded_of_counted : ∀ x ∈ s.inputBytes, tableGet s.codeLen x ≠ 0#9 := by
  obtain ⟨_, htree, hcodes, hvalid⟩ := hok
  exact fun x hx => (countedSymbolsHaveShortCodes s htree hcodes (hvalid hcv) hcv x).1.2 (hcounted x hx)

/-- The codes of a counted input are paths to the leaves of its bytes (R142). -/
theorem codedParts_leafPath : ∀ c ∈ codedParts s, leafPath s.nodes s.root c.1 c.2 := by
  have hcoded := coded_of_counted hok hcv hcounted
  obtain ⟨_, htree, hcodes, hvalid⟩ := hok
  intro c hc
  obtain ⟨x, hx, rfl⟩ := List.mem_map.1 hc
  exact leafPath_code htree hcodes (hvalid hcv) hcv (hcoded x hx)

end CountedInput

/-- A state that holds the output of `t` as its input reads `t`'s output bytes. -/
theorem inputBytes_eq_outputBytes {t u : State} (hlen : u.inLen = t.outLen)
    (hbytes : ∀ a < u.inLen.toNat, u.coreByte a = t.outByte a) : u.inputBytes = t.outputBytes := by
  rw [State.inputBytes, State.outputBytes, ← hlen]
  exact List.map_congr_left fun a ha => hbytes a (List.mem_range.1 ha)

/-- An output that `OUT_LEN` can count reads as it was stored. -/
theorem installOutput_outputBytes (s : State) {out : List Byte} {n : Nat} {p : BitVec 3} (h : out.length < 2 ^ 32) :
    (s.installOutput out n p).succeed.outputBytes = out := by
  have hlen : (BitVec.ofNat 32 out.length).toNat = out.length := Nat.mod_eq_of_lt h
  have hread := installOutput_outBytes_from s (out := out) (n := n) (p := p) 0
  simp only [Nat.sub_zero, Nat.zero_add, List.drop_zero] at hread
  rw [State.outputBytes, State.succeed_outLen, State.installOutput_outLen, hlen]
  exact hread

/-- The payload of an EncodedBuffer has room for its padding, and trimmed of it holds the codes (R150, R168). -/
theorem encodedBuffer_trim (s : State) (input : List Byte) :
    ∃ payload, encodedBuffer s input = BitVec.ofNat 8 (paddingOf (codeBitCount s.codeLen input)) :: payload ∧
      8 * payload.length = codeBitCount s.codeLen input + paddingOf (codeBitCount s.codeLen input) ∧
      (unpackBits payload).take (codeBitCount s.codeLen input) = input.flatMap s.code := by
  refine ⟨(encodedBuffer s input).drop 1, rfl, ?_, ?_⟩
  · rw [List.length_drop, encodedBuffer_length, encodedSize_payload]
  · rw [unpackBits_encodedBuffer_payload]
    exact List.take_left' (codes_length s input)

/-- DECODE of the EncodedBuffer of `s` with the tree of `s` gives the input of `s`. -/
theorem exec_decode_encodedBuffer {s u : State} (hok : s.structuresOk) (hcv : s.codesValid = true)
    (hcounted : ∀ x ∈ s.inputBytes, tableGet s.freq x ≠ 0#32) (hfatal : u.fatal = false) (htree : u.treeValid = true)
    (hnodes : u.nodes = s.nodes) (hroot : u.root = s.root) (hlen : u.inLen.toNat ≤ u.capIn)
    (hin : u.inputBytes = encodedBuffer s s.inputBytes) (hroom : s.inLen.toNat ≤ u.capOut) :
    ∃ v, exec .decode u = .next v ∧ v.done = true ∧ v.errCode = 0#4 ∧ v.outLen = s.inLen ∧
      ∀ a < s.inLen.toNat, v.outByte a = s.coreByte a := by
  obtain ⟨payload, hbuffer, hsize, htrim⟩ := encodedBuffer_trim s s.inputBytes
  have hpad := paddingOf_lt (codeBitCount s.codeLen s.inputBytes)
  have hheader : (BitVec.ofNat 8 (paddingOf (codeBitCount s.codeLen s.inputBytes))).toNat =
      paddingOf (codeBitCount s.codeLen s.inputBytes) := Nat.mod_eq_of_lt (by omega)
  have hparts : (unpackBits payload).take (8 * payload.length -
      (BitVec.ofNat 8 (paddingOf (codeBitCount s.codeLen s.inputBytes))).toNat) = (codedParts s).flatMap Prod.fst := by
    rw [hheader, hsize, Nat.add_sub_cancel, htrim, codedParts_flatMap_fst]
  have hpaths := codedParts_leafPath hok hcv hcounted
  rw [← hnodes, ← hroot] at hpaths
  obtain ⟨v, hv, _, hdone, hcode, _, hout, _, _, hbytes, _⟩ := decodeEmitsTheSymbolsOfThePaths u _ payload (codedParts s) hfatal
    htree hlen (hin.trans hbuffer) (by omega) (by omega) hparts hpaths ((codedParts_length s).trans_le hroom)
  refine ⟨v, hv, hdone, hcode, ?_, fun a ha => ?_⟩
  · rw [hout, codedParts_length, BitVec.ofNat_toNat, BitVec.setWidth_eq]
  · have ha' : a < (codedParts s).length := codedParts_length s ▸ ha
    rw [hbytes a ha', codedParts_getElem_snd]

/-- Settles O35: the codes are paths to the leaves, so the trimmed payload is a sequence of paths whose symbols are the input. -/
theorem decodingAnEncodedBufferGivesTheInput : Obligations.DecodingAnEncodedBufferGivesTheInput := by
  rintro s ⟨_, hcap⟩ hok hfatal hcv hlen hcounted hfits
  obtain ⟨_, _, hmax⟩ := legalMemBytes_iff.1 hcap
  have hbuffer := encodedBuffer_length s s.inputBytes
  have hcoded := coded_of_counted hok hcv hcounted
  refine ⟨_, exec_encode hfatal hcv hlen hcoded hfits, rfl, fun u hufatal hutree hnodes hroot hulen hucap hbytes hroom => ?_⟩
  refine exec_decode_encodedBuffer hok hcv hcounted hufatal hutree hnodes hroot hucap ?_ hroom
  rw [inputBytes_eq_outputBytes hulen hbytes, installOutput_outputBytes s (by omega)]

end Sys2Proof.Machine
end

section
/-! SUPPORT. The interrupt output `irq` (R192, R193): its level, and acceptance. -/

namespace Sys2Proof.Machine

theorem irq_eq_true (s : State) :
    s.irq = true ↔ (s.done = true ∧ s.irqEn.getLsbD 0 = true) ∨ (s.err = true ∧ s.irqEn.getLsbD 1 = true) := by
  rw [State.irq, Bool.or_eq_true, Bool.and_eq_true, Bool.and_eq_true]

/-- With neither source at 1, `irq` is 0 whatever `IRQ_EN` holds. -/
theorem irq_eq_false_of_no_source {s : State} (hdone : s.done = false) (herr : s.err = false) : s.irq = false := by
  rw [State.irq, hdone, herr, Bool.false_and, Bool.false_and, Bool.or_false]

/-- Acceptance clears both sources (R96, R193). -/
@[simp] theorem State.accept_irq (w : Word) (s : State) : (s.accept w).irq = false :=
  irq_eq_false_of_no_source (State.accept_done w s) (State.accept_err w s)

/-- An idle HCB accepts the word written to CMD (R96). -/
theorem busWrite_cmd_of_idle {s : State} (hidle : s.seq = .idle) (w : Word) :
    busWrite 0x000#32 w s = some (s.accept w) :=
  busWrite_taken (tg := .cmd) (decodeAddr_cmd _ _) fun hg => hg.1 hidle

/-- Settles O49: the level is the definition of `irq`, and an accepted command clears both its sources. -/
theorem irqIsTheEnabledLevel : Obligations.IrqIsTheEnabledLevel := by
  refine fun s => ⟨irq_eq_true s, fun w t hidle hwrite => ?_⟩
  obtain rfl : s.accept w = t := Option.some.inj ((busWrite_cmd_of_idle hidle w).symm.trans hwrite)
  exact State.accept_irq w s

end Sys2Proof.Machine
end

section
/-! SUPPORT. Reset and hazards (R205, R206, R214): guarded writes to a busy HCB, the initialisation step and the reset input. -/

namespace Sys2Proof.Machine

/-! ### Guarded writes while busy (R29, R214) -/

/-- An address of R214's list reaches a guarded target. -/
theorem decodeAddr_of_guarded {capIn capOut : Nat} {addr : Word} (h : guardedAddr capIn capOut addr.toNat) :
    ∃ tg, decodeAddr capIn capOut addr = some tg ∧ tg.guarded = true := by
  obtain ⟨halign, hcmd | hinLen | ⟨hlo, hhi⟩ | hin | hout⟩ := h
  · obtain rfl : addr = offCmd := BitVec.eq_of_toNat_eq hcmd
    exact ⟨.cmd, decodeAddr_cmd _ _, rfl⟩
  · obtain rfl : addr = offInLen := BitVec.eq_of_toNat_eq hinLen
    exact ⟨.inLen, decodeAddr_register halign (by decide), rfl⟩
  · exact ⟨_, decodeAddr_freq halign hlo (by omega), rfl⟩
  · have hlo : 0x6000 ≤ addr.toNat := le_trans (by decide) hin.1
    exact ⟨_, by rw [decodeAddr_memories halign hlo, if_pos hin], rfl⟩
  · have hlo : 0x6000 ≤ addr.toNat := le_trans (by decide) hout.1
    rw [decodeAddr_memories halign hlo, if_pos hout]
    split
    · exact ⟨_, rfl, rfl⟩
    · exact ⟨_, rfl, rfl⟩

/-- Settles O53: the address reaches a guarded target, whose write a busy HCB drops. -/
theorem guardedWritesAreDroppedWhileBusy : Obligations.GuardedWritesAreDroppedWhileBusy := by
  intro s addr d hbusy haddr
  obtain ⟨tg, htg, hguarded⟩ := decodeAddr_of_guarded haddr
  exact busWrite_dropped htg hbusy hguarded

/-! ### The initialisation step (R206) -/

theorem coreStep_of_init {s : State} (hinit : s.seq = .init) : coreStep s = .next s.initialise := by
  simp only [coreStep, hinit]

/-- Settles O45: the turn is used up first, and it is no part of `SEQ` or the tables. -/
theorem initialisationStepClearsTheTables : Obligations.InitialisationStepClearsTheTables := fun s hinit hagent =>
  (step_of_core hagent).trans (coreStep_of_init (s := s.takeTurn) hinit)

/-! ### The reset input (R205, R32) -/

theorem hostStep_rst {s : State} {ops : List HostOp} (hscript : s.script = .rst :: ops) :
    hostStep s = .next s.popScript.afterRst := by
  simp only [hostStep, hscript]

/-- `STATUS` shows nothing that outlives the reset input. -/
@[simp] theorem State.afterRst_statusWord (s : State) : s.afterRst.statusWord = State.reset.statusWord := rfl

/-- `irq` depends on nothing that outlives the reset input. -/
@[simp] theorem State.afterRst_irq (s : State) : s.afterRst.irq = State.reset.irq := rfl

/-- Settles O46: the reset input gives every register its value of `State.reset`, which is the spec's. -/
theorem resetInputRestoresEveryRegister : Obligations.ResetInputRestoresEveryRegister := by
  intro s ops hscript
  obtain ⟨hseq, hstatus, hinLen, houtLen, hbits, hpad, hnsym, hroot, hnnodes, herrInfo, hirqEn, _, hirq⟩ :=
    resetValuesAreTheSpecs
  exact ⟨s.popScript.afterRst, hostStep_rst hscript, hseq, (State.afterRst_statusWord _).trans hstatus, hinLen, houtLen, hbits,
    hpad, hnsym, hroot, hnnodes, herrInfo, hirqEn, (State.afterRst_irq _).trans hirq, rfl, rfl, congrArg List.tail hscript⟩

end Sys2Proof.Machine
end
